-- ==== Sys2Proof/Word.lean ====
section
/-! DEFINITION. The word types and the binary64 datum (00_scope.md R10, 43_synth.md R150). -/

namespace Sys2Proof

/-- `u8` of R10: a byte of a memory, a byte operand. -/
abbrev Byte := BitVec 8

/-- `u16` of R10: the width of the CRC accumulator. -/
abbrev Half := BitVec 16

/-- `u32` of R10: a command word, RESULT, STATUS. -/
abbrev Word := BitVec 32

/-- An IEEE 754 binary64 datum (R150). The standard's floating-point data are the signed finite numbers, the two
infinities and one NaN; no command reads or writes a pattern of bits of one (R27, R28), so a NaN carries no payload
(log 7). A finite datum has a biased exponent 0..2046 and 52 fraction bits, so equal data are equal terms. -/
inductive F64 where
  | nan
  | inf (neg : Bool)
  | fin (neg : Bool) (exp : Fin 2047) (frac : BitVec 52)
  deriving DecidableEq, Repr, Inhabited

end Sys2Proof
end

