-- ==== Sys2Proof/Syntax.lean ====
section
/-! DEFINITION. The commands (30_encoding.md R77): one constructor per row of spec/opcode_table.json. -/

namespace Sys2Proof

/-- The two ports (00_scope.md R6, 60_exceptions.md R210). -/
inductive Port where
  | control
  | sink
  deriving DecidableEq, Repr

/-- A command with its operands. `b` and CRC.LOAD's `imm16` are used as bits; the other operands are used as
non-negative integers (R76). -/
inductive Instr where
  /-- CRC.SEED (R102). -/
  | crcSeed
  /-- CRC.LOAD imm16 (R103). -/
  | crcLoad (imm16 : Half)
  /-- CRC.UPD b (R104). -/
  | crcUpd (b : Byte)
  /-- CRC.RD (R105). -/
  | crcRd
  /-- CRC.RDC (R106). -/
  | crcRdc
  /-- PAY.WR idx, b (R123). -/
  | payWr (idx : Nat) (b : Byte)
  /-- FRM.BUILD L (R124). -/
  | frmBuild (len : Nat)
  /-- PKT.RD j (R130). -/
  | pktRd (j : Nat)
  /-- SYN.RUN (R160). -/
  | synRun
  /-- WAV.RD i (R163). -/
  | wavRd (i : Nat)
  /-- FIFO.ARM (R183). -/
  | fifoArm
  /-- FIFO.FILL n (R185). -/
  | fifoFill (n : Nat)
  deriving DecidableEq, Repr

/-- The only port on which the command is legal (R77, R210). -/
def Instr.port : Instr → Port
  | .crcSeed | .crcLoad _ | .crcUpd _ | .crcRd | .crcRdc => .control
  | .payWr _ _ | .frmBuild _ | .pktRd _ => .control
  | .synRun | .wavRd _ | .fifoArm => .control
  | .fifoFill _ => .sink

end Sys2Proof
end

