-- ==== Sys2Proof/WellFormed.lean ====
section
/-! DEFINITION. Which commands have a word: "An operand out of its field's range (b > 0xFF, imm16 > 0xFFFF, idx > 0xFF,
u24 > 0xFFFFFF) is an assembly error, not a word" (30_encoding.md R81). -/

namespace Sys2Proof

/-- Every operand fits its field (R81). `b` and CRC.LOAD's `imm16` fit by their types. -/
def Instr.wellFormed : Instr → Bool
  | .crcSeed | .crcLoad _ | .crcUpd _ | .crcRd | .crcRdc => true
  | .payWr idx _ => decide (idx ≤ 0xFF)
  | .frmBuild len => decide (len ≤ 0xFFFF)
  | .pktRd j => decide (j ≤ 0xFFFF)
  | .synRun => true
  | .wavRd i => decide (i ≤ 0xFFFFFF)
  | .fifoArm => true
  | .fifoFill n => decide (n ≤ 0xFFFFFF)

/-- `i` is well formed. -/
abbrev Instr.WellFormed (i : Instr) : Prop := i.wellFormed = true

end Sys2Proof
end

