-- ==== Sys2Proof/Decode.lean ====
section
/-! DEFINITION. The decoder (30_encoding.md R70 to R80) and, after it, the encoder and the assembler's forms (R71 to
R75, R81, R82). -/

namespace Sys2Proof

/-- Why a word is no command of a port (R80). -/
inductive DecodeError where
  /-- Reserved opcode (R78) or reserved operand bits not 0 (R79). -/
  | illegalCommand
  /-- The opcode is legal only on the other port (R210). -/
  | wrongPort
  deriving DecidableEq, Repr

/-- A row of the opcode map (R77): the port, match and mask of the command, and the command its fields spell. -/
structure OpRow where
  op : BitVec 8
  port : Port
  pattern : Word
  mask : Word
  read : Word → Instr

/-! The operand fields (R72 to R75). -/

/-- `op`, bits [31:24] (R70). -/
def opOf (w : Word) : BitVec 8 := w.extractLsb' 24 8

/-- `b`, bits [7:0] of formats B8 and IB. -/
def fieldB (w : Word) : Byte := w.extractLsb' 0 8

/-- `idx`, bits [15:8] of format IB. -/
def fieldIdx (w : Word) : BitVec 8 := w.extractLsb' 8 8

/-- `imm16`, bits [15:0] of format I16. -/
def fieldImm16 (w : Word) : Half := w.extractLsb' 0 16

/-- `u24`, bits [23:0] of format U24. -/
def fieldU24 (w : Word) : BitVec 24 := w.extractLsb' 0 24

/-- The opcode map (R77), row by row. -/
def opTable : List OpRow :=
  [ ⟨0x01#8, .control, 0x01000000#32, 0xFFFFFFFF#32, fun _ => .crcSeed⟩,
    ⟨0x02#8, .control, 0x02000000#32, 0xFFFF0000#32, fun w => .crcLoad (fieldImm16 w)⟩,
    ⟨0x03#8, .control, 0x03000000#32, 0xFFFFFF00#32, fun w => .crcUpd (fieldB w)⟩,
    ⟨0x04#8, .control, 0x04000000#32, 0xFFFFFFFF#32, fun _ => .crcRd⟩,
    ⟨0x05#8, .control, 0x05000000#32, 0xFFFFFFFF#32, fun _ => .crcRdc⟩,
    ⟨0x10#8, .control, 0x10000000#32, 0xFFFF0000#32, fun w => .payWr (fieldIdx w).toNat (fieldB w)⟩,
    ⟨0x11#8, .control, 0x11000000#32, 0xFFFF0000#32, fun w => .frmBuild (fieldImm16 w).toNat⟩,
    ⟨0x12#8, .control, 0x12000000#32, 0xFFFF0000#32, fun w => .pktRd (fieldImm16 w).toNat⟩,
    ⟨0x20#8, .control, 0x20000000#32, 0xFFFFFFFF#32, fun _ => .synRun⟩,
    ⟨0x21#8, .control, 0x21000000#32, 0xFF000000#32, fun w => .wavRd (fieldU24 w).toNat⟩,
    ⟨0x30#8, .control, 0x30000000#32, 0xFFFFFFFF#32, fun _ => .fifoArm⟩,
    ⟨0x31#8, .sink, 0x31000000#32, 0xFF000000#32, fun w => .fifoFill (fieldU24 w).toNat⟩ ]

/-- The row of an opcode, if it is in the map. -/
def rowOf (op : BitVec 8) : Option OpRow := opTable.find? fun r => r.op == op

/-- Decoding a word that arrives on port `p`, in the order of R80: opcode, port, reserved bits. -/
def decode (p : Port) (w : Word) : Except DecodeError Instr :=
  match rowOf (opOf w) with
  | none => .error .illegalCommand
  | some r =>
    if r.port ≠ p then .error .wrongPort
    else if w &&& r.mask ≠ r.pattern then .error .illegalCommand
    else .ok (r.read w)

/-- The port that owns a word's opcode; the control port for a reserved opcode (either port rejects it, R78). -/
def portOfWord (w : Word) : Port :=
  match rowOf (opOf w) with
  | none => .control
  | some r => r.port

/-- The command a word spells on the port that owns its opcode. -/
def decodeWord (w : Word) : Option Instr :=
  match decode (portOfWord w) w with
  | .ok i => some i
  | .error _ => none

/-- The word whose lowest `nbits` bits are `w` and whose other bits are 0. A command is one 32-bit word (R70). -/
def tableWord (nbits w : Nat) : Word := BitVec.ofNat 32 (w % 2 ^ nbits)

/-- What the decoder reads from a row of spec/opcode_table.json; no instruction is longer than one word (R70, log 17). -/
def decodeTableWord (nbits w : Nat) : Option Instr :=
  if nbits ≤ 32 then decodeWord (tableWord nbits w) else none

/-! The encoder: the words of formats N, B8, I16, IB and U24 (R71 to R75), by the formulas of R81. -/

/-- A field placed with its bit 0 at bit `lo` of the word. -/
def place {n : Nat} (v : BitVec n) (lo : Nat) : Word := v.setWidth 32 <<< lo

def encodeN (op : BitVec 8) : Word := place op 24

def encodeB8 (op : BitVec 8) (b : Byte) : Word := place op 24 ||| place b 0

def encodeI16 (op : BitVec 8) (imm16 : Half) : Word := place op 24 ||| place imm16 0

def encodeIB (op : BitVec 8) (idx : BitVec 8) (b : Byte) : Word := place op 24 ||| place idx 8 ||| place b 0

def encodeU24 (op : BitVec 8) (u24 : BitVec 24) : Word := place op 24 ||| place u24 0

/-- The word of a well-formed command (R77, R81). -/
def encode : Instr → Word
  | .crcSeed => encodeN 0x01#8
  | .crcLoad imm16 => encodeI16 0x02#8 imm16
  | .crcUpd b => encodeB8 0x03#8 b
  | .crcRd => encodeN 0x04#8
  | .crcRdc => encodeN 0x05#8
  | .payWr idx b => encodeIB 0x10#8 (BitVec.ofNat 8 idx) b
  | .frmBuild len => encodeI16 0x11#8 (BitVec.ofNat 16 len)
  | .pktRd j => encodeI16 0x12#8 (BitVec.ofNat 16 j)
  | .synRun => encodeN 0x20#8
  | .wavRd i => encodeU24 0x21#8 (BitVec.ofNat 24 i)
  | .fifoArm => encodeN 0x30#8
  | .fifoFill n => encodeU24 0x31#8 (BitVec.ofNat 24 n)

/-! The assembler's pseudo-instructions (R82; log 19). -/

/-- `PAY.STR "s"` from payload index `k` on: one PAY.WR a byte, in order. -/
def payStrFrom (k : Nat) : List Byte → List Instr
  | [] => []
  | b :: bs => .payWr k b :: payStrFrom (k + 1) bs

/-- `PAY.STR "s"` (R82): defined for strings of at most 255 bytes. -/
def payStr (s : List Byte) : Option (List Instr) :=
  if s.length ≤ 255 then some (payStrFrom 0 s) else none

/-- `CRC.BYTES b0, ..., bm` (R82): one CRC.UPD a byte, in order. -/
def crcBytes (bs : List Byte) : List Instr := bs.map .crcUpd

/-- `SEND "s"` (R82): PAY.STR "s", FRM.BUILD k, SYN.RUN, FIFO.ARM. -/
def send (s : List Byte) : Option (List Instr) :=
  (payStr s).map fun is => is ++ [.frmBuild s.length, .synRun, .fifoArm]

/-- The assembler (R81): a mnemonic and its operands as numbers. Nothing for an unknown mnemonic, a wrong number of
operands or an operand out of its field's range. -/
def assemble (mnemonic : String) (operands : List Nat) : Option Instr :=
  let fits (limit n : Nat) (i : Instr) : Option Instr := if n ≤ limit then some i else none
  match mnemonic, operands with
  | "CRC.SEED", [] => some .crcSeed
  | "CRC.LOAD", [imm16] => fits 0xFFFF imm16 (.crcLoad (BitVec.ofNat 16 imm16))
  | "CRC.UPD", [b] => fits 0xFF b (.crcUpd (BitVec.ofNat 8 b))
  | "CRC.RD", [] => some .crcRd
  | "CRC.RDC", [] => some .crcRdc
  | "PAY.WR", [idx, b] => (fits 0xFF idx (.payWr idx (BitVec.ofNat 8 b))).bind (fits 0xFF b)
  | "FRM.BUILD", [len] => fits 0xFFFF len (.frmBuild len)
  | "PKT.RD", [j] => fits 0xFFFF j (.pktRd j)
  | "SYN.RUN", [] => some .synRun
  | "WAV.RD", [i] => fits 0xFFFFFF i (.wavRd i)
  | "FIFO.ARM", [] => some .fifoArm
  | "FIFO.FILL", [n] => fits 0xFFFFFF n (.fifoFill n)
  | _, _ => none

end Sys2Proof
end

