-- ==== Sys2Proof/Machine/Float.lean ====
section
/-! DEFINITION. Binary64 arithmetic (43_synth.md R150): every operation is computed exactly on integers, in units of
2^-1074 (the least positive binary64 number), and rounded once to nearest, ties to even (log 8). The operations are
irreducible, so that no proof unfolds a chain of them by accident; the kernel evaluates them as any definition. -/

namespace Sys2Proof

/-- The value 1 in units of 2^-1074. -/
def F64.one1074 : Nat := 2 ^ 1074

/-- +0.0. -/
def F64.posZero : F64 := .fin false 0 0#52

/-- 1.0: biased exponent 1023, fraction 0. -/
def F64.one : F64 := .fin false 1023 0#52

/-- The datum of a pattern of 64 bits: sign [63], biased exponent [62:52], fraction [51:0]. -/
def F64.ofBits (w : BitVec 64) : F64 :=
  if h : (w.extractLsb' 52 11).toNat < 2047 then
    .fin (w.getLsbD 63) ⟨(w.extractLsb' 52 11).toNat, h⟩ (w.extractLsb' 0 52)
  else if w.extractLsb' 0 52 = 0#52 then .inf (w.getLsbD 63)
  else .nan

def F64.isFinite : F64 → Bool
  | .fin _ _ _ => true
  | _ => false

/-- The magnitude, in units of 2^-1074, of a finite number with these fields. Biased exponent 0 is the subnormal range
(no hidden bit); R150 forbids flushing it to zero. -/
def F64.mag (exp : Fin 2047) (frac : BitVec 52) : Nat :=
  if exp.val = 0 then frac.toNat else (2 ^ 52 + frac.toNat) * 2 ^ (exp.val - 1)

/-- The value of a finite datum in units of 2^-1074 (0 for a datum that is not finite). -/
def F64.units : F64 → Int
  | .fin neg exp frac => if neg then -(F64.mag exp frac : Int) else (F64.mag exp frac : Int)
  | _ => 0

/-- `|x| <= 1` and `x` finite. -/
def F64.absLeOne : F64 → Bool
  | .fin _ exp frac => decide (F64.mag exp frac ≤ F64.one1074)
  | _ => false

/-- The integer nearest to `num / den`, ties to the even one. -/
def F64.nearestEven (num den : Nat) : Nat :=
  let n := num / den
  let r := num % den
  if den < 2 * r ∨ (2 * r = den ∧ n % 2 = 1) then n + 1 else n

/-- The datum of magnitude `n * 2^q` units, for a rounded significand `n` of at most `2^53` (and `q = 0` when it is
below `2^52`); infinite when the exponent does not fit. -/
def F64.pack (neg : Bool) (n q : Nat) : F64 :=
  if n < 2 ^ 52 then .fin neg 0 (BitVec.ofNat 52 n)
  else
    let e := if n < 2 ^ 53 then q + 1 else q + 2
    if h : e < 2047 then .fin neg ⟨e, h⟩ (BitVec.ofNat 52 n) else .inf neg

/-- The exponent, in units, of the last place of a number whose magnitude in units has integer part `x`: 53 bits are
kept, and none is finer than one unit. -/
def F64.quantum (x : Nat) : Nat := x.log2 - 52

/-- Round the exact magnitude `num / den` units to nearest, ties to even (R150). -/
def F64.round (neg : Bool) (num den : Nat) : F64 :=
  let q := F64.quantum (num / den)
  F64.pack neg (F64.nearestEven num (den * 2 ^ q)) q

/-- `-x`, exact. -/
def F64.neg : F64 → F64
  | .nan => .nan
  | .inf s => .inf (!s)
  | .fin s e f => .fin (!s) e f

/-- `fadd` (R11, R150). An exact zero sum is +0.0 unless both operands are -0.0 (round to nearest). -/
@[irreducible] def F64.fadd (a b : F64) : F64 :=
  match a, b with
  | .fin s e f, .fin t e' f' =>
    let z := (F64.fin s e f).units + (F64.fin t e' f').units
    if z = 0 then .fin (s && t) 0 0#52 else F64.round (decide (z < 0)) z.natAbs 1
  | .inf s, .inf t => if s = t then .inf s else .nan
  | .inf s, .fin _ _ _ => .inf s
  | .fin _ _ _, .inf t => .inf t
  | .nan, _ => .nan
  | _, .nan => .nan

/-- `fsub` (R11, R150): the exact difference rounded once. -/
def F64.fsub (a b : F64) : F64 := F64.fadd a b.neg

/-- `fmul` (R11, R150): the exact product rounded once. -/
@[irreducible] def F64.fmul (a b : F64) : F64 :=
  match a, b with
  | .fin s e f, .fin t e' f' => F64.round (s ^^ t) (F64.mag e f * F64.mag e' f') F64.one1074
  | .inf s, .inf t => .inf (s ^^ t)
  | .inf s, .fin t e f => if F64.mag e f = 0 then .nan else .inf (s ^^ t)
  | .fin s e f, .inf t => if F64.mag e f = 0 then .nan else .inf (s ^^ t)
  | .nan, _ => .nan
  | _, .nan => .nan

/-- `fdiv` (R11, R150): the exact quotient rounded once. -/
@[irreducible] def F64.fdiv (a b : F64) : F64 :=
  match a, b with
  | .fin s e f, .fin t e' f' =>
    if F64.mag e' f' = 0 then
      if F64.mag e f = 0 then .nan else .inf (s ^^ t)
    else F64.round (s ^^ t) (F64.mag e f * F64.one1074) (F64.mag e' f')
  | .inf _, .inf _ => .nan
  | .inf s, .fin t _ _ => .inf (s ^^ t)
  | .fin s _ _, .inf t => .fin (s ^^ t) 0 0#52
  | .nan, _ => .nan
  | _, .nan => .nan

/-- `f64(n)` (R11): the binary64 value of an integer `n >= 0`, exact below 2^53. -/
def F64.ofNat (n : Nat) : F64 := F64.round false (n * F64.one1074) 1

/-- `trunc(v)` (R11): the integer part of a finite `v`, rounding toward zero; nothing for a datum that is not finite. -/
def F64.trunc : F64 → Option Int
  | .fin s e f => some ((F64.fin s e f).units.tdiv F64.one1074)
  | _ => none

end Sys2Proof
end

