-- ==== Sys2Proof/Config.lean ====
section
/-! DEFINITION. The configuration (00_scope.md R7, R8, R9): what is fixed for the life of the block (10_state.md R39),
the OPEN parameters, and the free values. -/

namespace Sys2Proof

/-- The synthesis configuration (R7, R8). A parameter of the step relation, not state (R39). `COS64` and `SIN64` come with
the properties a configuration must meet of them (R152), for what they say of every number is not read off a value; the
conditions of R9 are `Cfg.Valid`. -/
structure Cfg where
  /-- `BITRATE`, symbols per second. -/
  bitrate : Nat
  /-- `SPS`, samples per symbol. -/
  sps : Nat
  /-- `DEV_HZ`, tone deviation in Hz. -/
  devHz : Nat
  /-- `INVERT`. -/
  invert : Bool
  /-- `CENTER_FREQ_HZ`: a setting of the session; the block never reads it (R5, R8). -/
  centerFreqHz : Nat
  /-- `FIR_COEF[0..7]` (42_fir.md R141). -/
  coef : Vector F64 8
  /-- `WAVE_CAP`, bytes of the waveform memory; D27's bound of 2^24 is not imposed (log 23). -/
  waveCap : Nat
  /-- `COS64`, `SIN64` (43_synth.md R152). -/
  cos64 : F64 → F64
  sin64 : F64 → F64
  /-- `SR_MIN`, the sink's least sample rate. -/
  srMin : Nat
  /-- `P_BOUND` and `P_FINITE` (R152). -/
  cos_bound : ∀ x, x.isFinite = true → (cos64 x).absLeOne = true
  sin_bound : ∀ x, x.isFinite = true → (sin64 x).absLeOne = true
  /-- `P_ZERO` (R152). -/
  cos_zero : cos64 F64.posZero = F64.one
  sin_zero : sin64 F64.posZero = F64.posZero

/-- `SR = BITRATE * SPS` (R8). -/
def Cfg.sr (c : Cfg) : Nat := c.bitrate * c.sps

/-- `LEADIN = SR div 16` sample pairs (R8, R154). -/
def Cfg.leadIn (c : Cfg) : Nat := c.sr / 16

/-- `LEADOUT = SR div 4` sample pairs (R8, R154). -/
def Cfg.leadOut (c : Cfg) : Nat := c.sr / 4

/-- `NP`, the sample pairs of the waveform of a packet of `pktLen` bytes (R155). -/
def Cfg.pairs (c : Cfg) (pktLen : Nat) : Nat := c.leadIn + 8 * pktLen * c.sps + c.leadOut

/-- The coefficients are finite and `2 * (|c0| + ... + |c7|) <= 1`, in exact arithmetic (R9, C4). -/
def coefNormalized (v : Vector F64 8) : Bool :=
  v.toList.all F64.isFinite &&
    decide (2 * (v.toList.map fun c => c.units.natAbs).sum ≤ F64.one1074)

/-- A valid configuration (R9; `DEV_HZ >= 0`, and what R152 asks of `COS64` and `SIN64`, hold by the type). The model is
defined for valid configurations only (R9, R232). D27's "`WAVE_CAP` must be at most 2^24" is not in R9's list and no
condition here: DESIGN CHOICE (log 23). -/
abbrev Cfg.Valid (c : Cfg) : Prop :=
  1 ≤ c.bitrate ∧ 1 ≤ c.sps ∧ coefNormalized c.coef = true ∧ c.srMin ≤ c.sr

/-! Constants of the protocol (R8), which no command changes (R128). -/

/-- `MAX_LENGTH`, the largest payload in bytes. -/
def Config.maxLength : Nat := 255

/-- `CRC_INIT`, the framer's seed. -/
def Config.crcInit : Half := 0x1D0F#16

/-- `CRC_POLY`, the polynomial without its x^16 term. -/
def Config.crcPoly : Half := 0x1021#16

/-- `CRC_XOROUT`, the final complement. -/
def Config.crcXorOut : Half := 0xFFFF#16

/-- `PREAMBLE`, the first three packet bytes. -/
def Config.preamble : List Byte := [0xAA#8, 0xAA#8, 0xAA#8]

/-- `SYNC`, sent high byte first. -/
def Config.sync : List Byte := [0x2D#8, 0xAA#8]

/-- `AMP`, the quantizer's scale. -/
def Config.amp : Nat := 127

/-- `FILL_MAX`, the largest request in bytes. -/
def Config.fillMax : Nat := 16777215

/-! OPEN parameters (R8). The spec states limits of them and no value. Each is an opaque constant with no body, kept
inside the limits, so that every value the limits allow is possible and nothing else is known (log 9, log 10). -/

opaque Config.rawCoef : Vector F64 8
opaque Config.rawCos : F64 → F64
opaque Config.rawSin : F64 → F64
opaque Config.rawSrMin : Nat

/-- `FIR_COEF` of this hardware: any normalized coefficients (D23). -/
def Config.firCoef : Vector F64 8 :=
  if coefNormalized Config.rawCoef then Config.rawCoef else Vector.replicate 8 F64.posZero

/-- `COS64` of this hardware: any function with `P_BOUND`, `P_ZERO` and `P_FINITE` (R152, D19). -/
def Config.cos64 (x : F64) : F64 :=
  if x = F64.posZero then F64.one
  else if x.isFinite && !(Config.rawCos x).absLeOne then F64.posZero
  else Config.rawCos x

/-- `SIN64` of this hardware: any function with `P_BOUND`, `P_ZERO` and `P_FINITE` (R152, D19). -/
def Config.sin64 (x : F64) : F64 :=
  if x = F64.posZero then F64.posZero
  else if x.isFinite && !(Config.rawSin x).absLeOne then F64.posZero
  else Config.rawSin x

/-- `P_BOUND`, `P_FINITE` and `P_ZERO` of this hardware's functions (R152). -/
theorem Config.cos64_bound (x : F64) (hx : x.isFinite = true) : (Config.cos64 x).absLeOne = true := by
  unfold Config.cos64
  split
  · decide +kernel
  · split
    · decide +kernel
    · next h => simpa [hx] using h

theorem Config.sin64_bound (x : F64) (hx : x.isFinite = true) : (Config.sin64 x).absLeOne = true := by
  unfold Config.sin64
  split
  · decide +kernel
  · split
    · decide +kernel
    · next h => simpa [hx] using h

/-- `SR_MIN` of the sink: any value that this hardware's `SR` meets (R9, D37). -/
def Config.srMin : Nat := min Config.rawSrMin 2000000

/-- The configuration of this hardware (R8). -/
def Config.hw : Cfg where
  bitrate := 2000
  sps := 1000
  devHz := 12000
  invert := false
  centerFreqHz := 869500000
  coef := Config.firCoef
  waveCap := 5458000
  cos64 := Config.cos64
  sin64 := Config.sin64
  srMin := Config.srMin
  cos_bound := Config.cos64_bound
  sin_bound := Config.sin64_bound
  cos_zero := if_pos rfl
  sin_zero := if_pos rfl

/-- The free values: what HIST_I, HIST_Q and PHASE hold after AmplitudeOverflow is unspecified (R160, U3; log 11). -/
opaque Config.freeF64 : Nat → F64

end Sys2Proof
end

