-- ==== Sys2Proof/Machine/State.lean ====
section
/-! DEFINITION. The machine's state (10_state.md R20), the reasons a step can stop, and the state after reset (R40). -/

namespace Sys2Proof.Machine

/-- A byte memory (20_memory.md R50): cells of address and byte, addresses strictly rising. An unlisted address holds a
byte that nothing has written since reset, which has no value (log 5, log 6). -/
abbrev Memory := List Host.Cell

/-- The error codes of 60_exceptions.md R201, by name. -/
inductive ErrorCode where
  | illegalCommand
  | wrongPort
  | payloadTooLarge
  | indexOutOfRange
  | uninitializedPayload
  | noPacket
  | synthesisBufferExhausted
  | amplitudeOverflow
  | waveformFrozen
  | cursorBusy
  | noWaveform
  | streamNotArmed
  deriving DecidableEq, Repr

/-- The FIFO's states (R32). -/
inductive FifoState where
  | idle
  | streaming
  | draining
  | done
  deriving DecidableEq, Repr

/-- FillResult (44_fifo.md R182). -/
inductive FillResult where
  | filled
  | filledWithPadding
  | streamEnded
  | allSamplesSent
  | faulted
  deriving DecidableEq, Repr

/-- `respond(result, stop, data)` (R181): no `data` means that the block drives no bytes. -/
structure SinkResponse where
  result : FillResult
  stop : Bool
  data : Option (List Byte)
  deriving DecidableEq, Repr

/-- What a step drives on a port (log 4): the value of a RESULT or STATUS read (R55), or the answer to a sink request. -/
inductive Answer where
  | value (w : Word)
  | sink (r : SinkResponse)
  deriving DecidableEq, Repr

/-- One step of a port, or reset, as an agent or the environment issues it (R6, R55, R181, R230). -/
inductive PortEvent where
  /-- `MemWrite(offset, bytes, value)` of the control agent. -/
  | ctlWrite (offset bytes : Nat) (value : Word)
  /-- `MemRead(offset, bytes)` of the control agent. -/
  | ctlRead (offset bytes : Nat)
  /-- A request of the sink agent. -/
  | sinkRequest (word : Word)
  /-- Reset, between two port steps. -/
  | reset
  deriving DecidableEq, Repr

/-- The state of R20, and the model's own fields `inputs`, `answer` and `freeCount`. -/
structure State where
  /-- `ACC` (R23). -/
  acc : Half
  /-- `PAY` and `PAY_W` (R25): `PAY_W[i] = 1` exactly when address `i` is listed (log 5). -/
  pay : Memory
  /-- `PKT` (R26). -/
  pkt : Memory
  /-- `PKT_LEN` (R26). -/
  pktLen : Nat
  /-- `PKT_VALID` (R26). -/
  pktValid : Bool
  /-- `HIST_I` (R27), slot 0 the oldest. -/
  histI : Vector F64 16
  /-- `HIST_Q` (R27), slot 0 the oldest. -/
  histQ : Vector F64 16
  /-- `PHASE` (R28). -/
  phase : F64
  /-- `WAVE` (R30). -/
  wave : Memory
  /-- `WLEN` (R30). -/
  wlen : Nat
  /-- `WAV_VALID` (R30). -/
  wavValid : Bool
  /-- `ARMED` (R31). -/
  armed : Bool
  /-- `POS` (R31). -/
  pos : Nat
  /-- `REM` (R31): signed, -1 is the sentinel. -/
  rem : Int
  /-- `RESULT` (R33). -/
  result : Word
  /-- `LAST_ERR` (R35). -/
  lastErr : BitVec 8
  /-- `SINK_ERR` (R36). -/
  sinkErr : BitVec 8
  /-- `STICKY` (R37). -/
  sticky : Bool
  /-- The port events that are issued and not yet acted on, oldest first (log 1). -/
  inputs : List PortEvent
  /-- What the last step drove on a port (log 4). -/
  answer : Option Answer
  /-- How many free values have been drawn (log 11). -/
  freeCount : Nat
  deriving DecidableEq, Repr

/-- Why the machine stops with a fault. The spec's own faults are error codes and never stop it (R207). -/
inductive Fault where
  /-- Raised by PKT.RD and SYN.RUN when PKT_VALID = 1 and a byte of `PKT[0..PKT_LEN-1]` has not been written since
  reset. No run reaches such a state (log 6). Safe: the machine stops where the spec gives no value. -/
  | unwrittenPacket
  /-- Raised by WAV.RD and FIFO.FILL when a byte of `WAVE[0..WLEN-1]` that they need has not been written since reset.
  No run reaches such a state (log 6). Safe: the machine stops where the spec gives no value. -/
  | unwrittenWave
  deriving DecidableEq, Repr

/-- Why the machine gives a step no meaning. -/
inductive Refusal where
  /-- An instruction without a meaning yet; raised only by an arm of `exec`. Safe. -/
  | notModelled (mnemonic : String)
  /-- Raised by a step whose event is an access to the control port window that is no transaction of the block: "a model
  refuses it" (R56, U21; log 13). Safe. -/
  | notATransaction
  /-- Raised by `stepWith`, `execWith` and `synRunWith` under a configuration that is not valid: the model is defined for
  valid ones only, and U8 says `refuse` (R9, R232; log 22). This hardware's configuration is valid, so `exec` and
  `step` never raise it. Safe. -/
  | invalidConfiguration
  deriving DecidableEq, Repr

/-- What a meaning and a step answer. -/
abbrev Result := Host.Outcome State Fault Refusal

/-- The state after reset (R40). No port event is pending and nothing is driven. -/
def State.reset : State where
  acc := 0x1D0F#16
  pay := []
  pkt := []
  pktLen := 8
  pktValid := false
  histI := Vector.replicate 16 F64.posZero
  histQ := Vector.replicate 16 F64.posZero
  phase := F64.posZero
  wave := []
  wlen := 0
  wavValid := false
  armed := false
  pos := 0
  rem := 0
  result := 0#32
  lastErr := 0#8
  sinkErr := 0#8
  sticky := false
  inputs := []
  answer := none
  freeCount := 0

end Sys2Proof.Machine
end

