-- ==== Sys2Proof/Machine/Flags.lean ====
section
/-! DEFINITION. The status fields and codes: FIFO state (10_state.md R32), STATUS (R34), error codes (60_exceptions.md
R201), FillResult codes (44_fifo.md R182). -/

namespace Sys2Proof.Machine

/-- The codes of R201. -/
def ErrorCode.code : ErrorCode → BitVec 8
  | .illegalCommand => 0x01#8
  | .wrongPort => 0x02#8
  | .payloadTooLarge => 0x03#8
  | .indexOutOfRange => 0x04#8
  | .uninitializedPayload => 0x05#8
  | .noPacket => 0x06#8
  | .synthesisBufferExhausted => 0x07#8
  | .amplitudeOverflow => 0x08#8
  | .waveformFrozen => 0x09#8
  | .cursorBusy => 0x0A#8
  | .noWaveform => 0x0B#8
  | .streamNotArmed => 0x0C#8

/-- The codes of R182. -/
def FillResult.code : FillResult → Nat
  | .filled => 0
  | .filledWithPadding => 1
  | .streamEnded => 2
  | .allSamplesSent => 3
  | .faulted => 4

/-- `stop` of R182: 1 when the sink must stop requesting. -/
def FillResult.stop : FillResult → Bool
  | .filled | .filledWithPadding | .streamEnded => false
  | .allSamplesSent | .faulted => true

/-- The FIFO state, a function of `ARMED` and `REM` (R32). -/
def State.fifoState (s : State) : FifoState :=
  if s.armed = false then .idle
  else if 0 < s.rem then .streaming
  else if s.rem = 0 then .draining
  else .done

/-- The codes of R32. -/
def FifoState.code : FifoState → BitVec 2
  | .idle => 0#2
  | .streaming => 1#2
  | .draining => 2#2
  | .done => 3#2

/-- The stream is in progress: Streaming or Draining (R66, R67). -/
def State.streamBusy (s : State) : Bool :=
  match s.fifoState with
  | .streaming | .draining => true
  | .idle | .done => false

/-- `STATUS` (R34), assembled on every read: [31:21] 0, [20] WAV_VALID, [19] PKT_VALID, [18:17] FIFO_STATE, [16] STICKY,
[15:8] SINK_ERR, [7:0] LAST_ERR. -/
def State.statusWord (s : State) : Word :=
  0#11 ++ BitVec.ofBool s.wavValid ++ BitVec.ofBool s.pktValid ++ s.fifoState.code ++ BitVec.ofBool s.sticky
    ++ s.sinkErr ++ s.lastErr

end Sys2Proof.Machine
end

