-- ==== Sys2Proof/Machine/Operands.lean ====
section
/-! DEFINITION. How operands and results are used (30_encoding.md R76, 00_scope.md R11) and what an event of the control
port window asks for (20_memory.md R55, R56). -/

namespace Sys2Proof.Machine

/-- `zext32` of a register or byte (R11). -/
def zext32 {n : Nat} (v : BitVec n) : Word := v.setWidth 32

/-- `zext16` of a byte (R11). -/
def zext16 (b : Byte) : Half := b.setWidth 16

/-- `zext32` of a non-negative integer (R124, R160). DESIGN CHOICE: of 2^32 or more, which only a WLEN under a `WAVE_CAP`
beyond D27's bound can be, the low 32 bits (log 23). -/
def natToWord (n : Nat) : Word := BitVec.ofNat 32 n

/-- `L[7:0]` of a payload length (R124). -/
def lengthByte (len : Nat) : Byte := BitVec.ofNat 8 len

/-- `F[15:8]` (R120). -/
def highByte (v : Half) : Byte := v.extractLsb' 8 8

/-- `F[7:0]` (R120). -/
def lowByte (v : Half) : Byte := v.extractLsb' 0 8

/-- `s8_to_byte` (R11, R54): the two's complement byte of a sample. -/
def s8ToByte (t : Int) : Byte := BitVec.ofInt 8 t

/-- The bits of a packet byte, most significant first (R59). -/
def bitsMsbFirst (b : Byte) : List Bool :=
  [b.getLsbD 7, b.getLsbD 6, b.getLsbD 5, b.getLsbD 4, b.getLsbD 3, b.getLsbD 2, b.getLsbD 1, b.getLsbD 0]

/-- The error a word that does not decode reports (R78, R79, R210). -/
def decodeErrorCode : DecodeError → ErrorCode
  | .illegalCommand => .illegalCommand
  | .wrongPort => .wrongPort

/-- The value a control-port read returns (R55); nothing when the access is no transaction (R56). -/
def State.portRead (s : State) (offset bytes : Nat) : Option Word :=
  if bytes ≠ 4 then none
  else if offset = 0x4 then some s.result
  else if offset = 0x8 then some s.statusWord
  else none

/-- A control-port write is a transaction only as a whole 32-bit write of `CMD` at offset 0 (R55, R56). -/
def isCommandWrite (offset bytes : Nat) : Bool := decide (offset = 0x0) && decide (bytes = 4)

end Sys2Proof.Machine
end

