-- ==== Sys2Proof/Machine/Ops.lean ====
section
/-! DEFINITION. The shared operations: byte memories, register updates, and reporting on the ports (60_exceptions.md R203,
R204), which is all there is of taking an exception: the block has no trap and no return from one (R207, R208). -/

namespace Sys2Proof.Machine

/-! Byte memories (20_memory.md R50). -/

/-- The canonical form: addresses strictly rising. -/
abbrev Memory.wf (m : Memory) : Prop := m.Pairwise fun c d => c.1 < d.1

/-- The byte at address `a`; nothing where no byte has been written since reset. -/
def Memory.read (m : Memory) (a : Nat) : Option Byte :=
  match m with
  | [] => none
  | (x, b) :: rest => if x = a then some b else Memory.read rest a

/-- The cells that hold `bs` from address `a` on. -/
def cellsFrom (a : Nat) : List Byte → Memory
  | [] => []
  | b :: bs => (a, b) :: cellsFrom (a + 1) bs

/-- Store the bytes `bs` at addresses `a`, `a + 1`, ... -/
def Memory.writeBlock (m : Memory) (a : Nat) (bs : List Byte) : Memory :=
  m.filter (fun c => decide (c.1 < a)) ++ cellsFrom a bs ++ m.filter (fun c => decide (a + bs.length ≤ c.1))

/-- Store one byte. -/
def Memory.write (m : Memory) (a : Nat) (b : Byte) : Memory := m.writeBlock a [b]

/-- The `k` bytes at addresses `a`, `a + 1`, ...; nothing if one of them has not been written since reset. -/
def Memory.readBlock (m : Memory) (a : Nat) : Nat → Option (List Byte)
  | 0 => some []
  | k + 1 =>
    match m.read a with
    | none => none
    | some b => (m.readBlock (a + 1) k).map (b :: ·)

/-- `PAY_W[i]` (R25). -/
def State.payW (s : State) (i : Nat) : Bool := (s.pay.read i).isSome

/-! Updates. -/

/-- `ACC <- v`. -/
def State.setAcc (v : Half) (s : State) : State := { s with acc := v }

/-- `RESULT <- v`. -/
def State.setResult (v : Word) (s : State) : State := { s with result := v }

/-- `PAY[idx] <- b; PAY_W[idx] <- 1` (R123). -/
def State.writePay (idx : Nat) (b : Byte) (s : State) : State := { s with pay := s.pay.write idx b }

/-- The packet memory, its length and its valid bit after a build (R124). -/
def State.putPacket (bytes : List Byte) (s : State) : State :=
  { s with pkt := s.pkt.writeBlock 0 bytes, pktLen := bytes.length, pktValid := true }

/-- The waveform memory, its length and its valid bit after a synthesis (R160). -/
def State.putWave (bytes : List Byte) (s : State) : State :=
  { s with wave := s.wave.writeBlock 0 bytes, wlen := bytes.length, wavValid := true }

/-- HIST_I, HIST_Q and PHASE (R27, R28). -/
def State.setOsc (hi hq : Vector F64 16) (ph : F64) (s : State) : State :=
  { s with histI := hi, histQ := hq, phase := ph }

/-- `POS <- p; REM <- r` (R31). -/
def State.setCursor (p : Nat) (r : Int) (s : State) : State := { s with pos := p, rem := r }

/-- `ARMED <- 1` (R31). -/
def State.setArmed (s : State) : State := { s with armed := true }

/-- Sixteen free values, from the `n`-th on. -/
@[irreducible] def freeHist (n : Nat) : Vector F64 16 := Vector.ofFn fun k : Fin 16 => Config.freeF64 (n + k.val)

/-- A synthesis that was aborted (R160, U3): no waveform, every WAVE byte unspecified (no value), HIST_I, HIST_Q and
PHASE free values (log 11). -/
def State.dropWave (s : State) : State :=
  { s with
    wave := []
    wlen := 0
    wavValid := false
    histI := freeHist s.freeCount
    histQ := freeHist (s.freeCount + 16)
    phase := Config.freeF64 (s.freeCount + 32)
    freeCount := s.freeCount + 33 }

/-! Reporting. -/

/-- A control-port command that succeeds (R203). -/
def State.ctlOk (s : State) : State := { s with lastErr := 0x00#8 }

/-- A sink-port request that succeeds, with its response (R204, R181). -/
def State.sinkOk (r : FillResult) (data : Option (List Byte)) (s : State) : State :=
  { s with sinkErr := 0x00#8, answer := some (.sink ⟨r, r.stop, data⟩) }

/-- A command or request on port `p` that raises error `e` (R203, R204): the code, STICKY, and on the sink port the
response `(Faulted, 1, none)`; nothing else. -/
def State.raise (p : Port) (e : ErrorCode) (s : State) : State :=
  match p with
  | .control => { s with lastErr := e.code, sticky := true }
  | .sink =>
    { s with
      sinkErr := e.code
      sticky := true
      answer := some (.sink ⟨.faulted, FillResult.stop .faulted, none⟩) }

/-- Reset (R230): every piece of state at its value of R40. The model's own `inputs` and `freeCount` go on (log 16). -/
def State.hardReset (s : State) : State := { State.reset with inputs := s.inputs, freeCount := s.freeCount }

/-- The state in which a port step runs: its event is taken from `inputs`, and nothing is driven yet. -/
def State.begin (rest : List PortEvent) (s : State) : State := { s with inputs := rest, answer := none }

/-! The configuration (70_reset_and_hazards.md R232). -/

/-- `r` under the premise that the configuration is valid; a refusal without it (R9, U8; log 22). -/
def guardConfig (c : Cfg) (r : Result) : Result := if c.Valid then r else .refused .invalidConfiguration

end Sys2Proof.Machine
end

