-- ==== Sys2Proof/Machine/Fifo.lean ====
section
/-! DEFINITION. The sample FIFO (44_fifo.md). -/

namespace Sys2Proof.Machine

/-- FIFO.ARM (R183). -/
def execFifoArm (s : State) : Result :=
  if s.streamBusy then .next (s.raise .control .cursorBusy)
  else if s.wavValid = false then .next (s.raise .control .noWaveform)
  else .next ((s.setCursor 0 s.wlen).setArmed).ctlOk

/-- `n` zero bytes. -/
def zeros (n : Nat) : List Byte := List.replicate n 0x00#8

/-- `fill_streaming(n)` (R186): `k = min(n, REM)` bytes at the cursor, then padding. -/
def fillStreaming (n : Nat) (s : State) : Result :=
  let k := min n s.rem.toNat
  match s.wave.readBlock s.pos k with
  | none => .fault .unwrittenWave
  | some bytes =>
    .next ((s.setCursor (s.pos + k) (s.rem - k)).sinkOk
      (if k < n then .filledWithPadding else .filled) (some (bytes ++ zeros (n - k))))

/-- `fill_draining(n)` (R187): one silent buffer, and the sentinel. -/
def fillDraining (n : Nat) (s : State) : Result :=
  .next ((s.setCursor s.pos (-1)).sinkOk .streamEnded (some (zeros n)))

/-- `fill_done()` (R188): no bytes, and the sink must stop. -/
def fillDone (s : State) : Result := .next (s.sinkOk .allSamplesSent none)

/-- FIFO.FILL (R185); in Idle it raises StreamNotArmed (R189). -/
def execFifoFill (n : Nat) (s : State) : Result :=
  match s.fifoState with
  | .idle => .next (s.raise .sink .streamNotArmed)
  | .streaming => fillStreaming n s
  | .draining => fillDraining n s
  | .done => fillDone s

end Sys2Proof.Machine
end

