-- ==== Sys2Proof/Machine/Crc.lean ====
section
/-! DEFINITION. The CRC accumulator commands (40_crc.md). -/

namespace Sys2Proof.Machine

/-- One round of R100: the test of bit 15 is made before the shift. -/
def crcRound (c : Half) : Half := if c.getLsbD 15 then (c <<< 1) ^^^ Config.crcPoly else c <<< 1

/-- `crc_update` (R100): XOR the byte into the high byte, then 8 rounds. -/
def crcUpdate (crc : Half) (b : Byte) : Half := crcRound^[8] (crc ^^^ (zext16 b <<< 8))

/-- `crc_update` over a sequence of bytes. -/
def crcFold (crc : Half) (bs : List Byte) : Half := bs.foldl crcUpdate crc

/-- CRC.SEED (R102). -/
def execCrcSeed (s : State) : Result := .next (s.setAcc Config.crcInit).ctlOk

/-- CRC.LOAD (R103). -/
def execCrcLoad (imm16 : Half) (s : State) : Result := .next (s.setAcc imm16).ctlOk

/-- CRC.UPD (R104). -/
def execCrcUpd (b : Byte) (s : State) : Result := .next (s.setAcc (crcUpdate s.acc b)).ctlOk

/-- CRC.RD (R105). -/
def execCrcRd (s : State) : Result := .next (s.setResult (zext32 s.acc)).ctlOk

/-- CRC.RDC (R106). -/
def execCrcRdc (s : State) : Result := .next (s.setResult (zext32 (s.acc ^^^ Config.crcXorOut))).ctlOk

end Sys2Proof.Machine
end

