-- ==== Sys2Proof/Machine/Framer.lean ====
section
/-! DEFINITION. The packet framer commands (41_framer.md). -/

namespace Sys2Proof.Machine

/-- `F`, the emitted CRC: over the length byte and the payload, seeded and complemented (R122). The accumulator is the
framer's own (R24). -/
def frameCrc (payload : List Byte) : Half :=
  crcFold Config.crcInit (lengthByte payload.length :: payload) ^^^ Config.crcXorOut

/-- The packet of a payload (R120): preamble, sync, length, payload, CRC high byte first (R58). -/
def packetBytes (payload : List Byte) : List Byte :=
  Config.preamble ++ Config.sync ++ [lengthByte payload.length] ++ payload
    ++ [highByte (frameCrc payload), lowByte (frameCrc payload)]

/-- PAY.WR (R123). -/
def execPayWr (idx : Nat) (b : Byte) (s : State) : Result :=
  if 254 < idx then .next (s.raise .control .indexOutOfRange)
  else .next (s.writePay idx b).ctlOk

/-- FRM.BUILD (R124): the checks come before any write (R125). -/
def execFrmBuild (len : Nat) (s : State) : Result :=
  if Config.maxLength < len then .next (s.raise .control .payloadTooLarge)
  else
    match s.pay.readBlock 0 len with
    | none => .next (s.raise .control .uninitializedPayload)
    | some payload => .next (((s.putPacket (packetBytes payload)).setResult (natToWord (8 + len))).ctlOk)

/-- PKT.RD (R130). -/
def execPktRd (j : Nat) (s : State) : Result :=
  if s.pktValid = false then .next (s.raise .control .noPacket)
  else if s.pktLen ≤ j then .next (s.raise .control .indexOutOfRange)
  else
    match s.pkt.read j with
    | none => .fault .unwrittenPacket
    | some b => .next (s.setResult (zext32 b)).ctlOk

end Sys2Proof.Machine
end

