-- ==== Sys2Proof/Machine/Fir.lean ====
section
/-! DEFINITION. The symmetric FIR smoothing filter (42_fir.md), internal to SYN.RUN (R140). -/

namespace Sys2Proof.Machine

/-- `h[k]` (R141): the stored coefficient for `k < 8`, its mirror for `k >= 8`. -/
def firWeight (coef : Vector F64 8) (k : Fin 16) : F64 :=
  if h : k.val < 8 then coef[k.val] else coef[15 - k.val]

/-- Shift the history left by one slot and insert the newest sample at slot 15 (R142). -/
def firShift (hist : Vector F64 16) (x : F64) : Vector F64 16 :=
  Vector.ofFn fun k : Fin 16 => if h : k.val < 15 then hist[k.val + 1] else x

/-- The weighted sum (R142): from +0.0, slots in ascending order, one rounding per product and per sum. -/
def firSum (coef : Vector F64 8) (hist : Vector F64 16) : F64 :=
  (List.finRange 16).foldl (fun y k => F64.fadd y (F64.fmul hist[k] (firWeight coef k))) F64.posZero

/-- `fir_step` of one channel (R142): the output, and the channel's history afterwards. -/
def firStep (coef : Vector F64 8) (hist : Vector F64 16) (x : F64) : F64 × Vector F64 16 :=
  (firSum coef (firShift hist x), firShift hist x)

end Sys2Proof.Machine
end

