-- ==== Sys2Proof/Machine/Synth.lean ====
section
/-! DEFINITION. The FSK tone synthesizer commands (43_synth.md). -/

namespace Sys2Proof.Machine

/-- `PI64` (R151). -/
def pi64 : F64 := F64.ofBits 0x400921FB54442D18#64

/-- The phase step magnitude (R153), evaluated left to right. -/
def phaseStep (c : Cfg) : F64 :=
  F64.fdiv (F64.fmul (F64.fmul (F64.ofNat 2) pi64) (F64.ofNat c.devHz)) (F64.ofNat c.sr)

/-- The registers that a run of the sequencer carries from sample to sample (R27, R28). -/
structure Osc where
  histI : Vector F64 16
  histQ : Vector F64 16
  phase : F64
  deriving DecidableEq, Repr

/-- Their values at the start of every run (R144, R28). -/
def Osc.start : Osc := ⟨Vector.replicate 16 F64.posZero, Vector.replicate 16 F64.posZero, F64.posZero⟩

/-- The phase after one sample of effective bit `e` (R157, R158). -/
def advancePhase (step : F64) (e : Bool) (phase : F64) : F64 :=
  if e then F64.fsub phase step else F64.fadd phase step

/-- `q8` (R159): nothing where it raises AmplitudeOverflow (a NaN, an infinity, or a value outside [-127, 127]; log 12). -/
def q8 (y : F64) : Option Int :=
  match F64.trunc (F64.fmul y (F64.ofNat Config.amp)) with
  | none => none
  | some t => if t < -127 ∨ 127 < t then none else some t

/-- One packet sample (R160): the oscillator's outputs before its advance (R158), one filter step a channel (R143), the
quantizer. The two bytes, I first (R53), and the registers afterwards. -/
def synthSample (c : Cfg) (step : F64) (e : Bool) (o : Osc) : Option (List Byte × Osc) :=
  let (yi, hi) := firStep c.coef o.histI (c.cos64 o.phase)
  let (yq, hq) := firStep c.coef o.histQ (c.sin64 o.phase)
  match q8 yi, q8 yq with
  | some ti, some tq => some ([s8ToByte ti, s8ToByte tq], ⟨hi, hq, advancePhase step e o.phase⟩)
  | _, _ => none

/-- A run of samples, one a bit, under the rule `f` of one sample: the bytes in order and the registers at the end;
nothing where a sample raises AmplitudeOverflow. -/
def runSamples (f : Bool → Osc → Option (List Byte × Osc)) : List Bool → Osc → Option (List Byte × Osc)
  | [], o => some ([], o)
  | e :: es, o =>
    match f e o with
    | none => none
    | some (bytes, o') => (runSamples f es o').map fun r => (bytes ++ r.1, r.2)

/-- The packet samples of a list of effective bits (R160 step 3). -/
def synthSamples (c : Cfg) (step : F64) (bits : List Bool) (o : Osc) : Option (List Byte × Osc) :=
  runSamples (synthSample c step) bits o

/-- The effective bit of every sample of a packet (R157, R160): bytes in order, bits most significant first, each bit
`SPS` times. -/
def sampleBits (c : Cfg) (packet : List Byte) : List Bool :=
  (packet.flatMap bitsMsbFirst).flatMap fun bit => List.replicate c.sps (bit ^^ c.invert)

/-- `n` silent sample pairs (R154, R145). -/
def silence (n : Nat) : List Byte := List.replicate (2 * n) 0x00#8

/-- The waveform of a packet (R160 steps 1 to 4) and the registers after it; nothing on AmplitudeOverflow. -/
def synthesize (c : Cfg) (packet : List Byte) : Option (List Byte × Osc) :=
  (synthSamples c (phaseStep c) (sampleBits c packet) Osc.start).map fun r =>
    (silence c.leadIn ++ r.1 ++ silence c.leadOut, r.2)

/-- What SYN.RUN does under a valid configuration (R160), with the checks in R206's order. -/
def synRunSteps (c : Cfg) (s : State) : Result :=
  if s.streamBusy then .next (s.raise .control .waveformFrozen)
  else if s.pktValid = false then .next (s.raise .control .noPacket)
  else if c.waveCap < 2 * c.pairs s.pktLen then .next (s.raise .control .synthesisBufferExhausted)
  else
    match s.pkt.readBlock 0 s.pktLen with
    | none => .fault .unwrittenPacket
    | some packet =>
      match synthesize c packet with
      | none => .next (s.dropWave.raise .control .amplitudeOverflow)
      | some (bytes, o) =>
        .next ((((s.putWave bytes).setOsc o.histI o.histQ o.phase).setResult (natToWord bytes.length)).ctlOk)

/-- SYN.RUN under a configuration (R160), which is a parameter (R39) and must be valid (R232). -/
def synRunWith (c : Cfg) (s : State) : Result := guardConfig c (synRunSteps c s)

/-- SYN.RUN (R160) with this hardware's configuration (log 15), which is valid (`hw_valid`). -/
def execSynRun (s : State) : Result := synRunSteps Config.hw s

/-- WAV.RD (R163). -/
def execWavRd (i : Nat) (s : State) : Result :=
  if s.wavValid = false then .next (s.raise .control .noWaveform)
  else if s.wlen ≤ i then .next (s.raise .control .indexOutOfRange)
  else
    match s.wave.read i with
    | none => .fault .unwrittenWave
    | some b => .next (s.setResult (zext32 b)).ctlOk

end Sys2Proof.Machine
end

