-- ==== Sys2Proof/Machine/Dispatch.lean ====
section
/-! DEFINITION. Which meaning runs for which command: one arm per constructor. -/

namespace Sys2Proof.Machine

/-- The effect of a decoded command. -/
def exec (i : Instr) (s : State) : Host.Outcome State Fault Refusal :=
  match i with
  | .crcSeed => Sys2Proof.Machine.execCrcSeed s
  | .crcLoad imm16 => Sys2Proof.Machine.execCrcLoad imm16 s
  | .crcUpd b => Sys2Proof.Machine.execCrcUpd b s
  | .crcRd => Sys2Proof.Machine.execCrcRd s
  | .crcRdc => Sys2Proof.Machine.execCrcRdc s
  | .payWr idx b => Sys2Proof.Machine.execPayWr idx b s
  | .frmBuild len => Sys2Proof.Machine.execFrmBuild len s
  | .pktRd j => Sys2Proof.Machine.execPktRd j s
  | .synRun => Sys2Proof.Machine.execSynRun s
  | .wavRd n => Sys2Proof.Machine.execWavRd n s
  | .fifoArm => Sys2Proof.Machine.execFifoArm s
  | .fifoFill n => Sys2Proof.Machine.execFifoFill n s

end Sys2Proof.Machine
end

