-- ==== Sys2Proof/Machine/Ports.lean ====
section
/-! DEFINITION. One port step (20_memory.md R55, R56, R61; 44_fifo.md R181; 70_reset_and_hazards.md R230), over what runs a
decoded command: the configuration is a parameter of the step, through the meaning that reads it (10_state.md R39). -/

namespace Sys2Proof.Machine

/-- The effect of a decoded command under a configuration (R39), which must be valid before any command (R232). SYN.RUN
alone reads it. -/
def execWith (c : Cfg) (i : Instr) (s : State) : Result :=
  match i with
  | .synRun => synRunWith c s
  | .crcSeed | .crcLoad _ | .crcUpd _ | .crcRd | .crcRdc | .payWr _ _ | .frmBuild _ | .pktRd _ | .wavRd _ | .fifoArm
  | .fifoFill _ => guardConfig c (exec i s)

/-- A command word that arrives on port `p` (R80): it executes one command, by `run`, or raises one error. -/
def commandStep (run : Instr → State → Result) (p : Port) (w : Word) (s : State) : Result :=
  match decode p w with
  | .error e => .next (s.raise p (decodeErrorCode e))
  | .ok i => run i s

/-- One event of an agent or of the environment, in the state `s` in which it is taken. -/
def portStep (run : Instr → State → Result) (ev : PortEvent) (s : State) : Result :=
  match ev with
  | .ctlWrite offset bytes value =>
    if isCommandWrite offset bytes then commandStep run .control value s else .refused .notATransaction
  | .ctlRead offset bytes =>
    match s.portRead offset bytes with
    | none => .refused .notATransaction
    | some v => .next { s with answer := some (.value v) }
  | .sinkRequest word => commandStep run .sink word s
  | .reset => .next s.hardReset

/-- The event that brings a command word to the block on port `p`. -/
def commandEvent (p : Port) (w : Word) : PortEvent :=
  match p with
  | .control => .ctlWrite 0x0 4 w
  | .sink => .sinkRequest w

/-- What the block does when no event is pending: nothing, and it drives nothing (log 2). -/
def idleStep (s : State) : Result := .next (s.begin [])

/-- One step (R61): the oldest pending event, acted on as one atomic step. -/
def stepBy (run : Instr → State → Result) (s : State) : Result :=
  match s.inputs with
  | [] => idleStep s
  | ev :: rest => portStep run ev (s.begin rest)

end Sys2Proof.Machine
end

