-- ==== Sys2Proof/Machine/Step.lean ====
section
/-! DEFINITION. The step relation (20_memory.md R61), with the configuration as its parameter (10_state.md R39), and this
hardware's. -/

namespace Sys2Proof.Machine

/-- One step of a block with the configuration `c` (R39): the configuration is fixed for its life, and no event writes
it. Under an invalid one the model is not defined: every step is refused (R9, U8; log 22). -/
def stepWith (c : Cfg) (s : State) : Host.Outcome State Fault Refusal := guardConfig c (stepBy (execWith c) s)

/-- One step of this hardware: `stepWith Config.hw` (`stepWith_hw`; log 15), whose configuration is valid (`hw_valid`). -/
def step (s : State) : Host.Outcome State Fault Refusal := stepBy exec s

/-- `s` with a table word issued, as the next event, on the port that owns its opcode: the block fetches nothing (R69), so
this is how a command comes to it (log 3). -/
def State.withFetchWord (s : State) (nbits w : Nat) : State :=
  { s with
    inputs := commandEvent (portOfWord (tableWord nbits w)) (tableWord nbits w) :: s.inputs }

end Sys2Proof.Machine
end

