-- ==== Sys2Proof/Safety.lean ====
section
/-! DEFINITION. The terms in which claims are stated: the invariant of the machine, transactions, runs of commands and of
sink requests. -/

namespace Sys2Proof.Machine

/-- The invariant every step under the configuration `c` keeps, from any state that has it. Reset has it. -/
structure State.InvWith (c : Cfg) (s : State) : Prop where
  /-- The memories are in canonical form, and no cell lies outside the address spaces of R50. -/
  pay_wf : s.pay.wf
  pkt_wf : s.pkt.wf
  wave_wf : s.wave.wf
  pay_space : ∀ cell ∈ s.pay, cell.1 < 255
  pkt_space : ∀ cell ∈ s.pkt, cell.1 < 263
  wave_space : ∀ cell ∈ s.wave, cell.1 < c.waveCap
  /-- `PKT_VALID = 1` means that `PKT[0..PKT_LEN-1]` is the packet of some payload of 0 to 255 bytes (R26, R120). -/
  packet_sound : s.pktValid = true → ∃ payload : List Byte, payload.length ≤ 255 ∧ s.pktLen = 8 + payload.length ∧
    s.pkt.readBlock 0 s.pktLen = some (packetBytes payload)
  /-- Before the first packet `PKT_LEN` is 8 (R26). -/
  packet_none : s.pktValid = false → s.pktLen = 8
  /-- `WAV_VALID = 1` means that `WAVE[0..WLEN-1]` is the complete waveform of some packet (R30, R160). -/
  wave_sound : s.wavValid = true → ∃ (payload bytes : List Byte) (o : Osc), payload.length ≤ 255 ∧
    synthesize c (packetBytes payload) = some (bytes, o) ∧ s.wlen = bytes.length ∧
    s.wave.readBlock 0 s.wlen = some bytes
  /-- The waveform fits its memory (R156). -/
  wave_fits : s.wlen ≤ c.waveCap
  /-- Without a waveform `WLEN` is 0 (R30, R160). -/
  wave_none : s.wavValid = false → s.wlen = 0
  /-- Idle: the cursor is at its reset value (R31). -/
  cursor_idle : s.armed = false → s.pos = 0 ∧ s.rem = 0
  /-- Streaming and Draining: the cursor lies in the waveform (R31, R186). In Done it need not (log 14). -/
  cursor_live : s.armed = true → 0 ≤ s.rem → s.wavValid = true ∧ (s.pos : Int) + s.rem = s.wlen
  /-- The sentinel is -1, and the position never leaves the waveform memory (R31; log 14). -/
  cursor_done : -1 ≤ s.rem ∧ s.pos ≤ c.waveCap
  /-- The reserved error codes 0x0D to 0xFF are never held (R201, U18). -/
  codes_known : s.lastErr ≤ 0x0C#8 ∧ s.sinkErr ≤ 0x0C#8
  /-- STICKY = 0 says that no code is held (R205). -/
  sticky_clear : s.sticky = false → s.lastErr = 0#8 ∧ s.sinkErr = 0#8

/-- The invariant of this hardware. -/
abbrev State.Inv (s : State) : Prop := s.InvWith Config.hw

/-- The events that are transactions of the block (R56), or reset. -/
def PortEvent.isTransaction : PortEvent → Bool
  | .ctlWrite offset bytes _ => decide (offset = 0x0 ∧ bytes = 4)
  | .ctlRead offset bytes => decide ((offset = 0x4 ∨ offset = 0x8) ∧ bytes = 4)
  | .sinkRequest _ => true
  | .reset => true

/-- A run in which no command or request has faulted since reset (R205). -/
def State.faultFree (s : State) : Bool := !s.sticky

/-- The commands `is` executed one after the other, stopping where one stops. -/
def runCommands : List Instr → State → Result
  | [], s => .next s
  | i :: is, s =>
    match exec i s with
    | .next t => runCommands is t
    | .fault f => .fault f
    | .refused r => .refused r

/-- The sink's requests for the sizes `ns`, one after the other: the responses in order, and the state at the end. -/
def runFills : List Nat → State → Option (List SinkResponse × State)
  | [], s => some ([], s)
  | n :: ns, s =>
    match exec (.fifoFill n) s with
    | .next t =>
      match t.answer with
      | some (.sink r) => (runFills ns t).map fun q => (r :: q.1, q.2)
      | _ => none
    | _ => none

/-- The bytes a list of responses drove, in order. -/
def drivenBytes (rs : List SinkResponse) : List Byte := rs.flatMap fun r => r.data.getD []

/-! The waveform by index: sample `n` of a packet, said without the sequencer's loops (43_synth.md R157, R158, R160). -/

/-- The effective bit of packet sample `n`: packet byte `n div (8 * SPS)`, most significant bit first, `SPS` samples a
bit (R59, R157). -/
def sampleBit (c : Cfg) (packet : List Byte) (n : Nat) : Bool :=
  (packet.getD (n / (8 * c.sps)) 0#8).getLsbD (7 - n / c.sps % 8) ^^ c.invert

/-- PHASE at packet sample `n`, before its advance (R158). -/
def samplePhase (c : Cfg) (packet : List Byte) : Nat → F64
  | 0 => F64.posZero
  | n + 1 =>
    if sampleBit c packet n then F64.fsub (samplePhase c packet n) (phaseStep c)
    else F64.fadd (samplePhase c packet n) (phaseStep c)

/-- The history of the channel of `wave` (`COS64` or `SIN64`) when sample `n` is inserted: slot `k` holds the raw sample
of `15 - k` samples before, or +0.0 before the first (R142, R144). -/
def sampleHistory (c : Cfg) (packet : List Byte) (wave : F64 → F64) (n : Nat) : Vector F64 16 :=
  Vector.ofFn fun k : Fin 16 => if 15 ≤ n + k.val then wave (samplePhase c packet (n + k.val - 15)) else F64.posZero

/-- The quantized sample `n` of a channel; nothing where `q8` raises AmplitudeOverflow (R142, R159). -/
def sampleValue (c : Cfg) (packet : List Byte) (wave : F64 → F64) (n : Nat) : Option Int :=
  q8 (firSum c.coef (sampleHistory c packet wave n))

/-- The outputs of one filter channel for a list of inputs (42_fir.md R142). -/
def firOutputs (coef : Vector F64 8) : Vector F64 16 → List F64 → List F64
  | _, [] => []
  | hist, x :: xs => (firStep coef hist x).1 :: firOutputs coef (firStep coef hist x).2 xs

/-- `r` is the magnitude `num / den` (units of 2^-1074) with sign `neg`, rounded to nearest, ties to even: no finite
number lies nearer, of two nearest ones `r` is the one with an even fraction, and `r` is infinite exactly from half a last
place above the largest finite number on (IEEE 754-2008, 43_synth.md R150). -/
def RoundsTo (neg : Bool) (num den : Nat) (r : F64) : Prop :=
  ((2 ^ 2098 - 2 ^ 2044) * den ≤ num ∧ r = .inf neg) ∨
  (num < (2 ^ 2098 - 2 ^ 2044) * den ∧ ∃ e f, r = .fin neg e f ∧ ∀ e' f',
    ((F64.mag e f * den : Int) - num).natAbs ≤ ((F64.mag e' f' * den : Int) - num).natAbs ∧
    (((F64.mag e f * den : Int) - num).natAbs = ((F64.mag e' f' * den : Int) - num).natAbs →
      F64.mag e f = F64.mag e' f' ∨ f.getLsbD 0 = false))

end Sys2Proof.Machine
end

