-- ==== Sys2Proof/Certificates/Slice0/Obligations.lean ====
section
/-! DEFINITION. The statements about the machine, for the provers. -/

section

open Sys2Proof Sys2Proof.Machine

/-! The CRC accumulator (40_crc.md). -/

/-- R102: CRC.SEED and its word. -/
def Obligations.CrcSeedLoadsTheSeed : Prop :=
  decode .control 0x01000000#32 = .ok .crcSeed ∧
  ∀ s : State, exec .crcSeed s = .next { s with acc := 0x1D0F#16, lastErr := 0x00#8 }

/-- R103: CRC.LOAD, its words, and the words of its opcode that are illegal. -/
def Obligations.CrcLoadLoadsItsOperand : Prop :=
  (∀ (v : Half) (s : State),
    decode .control (0x02000000#32 ||| v.setWidth 32) = .ok (.crcLoad v) ∧
    exec (.crcLoad v) s = .next { s with acc := v, lastErr := 0x00#8 }) ∧
  ∀ w : Word, w.extractLsb' 24 8 = 0x02#8 → w.extractLsb' 16 8 ≠ 0#8 → decode .control w = .error .illegalCommand

/-- R104: CRC.UPD, its words, its corner cases and example, and the words of its opcode that are illegal. -/
def Obligations.CrcUpdateFoldsOneByte : Prop :=
  (∀ (b : Byte) (s : State),
    decode .control (0x03000000#32 ||| b.setWidth 32) = .ok (.crcUpd b) ∧
    exec (.crcUpd b) s = .next { s with acc := crcUpdate s.acc b, lastErr := 0x00#8 }) ∧
  crcUpdate 0x0000#16 0x00#8 = 0x0000#16 ∧ crcUpdate 0x8000#16 0x00#8 = 0x9188#16 ∧
  crcUpdate 0xFFFF#16 0xFF#8 = 0xFF00#16 ∧ crcUpdate 0x1D0F#16 0x01#8 = 0xDCBD#16 ∧
  ∀ w : Word, w.extractLsb' 24 8 = 0x03#8 → w.extractLsb' 8 16 ≠ 0#16 → decode .control w = .error .illegalCommand

/-- R105, R106: CRC.RD and CRC.RDC. -/
def Obligations.CrcReadsReturnTheAccumulator : Prop :=
  decode .control 0x04000000#32 = .ok .crcRd ∧ decode .control 0x05000000#32 = .ok .crcRdc ∧
  ∀ s : State,
    exec .crcRd s = .next { s with result := 0#16 ++ s.acc, lastErr := 0x00#8 } ∧
    exec .crcRdc s = .next { s with result := 0#16 ++ (s.acc ^^^ 0xFFFF#16), lastErr := 0x00#8 }

/-- The spec's own inference in R101: `crc_update` is linear over GF(2). -/
def Obligations.CrcUpdateIsLinear : Prop :=
  (∀ (a b : Half) (x y : Byte), crcUpdate (a ^^^ b) (x ^^^ y) = crcUpdate a x ^^^ crcUpdate b y) ∧
  crcUpdate 0x0000#16 0x00#8 = 0x0000#16

/-- What R100 and R2 call the polynomial 0x1021, most significant bit first: over GF(2), the updated accumulator is the
remainder of `crc * x^8 + byte * x^16` by `x^16 + x^12 + x^5 + 1`. -/
def Obligations.CrcUpdateIsPolynomialRemainder : Prop :=
  ∀ (crc : Half) (b : Byte), ∃ q : Polynomial (ZMod 2),
    (∑ i ∈ Finset.range 16, if crc.getLsbD i then Polynomial.X ^ i else 0) * Polynomial.X ^ 8
      + (∑ i ∈ Finset.range 8, if b.getLsbD i then Polynomial.X ^ i else 0) * Polynomial.X ^ 16
    = q * (Polynomial.X ^ 16 + Polynomial.X ^ 12 + Polynomial.X ^ 5 + 1)
      + ∑ i ∈ Finset.range 16, if (crcUpdate crc b).getLsbD i then Polynomial.X ^ i else 0

/-- The spec's own inference in R107: framing, then verifying with the CRC commands, always succeeds. -/
def Obligations.FramedPacketsVerify : Prop :=
  ∀ (s : State) (packet : List Byte) (len : Nat) (hi lo : Byte),
    s.Inv → s.pktValid = true → s.pktLen = 8 + len → s.pkt.readBlock 0 s.pktLen = some packet →
    s.pkt.read (6 + len) = some hi → s.pkt.read (7 + len) = some lo →
    ∃ t, runCommands ([.crcSeed] ++ ((packet.drop 5).take (1 + len)).map .crcUpd ++ [.crcRdc]) s = .next t ∧
      t.result = (hi.setWidth 32 <<< 8) ||| lo.setWidth 32

/-- The spec's own inference in R108: folding the two CRC bytes as well leaves 0x1D0F. -/
def Obligations.PacketResidueIsConstant : Prop :=
  ∀ (s : State) (packet : List Byte),
    s.Inv → s.pktValid = true → s.pkt.readBlock 0 s.pktLen = some packet →
    runCommands ([.crcSeed] ++ (packet.drop 5).map .crcUpd) s = .next { s with acc := 0x1D0F#16, lastErr := 0x00#8 }

/-! The packet framer (41_framer.md). -/

/-- R123: PAY.WR, its words, and its effect on every index. -/
def Obligations.PayloadWriteStoresOneByte : Prop :=
  (∀ idx b : Byte,
    decode .control (0x10000000#32 ||| (idx.setWidth 32 <<< 8) ||| b.setWidth 32) = .ok (.payWr idx.toNat b)) ∧
  (∀ (idx : Nat) (b : Byte) (s : State), idx ≤ 254 →
    ∃ t, exec (.payWr idx b) s = .next t ∧ t.pay.read idx = some b ∧ t.payW idx = true ∧
      (∀ a, a ≠ idx → t.pay.read a = s.pay.read a ∧ t.payW a = s.payW a) ∧
      t = { s with pay := t.pay, lastErr := 0x00#8 }) ∧
  ∀ (idx : Nat) (b : Byte) (s : State), 254 < idx →
    exec (.payWr idx b) s = .next { s with lastErr := 0x04#8, sticky := true }

/-- R120, R121, R122, R124: FRM.BUILD, its words, and that it makes the packet of the first `L` payload bytes and changes
nothing else. -/
def Obligations.FrameBuildMakesThePacket : Prop :=
  (∀ len : Half, decode .control (0x11000000#32 ||| len.setWidth 32) = .ok (.frmBuild len.toNat)) ∧
  (∀ (len : Nat) (s : State), len ≤ 255 → (∀ i < len, s.payW i = true) →
    ∃ (t : State) (payload : List Byte) (f : Half), exec (.frmBuild len) s = .next t ∧
      payload.length = len ∧ (∀ i < len, s.pay.read i = payload[i]?) ∧
      f = (payload.foldl crcUpdate (crcUpdate 0x1D0F#16 (BitVec.ofNat 8 len))) ^^^ 0xFFFF#16 ∧
      t.pkt.read 0 = some 0xAA#8 ∧ t.pkt.read 1 = some 0xAA#8 ∧ t.pkt.read 2 = some 0xAA#8 ∧
      t.pkt.read 3 = some 0x2D#8 ∧ t.pkt.read 4 = some 0xAA#8 ∧ t.pkt.read 5 = some (BitVec.ofNat 8 len) ∧
      (∀ i < len, t.pkt.read (6 + i) = s.pay.read i) ∧
      t.pkt.read (6 + len) = some (f.extractLsb' 8 8) ∧ t.pkt.read (7 + len) = some (f.extractLsb' 0 8) ∧
      (∀ a, 8 + len ≤ a → t.pkt.read a = s.pkt.read a) ∧
      t = { s with pkt := t.pkt, pktLen := 8 + len, pktValid := true, result := BitVec.ofNat 32 (8 + len),
                   lastErr := 0x00#8 }) ∧
  (∀ (len : Nat) (s : State), 255 < len →
    exec (.frmBuild len) s = .next { s with lastErr := 0x03#8, sticky := true }) ∧
  (∀ (len i : Nat) (s : State), len ≤ 255 → i < len → s.payW i = false →
    exec (.frmBuild len) s = .next { s with lastErr := 0x05#8, sticky := true }) ∧
  crcUpdate 0x1D0F#16 0x00#8 ^^^ 0xFFFF#16 = 0x3363#16

/-- R130: PKT.RD and its words. -/
def Obligations.PacketReadReturnsOneByte : Prop :=
  (∀ j : Half, decode .control (0x12000000#32 ||| j.setWidth 32) = .ok (.pktRd j.toNat)) ∧
  (∀ (j : Nat) (s : State), s.Inv → s.pktValid = true → j < s.pktLen →
    ∃ b, s.pkt.read j = some b ∧ exec (.pktRd j) s = .next { s with result := b.setWidth 32, lastErr := 0x00#8 }) ∧
  (∀ (j : Nat) (s : State), s.pktValid = false →
    exec (.pktRd j) s = .next { s with lastErr := 0x06#8, sticky := true }) ∧
  ∀ (j : Nat) (s : State), s.pktValid = true → s.pktLen ≤ j →
    exec (.pktRd j) s = .next { s with lastErr := 0x04#8, sticky := true }

/-! The filter and its arithmetic (42_fir.md, 43_synth.md section 1). -/

/-- R150: `fadd`, `fsub`, `fmul` and `fdiv` of finite numbers round the exact result to nearest, ties to even. What the
operations mean is IEEE 754-2008, which the spec names as general knowledge (log 7, log 8). -/
def Obligations.ArithmeticRoundsToNearestEven : Prop :=
  (∀ (s t : Bool) (e e' : Fin 2047) (f f' : BitVec 52),
    (F64.fin s e f).units + (F64.fin t e' f').units ≠ 0 →
    RoundsTo (decide ((F64.fin s e f).units + (F64.fin t e' f').units < 0))
      ((F64.fin s e f).units + (F64.fin t e' f').units).natAbs 1 (F64.fadd (.fin s e f) (.fin t e' f'))) ∧
  (∀ (s t : Bool) (e e' : Fin 2047) (f f' : BitVec 52),
    (F64.fin s e f).units - (F64.fin t e' f').units ≠ 0 →
    RoundsTo (decide ((F64.fin s e f).units - (F64.fin t e' f').units < 0))
      ((F64.fin s e f).units - (F64.fin t e' f').units).natAbs 1 (F64.fsub (.fin s e f) (.fin t e' f'))) ∧
  (∀ (s t : Bool) (e e' : Fin 2047) (f f' : BitVec 52),
    RoundsTo (s ^^ t) (F64.mag e f * F64.mag e' f') (2 ^ 1074) (F64.fmul (.fin s e f) (.fin t e' f'))) ∧
  ∀ (s t : Bool) (e e' : Fin 2047) (f f' : BitVec 52), F64.mag e' f' ≠ 0 →
    RoundsTo (s ^^ t) (F64.mag e f * 2 ^ 1074) (F64.mag e' f') (F64.fdiv (.fin s e f) (.fin t e' f'))

/-- R150: exact zero sums and differences, NaN, infinities and division by zero, as IEEE 754-2008 says (log 7). -/
def Obligations.ArithmeticSpecialValues : Prop :=
  (∀ (s t : Bool) (e e' : Fin 2047) (f f' : BitVec 52), (F64.fin s e f).units + (F64.fin t e' f').units = 0 →
    F64.fadd (.fin s e f) (.fin t e' f') = .fin (s && t) 0 0#52) ∧
  (∀ (s t : Bool) (e e' : Fin 2047) (f f' : BitVec 52), (F64.fin s e f).units - (F64.fin t e' f').units = 0 →
    F64.fsub (.fin s e f) (.fin t e' f') = .fin (s && !t) 0 0#52) ∧
  (∀ x : F64, F64.fadd .nan x = .nan ∧ F64.fadd x .nan = .nan ∧ F64.fmul .nan x = .nan ∧ F64.fmul x .nan = .nan ∧
    F64.fdiv .nan x = .nan ∧ F64.fdiv x .nan = .nan ∧ F64.fsub .nan x = .nan ∧ F64.fsub x .nan = .nan) ∧
  (∀ s t : Bool, F64.fadd (.inf s) (.inf t) = (if s = t then .inf s else .nan) ∧
    F64.fsub (.inf s) (.inf t) = (if s = t then .nan else .inf s) ∧
    F64.fmul (.inf s) (.inf t) = .inf (s ^^ t) ∧ F64.fdiv (.inf s) (.inf t) = .nan) ∧
  (∀ (s t : Bool) (e : Fin 2047) (f : BitVec 52),
    F64.fadd (.inf s) (.fin t e f) = .inf s ∧ F64.fadd (.fin t e f) (.inf s) = .inf s ∧
    F64.fsub (.inf s) (.fin t e f) = .inf s ∧ F64.fsub (.fin t e f) (.inf s) = .inf (!s) ∧
    F64.fmul (.inf s) (.fin t e f) = (if F64.mag e f = 0 then .nan else .inf (s ^^ t)) ∧
    F64.fmul (.fin t e f) (.inf s) = (if F64.mag e f = 0 then .nan else .inf (t ^^ s)) ∧
    F64.fdiv (.inf s) (.fin t e f) = .inf (s ^^ t) ∧ F64.fdiv (.fin t e f) (.inf s) = .fin (t ^^ s) 0 0#52) ∧
  ∀ (s t : Bool) (e e' : Fin 2047) (f f' : BitVec 52), F64.mag e' f' = 0 →
    F64.fdiv (.fin s e f) (.fin t e' f') = (if F64.mag e f = 0 then .nan else .inf (s ^^ t))

/-- R142, with the weights of R141: the shift and the insert come first, then the sum, slot by slot from +0.0. -/
def Obligations.FilterShiftsThenSums : Prop :=
  ∀ (coef : Vector F64 8) (hist : Vector F64 16) (x : F64),
    (∀ k : Fin 16, (firStep coef hist x).2[k] = if hk : k.val < 15 then hist[k.val + 1] else x) ∧
    (firStep coef hist x).1 =
      [(hist[1], coef[0]), (hist[2], coef[1]), (hist[3], coef[2]), (hist[4], coef[3]), (hist[5], coef[4]),
       (hist[6], coef[5]), (hist[7], coef[6]), (hist[8], coef[7]), (hist[9], coef[7]), (hist[10], coef[6]),
       (hist[11], coef[5]), (hist[12], coef[4]), (hist[13], coef[3]), (hist[14], coef[2]), (hist[15], coef[1]),
       (x, coef[0])].foldl (fun y p => F64.fadd y (F64.fmul p.1 p.2)) F64.posZero

/-- The spec's own inference in R148: the impulse response is the stored coefficients, then their mirror, then 0. Every
output is finite. A coefficient -0.0 gives an output +0.0 (R149), so the values of the finite outputs are compared, not the
signs of zeros. -/
def Obligations.FilterImpulseResponse : Prop :=
  ∀ (coef : Vector F64 8) (n : Nat), (∀ k : Fin 8, coef[k].isFinite = true) →
    (∀ y ∈ firOutputs coef (Vector.replicate 16 F64.posZero) (F64.one :: List.replicate (15 + n) F64.posZero),
      y.isFinite = true) ∧
    (firOutputs coef (Vector.replicate 16 F64.posZero) (F64.one :: List.replicate (15 + n) F64.posZero)).map F64.units =
      [coef[0], coef[1], coef[2], coef[3], coef[4], coef[5], coef[6], coef[7],
       coef[7], coef[6], coef[5], coef[4], coef[3], coef[2], coef[1], coef[0]].map F64.units ++ List.replicate n 0

/-- The spec's own inference in R149: the filter never outputs -0.0, and either zero quantizes to 0. -/
def Obligations.FilterNeverOutputsNegativeZero : Prop :=
  (∀ (coef : Vector F64 8) (hist : Vector F64 16) (x : F64), (firStep coef hist x).1 ≠ .fin true 0 0#52) ∧
  ∀ s : Bool, q8 (.fin s 0 0#52) = some 0

/-- The spec's own inferences in R146, R147 and R159: with normalized coefficients and inputs of magnitude at most 1 the
output is finite, and the quantizer does not raise. -/
def Obligations.FilterOutputIsQuantizable : Prop :=
  ∀ (coef : Vector F64 8) (hist : Vector F64 16) (x : F64), coefNormalized coef = true →
    (∀ k : Fin 16, hist[k].absLeOne = true) → x.absLeOne = true →
    (firStep coef hist x).1.isFinite = true ∧ ∃ t, q8 (firStep coef hist x).1 = some t ∧ -127 ≤ t ∧ t ≤ 127

/-- R159: multiply by 127.0, truncate toward zero, raise outside [-127, 127]. -/
def Obligations.QuantizerTruncatesTowardZero : Prop :=
  (∀ y, F64.fmul y (F64.ofBits 0x405FC00000000000#64) = .nan → q8 y = none) ∧
  (∀ (y : F64) (s : Bool) (e : Fin 2047) (f : BitVec 52) (t : Nat),
    F64.fmul y (F64.ofBits 0x405FC00000000000#64) = .fin s e f →
    t * 2 ^ 1074 ≤ F64.mag e f → F64.mag e f < (t + 1) * 2 ^ 1074 →
    q8 y = if t ≤ 127 then some (if s then -(t : Int) else t) else none) ∧
  q8 (F64.ofBits 0x3FF0000000000000#64) = some 127 ∧ q8 (F64.ofBits 0x3FE0000000000000#64) = some 63 ∧
  q8 (F64.ofBits 0xBFE0000000000000#64) = some (-63) ∧ q8 (F64.ofBits 0x3FB0000000000000#64) = some 7 ∧
  q8 (F64.ofBits 0x8000000000000000#64) = some 0 ∧ q8 (F64.ofBits 0x3FF0205BC01A36E3#64) = none

/-! The synthesizer (43_synth.md). -/

/-- R153, R154: the phase step is +0.0 when DEV_HZ = 0 and never negative, and this hardware's sample rate, phase step and
silence lengths are the spec's numbers. -/
def Obligations.PhaseStepAndSilenceLengths : Prop :=
  (∀ c : Cfg, c.Valid → c.devHz < 2 ^ 53 → c.sr < 2 ^ 53 →
    (∃ e f, phaseStep c = .fin false e f) ∧ (c.devHz = 0 → phaseStep c = F64.posZero)) ∧
  Config.hw.sr = 2000000 ∧ phaseStep Config.hw = F64.ofBits 0x3FA34D4C48E89552#64 ∧
  Config.hw.leadIn = 125000 ∧ Config.hw.leadOut = 500000

/-- R155: the length of every waveform, under any valid configuration. -/
def Obligations.WaveformLengthIsExact : Prop :=
  (∀ (c : Cfg) (packet bytes : List Byte) (o : Osc), synthesize c packet = some (bytes, o) →
    bytes.length = 2 * (c.bitrate * c.sps / 16 + 8 * packet.length * c.sps + c.bitrate * c.sps / 4)) ∧
  ∀ (c : Cfg) (s t : State), synRunWith c s = .next t → t.lastErr = 0x00#8 →
    t.wlen = 2 * (c.bitrate * c.sps / 16 + 8 * s.pktLen * c.sps + c.bitrate * c.sps / 4)

/-- R160, with R53, R59, R142, R144, R145, R154, R157, R158 and R159: SYN.RUN with this hardware's configuration (log 15),
from any state in which the stream is not busy and there is a packet, writes the silent lead-in, the two samples of every
packet sample pair, and the silent lead-out, whatever the OPEN parameters are (log 9, log 10), and nothing else changes.
That it succeeds for every packet is R159's own inference. That WAVE beyond WLEN is as before is the model's reading
(log 20; U14 leaves it open). -/
def Obligations.SynRunSynthesizesThePacket : Prop :=
  ∀ (s : State) (packet : List Byte), s.Inv → s.streamBusy = false → s.pktValid = true →
    s.pkt.readBlock 0 s.pktLen = some packet →
    ∃ t, exec .synRun s = .next t ∧
      t.wlen = 2 * (125000 + 8 * s.pktLen * 1000 + 500000) ∧
      (∀ a < 250000, t.wave.read a = some 0x00#8) ∧
      (∀ n < 8 * s.pktLen * 1000, ∃ ti tq : Int,
        sampleValue Config.hw packet Config.cos64 n = some ti ∧ sampleValue Config.hw packet Config.sin64 n = some tq ∧
        t.wave.read (2 * (125000 + n)) = some (BitVec.ofInt 8 ti) ∧
        t.wave.read (2 * (125000 + n) + 1) = some (BitVec.ofInt 8 tq)) ∧
      (∀ a, 250000 + 16000 * s.pktLen ≤ a → a < t.wlen → t.wave.read a = some 0x00#8) ∧
      (∀ a, t.wlen ≤ a → t.wave.read a = s.wave.read a) ∧
      t.phase = samplePhase Config.hw packet (8 * s.pktLen * 1000) ∧
      t.histI = sampleHistory Config.hw packet Config.cos64 (8 * s.pktLen * 1000 - 1) ∧
      t.histQ = sampleHistory Config.hw packet Config.sin64 (8 * s.pktLen * 1000 - 1) ∧
      t = { s with wave := t.wave, wlen := t.wlen, wavValid := true, histI := t.histI, histQ := t.histQ,
                   phase := t.phase, result := BitVec.ofNat 32 t.wlen, lastErr := 0x00#8 }

/-- Steps 2 to 4 of R160, with R53, R59, R142, R144, R145, R154, R157, R158 and R159: under any configuration a complete
synthesis is the silent lead-in, the two samples of every packet sample pair, and the silent lead-out, and the effective
bit of a sample (`sampleBit`) chooses the sign of its phase increment (`samplePhase`). -/
def Obligations.SynthesisWritesEverySample : Prop :=
  ∀ (c : Cfg) (packet bytes : List Byte) (o : Osc), 1 ≤ c.sps → synthesize c packet = some (bytes, o) →
    (∀ a < 2 * c.leadIn, bytes[a]? = some 0x00#8) ∧
    (∀ n < 8 * packet.length * c.sps, ∃ ti tq : Int,
      sampleValue c packet c.cos64 n = some ti ∧ sampleValue c packet c.sin64 n = some tq ∧
      bytes[2 * (c.leadIn + n)]? = some (BitVec.ofInt 8 ti) ∧ bytes[2 * (c.leadIn + n) + 1]? = some (BitVec.ofInt 8 tq)) ∧
    (∀ a, 2 * (c.leadIn + 8 * packet.length * c.sps) ≤ a → a < bytes.length → bytes[a]? = some 0x00#8) ∧
    o.phase = samplePhase c packet (8 * packet.length * c.sps)

/-- R160: the three errors of SYN.RUN that are raised before anything is written, in their order, under any valid
configuration; under an invalid one the command is refused (R9, U8; log 22). -/
def Obligations.SynRunRaisesBeforeWriting : Prop :=
  (∀ (c : Cfg) (s : State), c.Valid →
    (s.streamBusy = true → synRunWith c s = .next { s with lastErr := 0x09#8, sticky := true }) ∧
    (s.streamBusy = false → s.pktValid = false → synRunWith c s = .next { s with lastErr := 0x06#8, sticky := true }) ∧
    (s.streamBusy = false → s.pktValid = true → c.waveCap < 2 * c.pairs s.pktLen →
      synRunWith c s = .next { s with lastErr := 0x07#8, sticky := true })) ∧
  (∀ (c : Cfg) (s : State), ¬c.Valid → synRunWith c s = .refused .invalidConfiguration) ∧
  ∀ s : State, exec .synRun s = synRunWith Config.hw s

/-- R156: the capacity check, under any valid configuration, and that it cannot fail on this hardware. -/
def Obligations.CapacityCheckOnlyForOtherConfigurations : Prop :=
  (∀ (c : Cfg) (s : State), c.Valid → s.streamBusy = false → s.pktValid = true →
    c.waveCap < 2 * (c.bitrate * c.sps / 16 + 8 * s.pktLen * c.sps + c.bitrate * c.sps / 4) →
    synRunWith c s = .next { s with lastErr := 0x07#8, sticky := true }) ∧
  ∀ s t : State, s.Inv → exec .synRun s = .next t → t.lastErr ≠ 0x07#8

/-- R160: AmplitudeOverflow, under any valid configuration: no waveform, RESULT unchanged, the stream untouched. The WAVE
bytes have no value; HIST_I, HIST_Q and PHASE are free values (log 11), of which nothing is said. This hardware's SYN.RUN
never raises it (the spec's own inference in R159). -/
def Obligations.AmplitudeOverflowDropsTheWaveform : Prop :=
  (∀ (c : Cfg) (s : State) (packet : List Byte), c.Valid → s.streamBusy = false → s.pktValid = true →
    2 * c.pairs s.pktLen ≤ c.waveCap → s.pkt.readBlock 0 s.pktLen = some packet → synthesize c packet = none →
    ∃ t, synRunWith c s = .next t ∧ (∀ a, t.wave.read a = none) ∧
      t = { s with wave := t.wave, wlen := 0, wavValid := false, histI := t.histI, histQ := t.histQ, phase := t.phase,
                   freeCount := t.freeCount, lastErr := 0x08#8, sticky := true }) ∧
  ∀ s t : State, s.Inv → exec .synRun s = .next t → t.lastErr ≠ 0x08#8

/-- R54: every byte of a valid waveform is the two's complement byte of a sample in [-127, 127], so 0x80 never occurs
(the last clause is the spec's own inference). -/
def Obligations.WaveformBytesAreSamples : Prop :=
  ∀ (s : State) (i : Nat), s.Inv → s.wavValid = true → i < s.wlen →
    ∃ (b : Byte) (t : Int), s.wave.read i = some b ∧ -127 ≤ t ∧ t ≤ 127 ∧
      (b.toNat : Int) = (if 0 ≤ t then t else t + 256) ∧ b ≠ 0x80#8

/-- The spec's own inference in R161 and R241: the waveform depends on the packet only, and later PAY.WR and FRM.BUILD
leave it. -/
def Obligations.WaveformDependsOnPacketOnly : Prop :=
  (∀ s1 s2 : State, s1.Inv → s2.Inv → s1.streamBusy = false → s2.streamBusy = false →
    s1.pktValid = true → s2.pktValid = true → s1.pktLen = s2.pktLen →
    (∀ j < s1.pktLen, s1.pkt.read j = s2.pkt.read j) →
    ∃ t1 t2, exec .synRun s1 = .next t1 ∧ exec .synRun s2 = .next t2 ∧ t1.wlen = t2.wlen ∧ t1.result = t2.result ∧
      ∀ i < t1.wlen, t1.wave.read i = t2.wave.read i) ∧
  (∀ (idx : Nat) (b : Byte) (s t : State), exec (.payWr idx b) s = .next t →
    t.wave = s.wave ∧ t.wlen = s.wlen ∧ t.wavValid = s.wavValid) ∧
  ∀ (len : Nat) (s t : State), exec (.frmBuild len) s = .next t →
    t.wave = s.wave ∧ t.wlen = s.wlen ∧ t.wavValid = s.wavValid

/-- The spec's own inference in R41: HIST_I, HIST_Q and PHASE between commands never affect anything else. -/
def Obligations.FilterStateIsUnobservable : Prop :=
  ∀ (i : Instr) (s t : State) (hi hq : Vector F64 16) (ph : F64), exec i s = .next t →
    ∃ hi' hq' ph', exec i { s with histI := hi, histQ := hq, phase := ph } =
      .next { t with histI := hi', histQ := hq', phase := ph' }

/-- R163: WAV.RD and its words. -/
def Obligations.WaveReadReturnsOneByte : Prop :=
  (∀ i : BitVec 24, decode .control (0x21000000#32 ||| i.setWidth 32) = .ok (.wavRd i.toNat)) ∧
  (∀ (i : Nat) (s : State), s.Inv → s.wavValid = true → i < s.wlen →
    ∃ b, s.wave.read i = some b ∧ exec (.wavRd i) s = .next { s with result := b.setWidth 32, lastErr := 0x00#8 }) ∧
  (∀ (i : Nat) (s : State), s.wavValid = false →
    exec (.wavRd i) s = .next { s with lastErr := 0x0B#8, sticky := true }) ∧
  ∀ (i : Nat) (s : State), s.wavValid = true → s.wlen ≤ i →
    exec (.wavRd i) s = .next { s with lastErr := 0x04#8, sticky := true }

/-! The FIFO (44_fifo.md). -/

/-- R183: FIFO.ARM and its word, which is legal on the control port only. -/
def Obligations.FifoArmStartsAStream : Prop :=
  decode .control 0x30000000#32 = .ok .fifoArm ∧ decode .sink 0x30000000#32 = .error .wrongPort ∧
  (∀ s : State, (s.fifoState = .idle ∨ s.fifoState = .done) → s.wavValid = true →
    exec .fifoArm s = .next { s with pos := 0, rem := s.wlen, armed := true, lastErr := 0x00#8 }) ∧
  (∀ s : State, (s.fifoState = .streaming ∨ s.fifoState = .draining) →
    exec .fifoArm s = .next { s with lastErr := 0x0A#8, sticky := true }) ∧
  ∀ s : State, (s.fifoState = .idle ∨ s.fifoState = .done) → s.wavValid = false →
    exec .fifoArm s = .next { s with lastErr := 0x0B#8, sticky := true }

/-- R186, R60: FIFO.FILL in Streaming, byte by byte. -/
def Obligations.FillStreamingDeliversBytesInOrder : Prop :=
  ∀ (n : Nat) (s : State), s.Inv → s.fifoState = .streaming →
    ∃ data : List Byte, data.length = n ∧
      (∀ j < n, (j : Int) < s.rem → s.wave.read (s.pos + j) = data[j]?) ∧
      (∀ j < n, s.rem ≤ j → data[j]? = some 0x00#8) ∧
      exec (.fifoFill n) s = .next { s with
        pos := s.pos + (min (n : Int) s.rem).toNat
        rem := s.rem - min (n : Int) s.rem
        sinkErr := 0x00#8
        answer := some (.sink ⟨if s.rem < n then .filledWithPadding else .filled, false, some data⟩) }

/-- R187, R188, R189: FIFO.FILL in Draining, in Done and in Idle. -/
def Obligations.FillOutsideStreaming : Prop :=
  ∀ (n : Nat) (s : State),
    (s.fifoState = .draining → exec (.fifoFill n) s = .next { s with
      rem := -1
      sinkErr := 0x00#8
      answer := some (.sink ⟨.streamEnded, false, some (List.replicate n 0x00#8)⟩) }) ∧
    (s.fifoState = .done → exec (.fifoFill n) s = .next { s with
      sinkErr := 0x00#8
      answer := some (.sink ⟨.allSamplesSent, true, none⟩) }) ∧
    (s.fifoState = .idle → exec (.fifoFill n) s = .next { s with
      sinkErr := 0x0C#8
      sticky := true
      answer := some (.sink ⟨.faulted, true, none⟩) }) ∧
    (s.Inv → s.fifoState = .draining → s.pos = s.wlen)

/-- R180: the FIFO's transitions, event by event; every other command keeps the FIFO state. -/
def Obligations.FifoTransitionsAreExactlyThese : Prop :=
  ∀ s : State, s.Inv →
    (∀ rest, s.inputs = .reset :: rest → ∃ t, step s = .next t ∧ t.fifoState = .idle) ∧
    (∀ t, exec .fifoArm s = .next t → t.lastErr = 0x00#8 →
      (s.fifoState = .idle ∨ s.fifoState = .done) ∧ t.fifoState = .streaming) ∧
    (∀ n, ∃ t, exec (.fifoFill n) s = .next t ∧
      (s.fifoState = .streaming → 0 < t.rem → t.fifoState = .streaming) ∧
      (s.fifoState = .streaming → t.rem = 0 → t.fifoState = .draining) ∧
      (s.fifoState = .streaming → 0 ≤ t.rem) ∧
      (s.fifoState = .draining → t.fifoState = .done) ∧
      (s.fifoState = .done → t.fifoState = .done) ∧
      (s.fifoState = .idle → t.fifoState = .idle ∧ t.sinkErr = 0x0C#8)) ∧
    ∀ i t, exec i s = .next t → (∀ n, i ≠ .fifoFill n) → (i = .fifoArm → t.lastErr ≠ 0x00#8) →
      t.fifoState = s.fifoState

/-- The spec's own inference in R193: from FIFO.ARM on, requests of any sizes that pass WLEN at the request `m` are answered
Filled, then Filled or FilledWithPadding, then StreamEnded with silence, then AllSamplesSent for ever, and the bytes
driven before StreamEnded are the waveform followed by the padding. -/
def Obligations.StreamDeliversTheWaveform : Prop :=
  ∀ (s : State) (ns : List Nat) (m e : Nat) (more : List Nat), s.Inv → s.streamBusy = false → s.wavValid = true →
    ns.sum < s.wlen → s.wlen ≤ ns.sum + m →
    ∃ a, exec .fifoArm s = .next a ∧
    ∃ (early : List SinkResponse) (full : SinkResponse) (w : List Byte) (t : State),
      runFills (ns ++ m :: e :: more) a =
        some (early ++ full :: ⟨.streamEnded, false, some (List.replicate e 0x00#8)⟩
          :: more.map (fun _ => ⟨.allSamplesSent, true, none⟩), t) ∧
      early.length = ns.length ∧ (∀ r ∈ early, r.result = .filled ∧ r.stop = false) ∧
      full.result = (if ns.sum + m = s.wlen then .filled else .filledWithPadding) ∧ full.stop = false ∧
      s.wave.readBlock 0 s.wlen = some w ∧
      drivenBytes (early ++ [full]) = w ++ List.replicate (ns.sum + m - s.wlen) 0x00#8 ∧
      t.fifoState = .done ∧ t.pos = s.wlen

/-! Encoding (30_encoding.md). -/

/-- R77: a word spells a command exactly when `w AND mask = match`, on the command's port. -/
def Obligations.MatchAndMaskSelectTheCommand : Prop :=
  ∀ w : Word,
    (decode .control w = .ok .crcSeed ↔ w &&& 0xFFFFFFFF#32 = 0x01000000#32) ∧
    (decode .control w = .ok (.crcLoad (w.extractLsb' 0 16)) ↔ w &&& 0xFFFF0000#32 = 0x02000000#32) ∧
    (decode .control w = .ok (.crcUpd (w.extractLsb' 0 8)) ↔ w &&& 0xFFFFFF00#32 = 0x03000000#32) ∧
    (decode .control w = .ok .crcRd ↔ w &&& 0xFFFFFFFF#32 = 0x04000000#32) ∧
    (decode .control w = .ok .crcRdc ↔ w &&& 0xFFFFFFFF#32 = 0x05000000#32) ∧
    (decode .control w = .ok (.payWr (w.extractLsb' 8 8).toNat (w.extractLsb' 0 8)) ↔
      w &&& 0xFFFF0000#32 = 0x10000000#32) ∧
    (decode .control w = .ok (.frmBuild (w.extractLsb' 0 16).toNat) ↔ w &&& 0xFFFF0000#32 = 0x11000000#32) ∧
    (decode .control w = .ok (.pktRd (w.extractLsb' 0 16).toNat) ↔ w &&& 0xFFFF0000#32 = 0x12000000#32) ∧
    (decode .control w = .ok .synRun ↔ w &&& 0xFFFFFFFF#32 = 0x20000000#32) ∧
    (decode .control w = .ok (.wavRd (w.extractLsb' 0 24).toNat) ↔ w &&& 0xFF000000#32 = 0x21000000#32) ∧
    (decode .control w = .ok .fifoArm ↔ w &&& 0xFFFFFFFF#32 = 0x30000000#32) ∧
    (decode .sink w = .ok (.fifoFill (w.extractLsb' 0 24).toNat) ↔ w &&& 0xFF000000#32 = 0x31000000#32)

/-- Decoding the word of a well-formed command gives the command back, on its port, and a wrong-port error on the other. -/
def Obligations.DecodeInvertsEncode : Prop :=
  ∀ i : Instr, i.WellFormed →
    decode i.port (encode i) = .ok i ∧ ∀ p, p ≠ i.port → decode p (encode i) = .error .wrongPort

/-- Every word that decodes is the word of the command it decodes to: no two words spell one command, and no bit of a
word is dropped. -/
def Obligations.EncodeInvertsDecode : Prop :=
  ∀ (p : Port) (w : Word) (i : Instr), decode p w = .ok i → i.WellFormed ∧ i.port = p ∧ encode i = w

/-- The words of R83 and of R77's first column, written out. -/
def Obligations.ExampleWordsDecode : Prop :=
  decode .control 0x01000000#32 = .ok .crcSeed ∧ decode .control 0x0200FFFF#32 = .ok (.crcLoad 0xFFFF#16) ∧
  decode .control 0x03000041#32 = .ok (.crcUpd 0x41#8) ∧ decode .control 0x10000041#32 = .ok (.payWr 0 0x41#8) ∧
  decode .control 0x11000001#32 = .ok (.frmBuild 1) ∧ decode .control 0x11000100#32 = .ok (.frmBuild 256) ∧
  decode .control 0x20000000#32 = .ok .synRun ∧ decode .control 0x211545E9#32 = .ok (.wavRd 0x1545E9) ∧
  decode .control 0x30000000#32 = .ok .fifoArm ∧ decode .sink 0x31040000#32 = .ok (.fifoFill 262144)

/-- R78: a reserved opcode, on either port. -/
def Obligations.ReservedOpcodesAreIllegal : Prop :=
  ∀ (w : Word) (s : State) (rest : List PortEvent),
    w.extractLsb' 24 8 ∉ [0x01#8, 0x02#8, 0x03#8, 0x04#8, 0x05#8, 0x10#8, 0x11#8, 0x12#8, 0x20#8, 0x21#8, 0x30#8, 0x31#8] →
    step { s with inputs := .ctlWrite 0x0 4 w :: rest } =
      .next { s with inputs := rest, answer := none, lastErr := 0x01#8, sticky := true } ∧
    step { s with inputs := .sinkRequest w :: rest } =
      .next { s with inputs := rest, sinkErr := 0x01#8, sticky := true,
                     answer := some (.sink ⟨.faulted, true, none⟩) }

/-- R79: reserved operand bits that are not all 0, on the opcode's own port. -/
def Obligations.ReservedBitsAreIllegal : Prop :=
  ∀ (w : Word) (s : State) (rest : List PortEvent),
    (w.extractLsb' 24 8 ∈ [0x01#8, 0x04#8, 0x05#8, 0x20#8, 0x30#8] ∧ w.extractLsb' 0 24 ≠ 0#24 ∨
      w.extractLsb' 24 8 = 0x03#8 ∧ w.extractLsb' 8 16 ≠ 0#16 ∨
      w.extractLsb' 24 8 ∈ [0x02#8, 0x10#8, 0x11#8, 0x12#8] ∧ w.extractLsb' 16 8 ≠ 0#8) →
    step { s with inputs := .ctlWrite 0x0 4 w :: rest } =
      .next { s with inputs := rest, answer := none, lastErr := 0x01#8, sticky := true }

/-- R210: a command on the other port. -/
def Obligations.WrongPortHasNoOtherEffect : Prop :=
  ∀ (w : Word) (s : State) (rest : List PortEvent),
    (w.extractLsb' 24 8 = 0x31#8 →
      step { s with inputs := .ctlWrite 0x0 4 w :: rest } =
        .next { s with inputs := rest, answer := none, lastErr := 0x02#8, sticky := true }) ∧
    (w.extractLsb' 24 8 ∈ [0x01#8, 0x02#8, 0x03#8, 0x04#8, 0x05#8, 0x10#8, 0x11#8, 0x12#8, 0x20#8, 0x21#8, 0x30#8] →
      step { s with inputs := .sinkRequest w :: rest } =
        .next { s with inputs := rest, sinkErr := 0x02#8, sticky := true,
                       answer := some (.sink ⟨.faulted, true, none⟩) })

/-- R206: when several errors apply, which one is reported: the opcode, then the port, then the reserved bits, then each
command's own checks in order. -/
def Obligations.FirstErrorIsReported : Prop :=
  (∀ (p : Port) (w : Word), rowOf (w.extractLsb' 24 8) = none → decode p w = .error .illegalCommand) ∧
  (∀ (p : Port) (w : Word) (r : OpRow), rowOf (w.extractLsb' 24 8) = some r → r.port ≠ p →
    decode p w = .error .wrongPort) ∧
  (∀ (p : Port) (w : Word) (r : OpRow), rowOf (w.extractLsb' 24 8) = some r → r.port = p → w &&& r.mask ≠ r.pattern →
    decode p w = .error .illegalCommand) ∧
  ∀ s t : State,
    (∀ len, exec (.frmBuild len) s = .next t → 255 < len → t.lastErr = 0x03#8) ∧
    (∀ len, exec (.frmBuild len) s = .next t → len ≤ 255 → (∃ i < len, s.payW i = false) → t.lastErr = 0x05#8) ∧
    (∀ j, exec (.pktRd j) s = .next t → s.pktValid = false → t.lastErr = 0x06#8) ∧
    (∀ j, exec (.pktRd j) s = .next t → s.pktValid = true → s.pktLen ≤ j → t.lastErr = 0x04#8) ∧
    (∀ c, synRunWith c s = .next t → s.streamBusy = true → t.lastErr = 0x09#8) ∧
    (∀ c, synRunWith c s = .next t → s.streamBusy = false → s.pktValid = false → t.lastErr = 0x06#8) ∧
    (∀ c, synRunWith c s = .next t → s.streamBusy = false → s.pktValid = true → c.waveCap < 2 * c.pairs s.pktLen →
      t.lastErr = 0x07#8) ∧
    (∀ c packet, synRunWith c s = .next t → s.streamBusy = false → s.pktValid = true →
      2 * c.pairs s.pktLen ≤ c.waveCap → s.pkt.readBlock 0 s.pktLen = some packet → synthesize c packet = none →
      t.lastErr = 0x08#8) ∧
    (∀ i, exec (.wavRd i) s = .next t → s.wavValid = false → t.lastErr = 0x0B#8) ∧
    (∀ i, exec (.wavRd i) s = .next t → s.wavValid = true → s.wlen ≤ i → t.lastErr = 0x04#8) ∧
    (exec .fifoArm s = .next t → s.streamBusy = true → t.lastErr = 0x0A#8) ∧
    (exec .fifoArm s = .next t → s.streamBusy = false → s.wavValid = false → t.lastErr = 0x0B#8)

/-- R81: the assembler's words, by the formulas of its table, its operand counts and its operand limits. The assembler is
the model's function outside the step, over a mnemonic and numbers (log 19). -/
def Obligations.AssemblerFollowsItsTable : Prop :=
  assemble "CRC.SEED" [] = some .crcSeed ∧ assemble "CRC.RD" [] = some .crcRd ∧ assemble "CRC.RDC" [] = some .crcRdc ∧
  assemble "SYN.RUN" [] = some .synRun ∧ assemble "FIFO.ARM" [] = some .fifoArm ∧
  (∀ m ∈ ["CRC.SEED", "CRC.RD", "CRC.RDC", "SYN.RUN", "FIFO.ARM"], ∀ ns : List Nat, ns.length ≠ 0 →
    assemble m ns = none) ∧
  (∀ m ∈ ["CRC.LOAD", "CRC.UPD", "FRM.BUILD", "PKT.RD", "WAV.RD", "FIFO.FILL"], ∀ ns : List Nat, ns.length ≠ 1 →
    assemble m ns = none) ∧
  (∀ ns : List Nat, ns.length ≠ 2 → assemble "PAY.WR" ns = none) ∧
  (∀ n, assemble "CRC.LOAD" [n] = if n ≤ 0xFFFF then some (.crcLoad (BitVec.ofNat 16 n)) else none) ∧
  (∀ n, assemble "CRC.UPD" [n] = if n ≤ 0xFF then some (.crcUpd (BitVec.ofNat 8 n)) else none) ∧
  (∀ k n, assemble "PAY.WR" [k, n] = if k ≤ 0xFF ∧ n ≤ 0xFF then some (.payWr k (BitVec.ofNat 8 n)) else none) ∧
  (∀ n, assemble "FRM.BUILD" [n] = if n ≤ 0xFFFF then some (.frmBuild n) else none) ∧
  (∀ n, assemble "PKT.RD" [n] = if n ≤ 0xFFFF then some (.pktRd n) else none) ∧
  (∀ n, assemble "WAV.RD" [n] = if n ≤ 0xFFFFFF then some (.wavRd n) else none) ∧
  (∀ n, assemble "FIFO.FILL" [n] = if n ≤ 0xFFFFFF then some (.fifoFill n) else none) ∧
  (∀ (m : String) (ns : List Nat) (i : Instr), assemble m ns = some i → i.WellFormed) ∧
  (∀ n, n ≤ 0xFFFF →
    (encode (.crcLoad (BitVec.ofNat 16 n))).toNat = (0x02 <<< 24) ||| n ∧
    (encode (.frmBuild n)).toNat = (0x11 <<< 24) ||| n ∧ (encode (.pktRd n)).toNat = (0x12 <<< 24) ||| n) ∧
  (∀ k n, k ≤ 0xFF → n ≤ 0xFF →
    (encode (.crcUpd (BitVec.ofNat 8 n))).toNat = (0x03 <<< 24) ||| n ∧
    (encode (.payWr k (BitVec.ofNat 8 n))).toNat = (0x10 <<< 24) ||| (k <<< 8) ||| n) ∧
  (∀ n, n ≤ 0xFFFFFF →
    (encode (.wavRd n)).toNat = (0x21 <<< 24) ||| n ∧ (encode (.fifoFill n)).toNat = (0x31 <<< 24) ||| n) ∧
  encode .crcSeed = 0x01000000#32 ∧ encode .crcRd = 0x04000000#32 ∧ encode .crcRdc = 0x05000000#32 ∧
  encode .synRun = 0x20000000#32 ∧ encode .fifoArm = 0x30000000#32

/-- `SEND` of R82 (`send` is the model's form of it, a function outside the step: log 19) runs the transmission of R233:
from any state of the invariant in which no stream is busy, the payload is in PAY, its packet in PKT, its waveform in WAVE,
and the stream is armed at its first byte, with no error. -/
def Obligations.SendStartsATransmission : Prop :=
  ∀ (s : State) (payload : List Byte), s.Inv → s.streamBusy = false → payload.length ≤ 255 →
    ∃ (is : List Instr) (t : State) (bytes : List Byte) (o : Osc),
      send payload = some is ∧ runCommands is s = .next t ∧
      (∀ i < payload.length, t.pay.read i = payload[i]?) ∧
      t.pktValid = true ∧ t.pktLen = 8 + payload.length ∧ t.pkt.readBlock 0 t.pktLen = some (packetBytes payload) ∧
      synthesize Config.hw (packetBytes payload) = some (bytes, o) ∧
      t.wavValid = true ∧ t.wlen = bytes.length ∧ t.wave.readBlock 0 t.wlen = some bytes ∧
      t.fifoState = .streaming ∧ t.pos = 0 ∧ t.rem = t.wlen ∧ t.lastErr = 0x00#8 ∧ t.sticky = s.sticky

/-! Ports, reset and reporting (20_memory.md, 60_exceptions.md, 70_reset_and_hazards.md). -/

/-- A step runs the decoded command: a write of CMD runs the command the control port decodes, a sink request the command
the sink port decodes, with the event taken from `inputs` and nothing driven yet. R39: the configuration is a parameter of
the step relation; R9, R232: it must be valid, and under an invalid one every step and every command is refused (U8;
log 22). Of the valid configurations SYN.RUN alone reads which one it is, so that a step which issues no SYN.RUN does the
same under each, and `exec` and `step` are the relation at this hardware's, which is valid (log 15). With no event pending
a step does nothing and drives nothing (the model's choice, log 2). -/
def Obligations.StepRunsTheDecodedCommand : Prop :=
  (∀ (c : Cfg) (s : State) (rest : List PortEvent) (w : Word) (i : Instr), c.Valid →
    (s.inputs = .ctlWrite 0x0 4 w :: rest → decode .control w = .ok i →
      stepWith c s = execWith c i { s with inputs := rest, answer := none }) ∧
    (s.inputs = .sinkRequest w :: rest → decode .sink w = .ok i →
      stepWith c s = execWith c i { s with inputs := rest, answer := none })) ∧
  (∀ (c : Cfg) (s : State), c.Valid →
    execWith c .synRun s = synRunWith c s ∧ (∀ i, i ≠ .synRun → execWith c i s = exec i s) ∧
    ((∀ w rest, s.inputs = .ctlWrite 0x0 4 w :: rest → decode .control w ≠ .ok .synRun) → stepWith c s = step s)) ∧
  (∀ (c : Cfg) (i : Instr) (s : State), ¬c.Valid →
    stepWith c s = .refused .invalidConfiguration ∧ execWith c i s = .refused .invalidConfiguration) ∧
  Config.hw.Valid ∧ stepWith Config.hw = step ∧ execWith Config.hw = exec ∧
  (∀ (s : State) (rest : List PortEvent) (w : Word) (i : Instr),
    (s.inputs = .ctlWrite 0x0 4 w :: rest → decode .control w = .ok i →
      step s = exec i { s with inputs := rest, answer := none }) ∧
    (s.inputs = .sinkRequest w :: rest → decode .sink w = .ok i →
      step s = exec i { s with inputs := rest, answer := none })) ∧
  ∀ s : State, s.inputs = [] → step s = .next { s with answer := none }

/-- R55, R57: a write of CMD issues the command it spells, and the reads of RESULT and STATUS have no side effect. -/
def Obligations.ControlPortWindow : Prop :=
  ∀ (s : State) (rest : List PortEvent),
    (∀ w i, decode .control w = .ok i →
      step { s with inputs := .ctlWrite 0x0 4 w :: rest } = exec i { s with inputs := rest, answer := none }) ∧
    step { s with inputs := .ctlRead 0x4 4 :: rest } =
      .next { s with inputs := rest, answer := some (.value s.result) } ∧
    step { s with inputs := .ctlRead 0x8 4 :: rest } =
      .next { s with inputs := rest, answer := some (.value s.statusWord) }

/-- R34: the fields of STATUS, and R32: the state that FIFO_STATE encodes, a function of ARMED and REM. -/
def Obligations.StatusFieldsAreAssembled : Prop :=
  ∀ s : State,
    s.statusWord.extractLsb' 0 8 = s.lastErr ∧ s.statusWord.extractLsb' 8 8 = s.sinkErr ∧
    s.statusWord.getLsbD 16 = s.sticky ∧
    s.statusWord.extractLsb' 17 2 = (match s.fifoState with
      | .idle => 0#2
      | .streaming => 1#2
      | .draining => 2#2
      | .done => 3#2) ∧
    (s.fifoState = .idle ↔ s.armed = false) ∧ (s.fifoState = .streaming ↔ s.armed = true ∧ 0 < s.rem) ∧
    (s.fifoState = .draining ↔ s.armed = true ∧ s.rem = 0) ∧ (s.fifoState = .done ↔ s.armed = true ∧ s.rem < 0) ∧
    s.statusWord.getLsbD 19 = s.pktValid ∧ s.statusWord.getLsbD 20 = s.wavValid ∧
    s.statusWord.extractLsb' 21 11 = 0#11

/-- R56: exactly the accesses that are no transaction are refused, and nothing else is. -/
def Obligations.OnlyNonTransactionsAreRefused : Prop :=
  ∀ (s : State) (ev : PortEvent) (rest : List PortEvent), s.inputs = ev :: rest →
    ((∃ r, step s = .refused r) ↔
      (∃ offset bytes w, ev = .ctlWrite offset bytes w ∧ ¬(offset = 0x0 ∧ bytes = 4)) ∨
      ∃ offset bytes, ev = .ctlRead offset bytes ∧ ¬((offset = 0x4 ∨ offset = 0x8) ∧ bytes = 4))

/-- R230, R40: the reset event, and the state after it. Nothing is said of the pending events and the count of free values,
which are the model's own (log 16). -/
def Obligations.ResetPutsEveryRegisterToItsValue : Prop :=
  (∀ (s : State) (rest : List PortEvent), s.inputs = .reset :: rest →
    ∃ t, step s = .next t ∧ t = { State.reset with inputs := t.inputs, freeCount := t.freeCount }) ∧
  State.reset.acc = 0x1D0F#16 ∧ (∀ i, State.reset.payW i = false) ∧ State.reset.pktLen = 8 ∧
  State.reset.pktValid = false ∧ (∀ k : Fin 16, State.reset.histI[k] = F64.posZero) ∧
  (∀ k : Fin 16, State.reset.histQ[k] = F64.posZero) ∧ State.reset.phase = F64.posZero ∧ State.reset.wlen = 0 ∧
  State.reset.wavValid = false ∧ State.reset.armed = false ∧ State.reset.pos = 0 ∧ State.reset.rem = 0 ∧
  State.reset.result = 0x00000000#32 ∧ State.reset.lastErr = 0x00#8 ∧ State.reset.sinkErr = 0x00#8 ∧
  State.reset.sticky = false

/-- R203: what a control-port word does to LAST_ERR, STICKY and RESULT, and that a fault writes nothing else, but for
AmplitudeOverflow. -/
def Obligations.ControlFaultWritesOnlyItsCode : Prop :=
  ∀ (s t : State) (w : Word) (rest : List PortEvent), s.inputs = .ctlWrite 0x0 4 w :: rest → step s = .next t →
    (t.lastErr = 0x00#8 → t.sticky = s.sticky) ∧
    (t.lastErr ≠ 0x00#8 → t.sticky = true ∧ t.result = s.result) ∧
    (t.lastErr ≠ 0x00#8 → t.lastErr ≠ 0x08#8 →
      t = { s with inputs := rest, answer := none, lastErr := t.lastErr, sticky := true })

/-- R204: what a sink request does, and that it never touches the control side. -/
def Obligations.SinkNeverTouchesTheControlSide : Prop :=
  ∀ (s t : State) (w : Word) (rest : List PortEvent), s.inputs = .sinkRequest w :: rest → step s = .next t →
    t = { s with inputs := rest, pos := t.pos, rem := t.rem, sinkErr := t.sinkErr, sticky := t.sticky,
                 answer := t.answer } ∧
    (t.sinkErr = 0x00#8 → t.sticky = s.sticky) ∧
    (t.sinkErr ≠ 0x00#8 → t = { s with inputs := rest, sinkErr := t.sinkErr, sticky := true,
                                       answer := some (.sink ⟨.faulted, true, none⟩) })

/-- R37, R205: STICKY is set by every fault of either port and by nothing else, and only reset clears it. -/
def Obligations.StickyRecordsEveryFault : Prop :=
  ∀ (s t : State) (ev : PortEvent) (rest : List PortEvent), s.inputs = ev :: rest → step s = .next t →
    match ev with
    | .ctlWrite _ _ _ => t.sticky = (s.sticky || t.lastErr != 0x00#8)
    | .sinkRequest _ => t.sticky = (s.sticky || t.sinkErr != 0x00#8)
    | .ctlRead _ _ => t.sticky = s.sticky
    | .reset => t.sticky = false

/-- R33: which commands write RESULT, over whole steps. -/
def Obligations.OnlyValueCommandsWriteResult : Prop :=
  ∀ (s t : State) (i : Instr), exec i s = .next t →
    (∀ len j n, i ≠ .crcRd ∧ i ≠ .crcRdc ∧ i ≠ .frmBuild len ∧ i ≠ .pktRd j ∧ i ≠ .synRun ∧ i ≠ .wavRd n) ∨
      t.lastErr ≠ 0x00#8 →
    t.result = s.result

/-- R23: the commands that write ACC and the commands that read it, and that no other command does either. -/
def Obligations.OnlyCrcCommandsUseTheAccumulator : Prop :=
  (∀ (s : State) (v : Half) (b : Byte),
    (∃ t, exec .crcSeed s = .next t ∧ t.acc = 0x1D0F#16) ∧ (∃ t, exec (.crcLoad v) s = .next t ∧ t.acc = v) ∧
    (∃ t, exec (.crcUpd b) s = .next t ∧ t.acc = crcUpdate s.acc b) ∧
    (∃ t, exec .crcRd s = .next t ∧ t.acc = s.acc ∧ t.result = s.acc.setWidth 32) ∧
    ∃ t, exec .crcRdc s = .next t ∧ t.acc = s.acc ∧ t.result = (~~~s.acc).setWidth 32) ∧
  (∀ (i : Instr) (s t : State) (v : Half), exec i s = .next t →
    (∀ imm b, i ≠ .crcSeed ∧ i ≠ .crcLoad imm ∧ i ≠ .crcUpd b ∧ i ≠ .crcRd ∧ i ≠ .crcRdc) →
    t.acc = s.acc ∧ exec i { s with acc := v } = .next { t with acc := v }) ∧
  State.reset.acc = 0x1D0F#16

/-- R126, R125: only a successful FRM.BUILD changes the packet; a faulting one leaves it as it was. -/
def Obligations.OnlyFrameBuildChangesThePacket : Prop :=
  ∀ (i : Instr) (s t : State), exec i s = .next t →
    (∀ len, i = .frmBuild len → t.lastErr ≠ 0x00#8) → t.pkt = s.pkt ∧ t.pktLen = s.pktLen ∧ t.pktValid = s.pktValid

/-- The frames of all commands by owner: which command may change which piece of state (R23, R25, R26, R27, R28, R30, R31,
R33, R35, R36, R37). The pending events `inputs` (log 1), what is driven, `answer` (log 4), and the count of free values
`freeCount` (log 11) are the model's own fields. -/
def Obligations.EveryRegisterHasItsOwner : Prop :=
  ∀ (i : Instr) (s t : State), exec i s = .next t →
    ((∀ imm b, i ≠ .crcSeed ∧ i ≠ .crcLoad imm ∧ i ≠ .crcUpd b) → t.acc = s.acc) ∧
    ((∀ idx b, i ≠ .payWr idx b) → t.pay = s.pay) ∧
    ((∀ len, i ≠ .frmBuild len) → t.pkt = s.pkt ∧ t.pktLen = s.pktLen ∧ t.pktValid = s.pktValid) ∧
    (i ≠ .synRun → t.histI = s.histI ∧ t.histQ = s.histQ ∧ t.phase = s.phase ∧ t.wave = s.wave ∧ t.wlen = s.wlen ∧
      t.wavValid = s.wavValid ∧ t.freeCount = s.freeCount) ∧
    (i ≠ .fifoArm → t.armed = s.armed) ∧
    (i ≠ .fifoArm → (∀ n, i ≠ .fifoFill n) → t.pos = s.pos ∧ t.rem = s.rem) ∧
    ((∀ len j n, i ≠ .crcRd ∧ i ≠ .crcRdc ∧ i ≠ .frmBuild len ∧ i ≠ .pktRd j ∧ i ≠ .synRun ∧ i ≠ .wavRd n) →
      t.result = s.result) ∧
    ((∀ n, i ≠ .fifoFill n) → t.sinkErr = s.sinkErr ∧ t.answer = s.answer ∧
      t.sticky = (s.sticky || t.lastErr != 0x00#8)) ∧
    (∀ n, i = .fifoFill n → t.lastErr = s.lastErr ∧ t.sticky = (s.sticky || t.sinkErr != 0x00#8)) ∧
    t.inputs = s.inputs

/-- The spec's own inference in R66 and R240, with R67: while the stream is busy nothing but a sink request or reset changes
the waveform or the cursor. -/
def Obligations.BusyStreamIsFrozen : Prop :=
  ∀ (s t : State), s.streamBusy = true → step s = .next t →
    ((∀ rest, s.inputs ≠ .reset :: rest) → t.wave = s.wave ∧ t.wlen = s.wlen ∧ t.wavValid = s.wavValid) ∧
    ((∀ rest, s.inputs ≠ .reset :: rest) → (∀ w rest, s.inputs ≠ .sinkRequest w :: rest) →
      t.pos = s.pos ∧ t.rem = s.rem ∧ t.armed = s.armed)

/-! The invariant. -/

/-- The reset state has the invariant, under every configuration. -/
def Obligations.ResetHasTheInvariant : Prop := ∀ c : Cfg, State.reset.InvWith c

/-- Every step keeps the invariant, from any state that has it, under every configuration; `step` is the step of this
hardware's. In Done nothing is claimed of the cursor but that POS is at most WAVE_CAP (log 14). -/
def Obligations.StepKeepsTheInvariant : Prop :=
  (∀ (c : Cfg) (s t : State), s.InvWith c → stepWith c s = .next t → t.InvWith c) ∧
  ∀ s t : State, s.Inv → step s = .next t → t.Inv

/-- From any state that has the invariant no step faults, and every transaction completes, under every valid
configuration (R80: decoding is total; R207: a fault does not trap). -/
def Obligations.EveryTransactionCompletes : Prop :=
  (∀ (c : Cfg) (s : State), c.Valid → s.InvWith c →
    (∀ ev rest, s.inputs = ev :: rest → ev.isTransaction = true) → ∃ t, stepWith c s = .next t) ∧
  ∀ s : State, s.Inv → (∀ ev rest, s.inputs = ev :: rest → ev.isTransaction = true) → ∃ t, step s = .next t

end
end

