-- ==== Sys2Proof/Laws/Decode.lean ====
section
/-! SUPPORT. Words by their bits: the opcode and the operand fields of the word of each format. -/

namespace Sys2Proof

/-- A placed field, bit by bit. -/
theorem getLsbD_place {n : Nat} (v : BitVec n) (lo i : Nat) :
    (place v lo).getLsbD i = (decide (i < 32) && decide (lo ≤ i) && v.getLsbD (i - lo)) := by
  unfold place
  rw [BitVec.getLsbD_shiftLeft, BitVec.getLsbD_setWidth]
  by_cases h1 : i < 32
  · have h3 : i - lo < 32 := by omega
    by_cases h2 : lo ≤ i
    · have h4 : ¬ i < lo := by omega
      simp [h1, h2, h3, h4]
    · have h4 : i < lo := by omega
      simp [h1, h2, h3, h4]
  · simp [h1]

/-- A field read where it was placed. -/
theorem extract_place_self {n : Nat} (v : BitVec n) (lo : Nat) (h : lo + n ≤ 32) : (place v lo).extractLsb' lo n = v := by
  apply BitVec.eq_of_getLsbD_eq
  intro i hi
  rw [BitVec.getLsbD_extractLsb', getLsbD_place]
  have h1 : lo + i < 32 := by omega
  simp [hi, h1]

/-- A field read where another one was placed is 0. -/
theorem extract_place_other {n : Nat} (v : BitVec n) (lo at' w : Nat) (h : lo + n ≤ at' ∨ at' + w ≤ lo) :
    (place v lo).extractLsb' at' w = 0#w := by
  apply BitVec.eq_of_getLsbD_eq
  intro i hi
  rw [BitVec.getLsbD_extractLsb', getLsbD_place]
  rcases h with h | h
  · have h1 : v.getLsbD (at' + i - lo) = false := BitVec.getLsbD_of_ge v _ (by omega)
    simp [h1]
  · have h1 : ¬ lo ≤ at' + i := by omega
    simp [h1]

theorem extract_or (u v : Word) (a w : Nat) : (u ||| v).extractLsb' a w = u.extractLsb' a w ||| v.extractLsb' a w :=
  BitVec.extractLsb'_or

/-! The opcode of each format's word (R70 to R75). -/

theorem opOf_encodeN (op : BitVec 8) : opOf (encodeN op) = op :=
  extract_place_self op 24 (by omega)

theorem opOf_encodeB8 (op : BitVec 8) (b : Byte) : opOf (encodeB8 op b) = op := by
  rw [opOf, encodeB8, extract_or, extract_place_self op 24 (by omega), extract_place_other b 0 24 8 (by omega)]
  simp

theorem opOf_encodeI16 (op : BitVec 8) (v : Half) : opOf (encodeI16 op v) = op := by
  rw [opOf, encodeI16, extract_or, extract_place_self op 24 (by omega), extract_place_other v 0 24 8 (by omega)]
  simp

theorem opOf_encodeIB (op idx : BitVec 8) (b : Byte) : opOf (encodeIB op idx b) = op := by
  rw [opOf, encodeIB, extract_or, extract_or, extract_place_self op 24 (by omega),
    extract_place_other idx 8 24 8 (by omega), extract_place_other b 0 24 8 (by omega)]
  simp

theorem opOf_encodeU24 (op : BitVec 8) (u : BitVec 24) : opOf (encodeU24 op u) = op := by
  rw [opOf, encodeU24, extract_or, extract_place_self op 24 (by omega), extract_place_other u 0 24 8 (by omega)]
  simp

/-! The operand fields of each format's word. -/

theorem fieldB_encodeB8 (op : BitVec 8) (b : Byte) : fieldB (encodeB8 op b) = b := by
  rw [fieldB, encodeB8, extract_or, extract_place_other op 24 0 8 (by omega), extract_place_self b 0 (by omega)]
  simp

theorem fieldImm16_encodeI16 (op : BitVec 8) (v : Half) : fieldImm16 (encodeI16 op v) = v := by
  rw [fieldImm16, encodeI16, extract_or, extract_place_other op 24 0 16 (by omega), extract_place_self v 0 (by omega)]
  simp

theorem fieldB_encodeIB (op idx : BitVec 8) (b : Byte) : fieldB (encodeIB op idx b) = b := by
  rw [fieldB, encodeIB, extract_or, extract_or, extract_place_other op 24 0 8 (by omega),
    extract_place_other idx 8 0 8 (by omega), extract_place_self b 0 (by omega)]
  simp

theorem fieldIdx_encodeIB (op idx : BitVec 8) (b : Byte) : fieldIdx (encodeIB op idx b) = idx := by
  rw [fieldIdx, encodeIB, extract_or, extract_or, extract_place_other op 24 8 8 (by omega),
    extract_place_self idx 8 (by omega), extract_place_other b 0 8 8 (by omega)]
  simp

theorem fieldU24_encodeU24 (op : BitVec 8) (u : BitVec 24) : fieldU24 (encodeU24 op u) = u := by
  rw [fieldU24, encodeU24, extract_or, extract_place_other op 24 0 24 (by omega), extract_place_self u 0 (by omega)]
  simp

/-! Match and mask. -/

/-- A word meets a row's match and mask (R77) exactly when its opcode is the row's and its reserved bits, from bit `k` up to
bit 23, are 0. -/
theorem and_mask_eq (w : Word) (op : BitVec 8) (k : Nat) (hk : k ≤ 24) (mask : Word)
    (hmask : ∀ i < 32, mask.getLsbD i = decide (k ≤ i)) :
    w &&& mask = place op 24 ↔ w.extractLsb' 24 8 = op ∧ w.extractLsb' k (24 - k) = 0#(24 - k) := by
  constructor
  · intro h
    have hb : ∀ i, i < 32 → k ≤ i → w.getLsbD i = (place op 24).getLsbD i := by
      intro i hi hki
      rw [← h, BitVec.getLsbD_and, hmask i hi]; simp [hki]
    constructor
    · apply BitVec.eq_of_getLsbD_eq
      intro i hi
      rw [BitVec.getLsbD_extractLsb', hb _ (by omega) (by omega), getLsbD_place]
      simp [hi]; omega
    · apply BitVec.eq_of_getLsbD_eq
      intro i hi
      rw [BitVec.getLsbD_extractLsb', hb _ (by omega) (by omega), getLsbD_place]
      have : ¬ 24 ≤ k + i := by omega
      simp [this]
  · rintro ⟨h1, h2⟩
    apply BitVec.eq_of_getLsbD_eq
    intro i hi
    rw [BitVec.getLsbD_and, hmask i hi, getLsbD_place]
    by_cases h3 : 24 ≤ i
    · have := congrArg (fun v : BitVec 8 => v.getLsbD (i - 24)) h1
      simp only [BitVec.getLsbD_extractLsb'] at this
      rw [show 24 + (i - 24) = i by omega] at this
      have h5 : i - 24 < 8 := by omega
      have h6 : k ≤ i := by omega
      simp [h5] at this
      rw [BitVec.getLsbD_eq_getElem h5, ← this]
      simp [h3, h6, hi]
    · by_cases h4 : k ≤ i
      · have := congrArg (fun v : BitVec (24 - k) => v.getLsbD (i - k)) h2
        simp only [BitVec.getLsbD_extractLsb'] at this
        rw [show k + (i - k) = i by omega] at this
        have h5 : i - k < 24 - k := by omega
        simp [h5] at this
        simp [h3, this]
      · simp [h3, h4]

/-- A word is its opcode and its low field, when the bits between them are 0. -/
theorem place_extract (w : Word) (k : Nat) (hk : k ≤ 24) (h : w.extractLsb' k (24 - k) = 0#(24 - k)) :
    place (w.extractLsb' 24 8) 24 ||| place (w.extractLsb' 0 k) 0 = w := by
  apply BitVec.eq_of_getLsbD_eq
  intro i hi
  rw [BitVec.getLsbD_or, getLsbD_place, getLsbD_place, BitVec.getLsbD_extractLsb', BitVec.getLsbD_extractLsb']
  by_cases h3 : 24 ≤ i
  · have h4 : ¬ i < k := by omega
    have h5 : 24 + (i - 24) = i := by omega
    have h6 : i - 24 < 8 := by omega
    simp [hi, h3, h4, h5, h6]
  · by_cases h4 : k ≤ i
    · have h5 := congrArg (fun v : BitVec (24 - k) => v.getLsbD (i - k)) h
      simp only [BitVec.getLsbD_extractLsb', show k + (i - k) = i by omega] at h5
      have h6 : i - k < 24 - k := by omega
      have h7 : ¬ i < k := by omega
      simp [h6] at h5
      simp [h3, h7, h5]
    · have h7 : i < k := by omega
      simp [h3, h7, hi]

/-! Match and mask of every row of R77. -/

theorem mask_crcSeed (w : Word) :
    w &&& 0xFFFFFFFF#32 = 0x01000000#32 ↔ opOf w = 0x01#8 ∧ w.extractLsb' 0 24 = 0#24 :=
  and_mask_eq w 0x01#8 0 (by omega) 0xFFFFFFFF#32 (by decide)

theorem mask_crcLoad (w : Word) :
    w &&& 0xFFFF0000#32 = 0x02000000#32 ↔ opOf w = 0x02#8 ∧ w.extractLsb' 16 8 = 0#8 :=
  and_mask_eq w 0x02#8 16 (by omega) 0xFFFF0000#32 (by decide)

theorem mask_crcUpd (w : Word) :
    w &&& 0xFFFFFF00#32 = 0x03000000#32 ↔ opOf w = 0x03#8 ∧ w.extractLsb' 8 16 = 0#16 :=
  and_mask_eq w 0x03#8 8 (by omega) 0xFFFFFF00#32 (by decide)

theorem mask_crcRd (w : Word) :
    w &&& 0xFFFFFFFF#32 = 0x04000000#32 ↔ opOf w = 0x04#8 ∧ w.extractLsb' 0 24 = 0#24 :=
  and_mask_eq w 0x04#8 0 (by omega) 0xFFFFFFFF#32 (by decide)

theorem mask_crcRdc (w : Word) :
    w &&& 0xFFFFFFFF#32 = 0x05000000#32 ↔ opOf w = 0x05#8 ∧ w.extractLsb' 0 24 = 0#24 :=
  and_mask_eq w 0x05#8 0 (by omega) 0xFFFFFFFF#32 (by decide)

theorem mask_payWr (w : Word) :
    w &&& 0xFFFF0000#32 = 0x10000000#32 ↔ opOf w = 0x10#8 ∧ w.extractLsb' 16 8 = 0#8 :=
  and_mask_eq w 0x10#8 16 (by omega) 0xFFFF0000#32 (by decide)

theorem mask_frmBuild (w : Word) :
    w &&& 0xFFFF0000#32 = 0x11000000#32 ↔ opOf w = 0x11#8 ∧ w.extractLsb' 16 8 = 0#8 :=
  and_mask_eq w 0x11#8 16 (by omega) 0xFFFF0000#32 (by decide)

theorem mask_pktRd (w : Word) :
    w &&& 0xFFFF0000#32 = 0x12000000#32 ↔ opOf w = 0x12#8 ∧ w.extractLsb' 16 8 = 0#8 :=
  and_mask_eq w 0x12#8 16 (by omega) 0xFFFF0000#32 (by decide)

theorem mask_synRun (w : Word) :
    w &&& 0xFFFFFFFF#32 = 0x20000000#32 ↔ opOf w = 0x20#8 ∧ w.extractLsb' 0 24 = 0#24 :=
  and_mask_eq w 0x20#8 0 (by omega) 0xFFFFFFFF#32 (by decide)

theorem mask_wavRd (w : Word) :
    w &&& 0xFF000000#32 = 0x21000000#32 ↔ opOf w = 0x21#8 ∧ w.extractLsb' 24 0 = 0#0 :=
  and_mask_eq w 0x21#8 24 (by omega) 0xFF000000#32 (by decide)

theorem mask_fifoArm (w : Word) :
    w &&& 0xFFFFFFFF#32 = 0x30000000#32 ↔ opOf w = 0x30#8 ∧ w.extractLsb' 0 24 = 0#24 :=
  and_mask_eq w 0x30#8 0 (by omega) 0xFFFFFFFF#32 (by decide)

theorem mask_fifoFill (w : Word) :
    w &&& 0xFF000000#32 = 0x31000000#32 ↔ opOf w = 0x31#8 ∧ w.extractLsb' 24 0 = 0#0 :=
  and_mask_eq w 0x31#8 24 (by omega) 0xFF000000#32 (by decide)

/-! The opcode map. -/

theorem rowOf_mem {r : OpRow} (h : r ∈ opTable) : rowOf r.op = some r := by
  simp only [opTable, List.mem_cons, List.not_mem_nil, or_false] at h
  rcases h with rfl | rfl | rfl | rfl | rfl | rfl | rfl | rfl | rfl | rfl | rfl | rfl <;> rfl

theorem rowOf_eq_some {op : BitVec 8} {r : OpRow} : rowOf op = some r ↔ r ∈ opTable ∧ r.op = op := by
  constructor
  · intro h
    exact ⟨List.mem_of_find?_eq_some h, by simpa using List.find?_some h⟩
  · rintro ⟨h, rfl⟩
    exact rowOf_mem h

theorem rowOf_eq_none {op : BitVec 8} : rowOf op = none ↔ ∀ r ∈ opTable, r.op ≠ op := by
  simp [rowOf, List.find?_eq_none]

/-- Everything decoding can answer (R80). -/
theorem decode_eq_ok {p : Port} {w : Word} {i : Instr} :
    decode p w = .ok i ↔ ∃ r ∈ opTable, r.op = opOf w ∧ r.port = p ∧ w &&& r.mask = r.pattern ∧ r.read w = i := by
  constructor
  · intro h
    unfold decode at h
    split at h
    · cases h
    · next r hr =>
      obtain ⟨hm, ho⟩ := rowOf_eq_some.mp hr
      split at h
      · cases h
      · next hp =>
        split at h
        · cases h
        · next hw => exact ⟨r, hm, ho, not_not.mp hp, not_not.mp hw, by cases h; rfl⟩
  · rintro ⟨r, hm, ho, rfl, hw, rfl⟩
    unfold decode
    rw [rowOf_eq_some.mpr ⟨hm, ho⟩]
    simp [hw]

theorem decode_reserved {p : Port} {w : Word} (h : ∀ r ∈ opTable, r.op ≠ opOf w) :
    decode p w = .error .illegalCommand := by
  unfold decode
  rw [rowOf_eq_none.mpr h]

theorem decode_wrongPort {p : Port} {w : Word} {r : OpRow} (hm : r ∈ opTable) (ho : r.op = opOf w) (hp : r.port ≠ p) :
    decode p w = .error .wrongPort := by
  unfold decode
  rw [rowOf_eq_some.mpr ⟨hm, ho⟩]
  simp [hp]

theorem decode_reservedBits {w : Word} {r : OpRow} (hm : r ∈ opTable) (ho : r.op = opOf w)
    (hw : w &&& r.mask ≠ r.pattern) : decode r.port w = .error .illegalCommand := by
  unfold decode
  rw [rowOf_eq_some.mpr ⟨hm, ho⟩]
  simp [hw]

end Sys2Proof
end

