-- ==== Sys2Proof/Laws/Memory.lean ====
section
/-! SUPPORT. What the byte-memory operations do: read after write, canonical form, block reads. -/

namespace Sys2Proof.Machine

/-! Reading one byte. -/

@[simp] theorem Memory.read_nil (a : Nat) : Memory.read [] a = none := rfl

theorem Memory.read_cons (x : Nat) (b : Byte) (m : Memory) (a : Nat) :
    Memory.read ((x, b) :: m) a = if x = a then some b else Memory.read m a := rfl

theorem Memory.read_append (m n : Memory) (a : Nat) :
    Memory.read (m ++ n) a = (Memory.read m a).or (Memory.read n a) := by
  induction m with
  | nil => simp
  | cons c m ih =>
    obtain ⟨x, b⟩ := c
    simp only [List.cons_append, Memory.read_cons]
    split <;> simp [ih]

/-- Filtering cells by address keeps exactly the addresses the filter accepts. -/
theorem Memory.read_filter (p : Nat → Bool) (m : Memory) (a : Nat) :
    Memory.read (m.filter fun c => p c.1) a = if p a then Memory.read m a else none := by
  induction m with
  | nil => simp
  | cons c m ih =>
    obtain ⟨x, b⟩ := c
    by_cases hx : p x
    · simp only [List.filter_cons, hx, if_true, Memory.read_cons, ih]
      by_cases hxa : x = a
      · subst hxa; simp [hx]
      · simp [hxa]
    · simp only [List.filter_cons, hx, Memory.read_cons]
      by_cases hxa : x = a
      · subst hxa; simp [hx, ih]
      · simp [hxa, ih]

theorem read_cellsFrom (a : Nat) (bs : List Byte) (x : Nat) :
    Memory.read (cellsFrom a bs) x = if a ≤ x then bs[x - a]? else none := by
  induction bs generalizing a with
  | nil => simp [cellsFrom]
  | cons b bs ih =>
    simp only [cellsFrom, Memory.read_cons, ih]
    by_cases h : a = x
    · subst h; simp
    · by_cases h' : a ≤ x
      · have h1 : a + 1 ≤ x := by omega
        have h2 : x - a = (x - (a + 1)) + 1 := by omega
        simp [h, h', h1, h2]
      · have h1 : ¬ a + 1 ≤ x := by omega
        simp [h, h', h1]

/-- A byte of the block reads back as stored, and every other address reads as before. -/
theorem Memory.read_writeBlock (m : Memory) (a : Nat) (bs : List Byte) (x : Nat) :
    (m.writeBlock a bs).read x = if a ≤ x ∧ x < a + bs.length then bs[x - a]? else m.read x := by
  unfold Memory.writeBlock
  rw [Memory.read_append, Memory.read_append, Memory.read_filter (fun y => decide (y < a)),
    Memory.read_filter (fun y => decide (a + bs.length ≤ y)), read_cellsFrom]
  by_cases h1 : x < a
  · have : ¬ a ≤ x := by omega
    simp only [h1, this, decide_true, if_true, if_false, false_and]
    have h2 : ¬ (a + bs.length ≤ x) := by omega
    cases m.read x <;> simp [h2]
  · have h1' : a ≤ x := by omega
    by_cases h2 : x < a + bs.length
    · have h3 : x - a < bs.length := by omega
      simp [h1, h1', h2, List.getElem?_eq_getElem h3]
    · have h3 : bs.length ≤ x - a := by omega
      have h4 : a + bs.length ≤ x := by omega
      simp [h1, h1', h2, h4, List.getElem?_eq_none h3]

@[simp] theorem Memory.read_write_self (m : Memory) (a : Nat) (b : Byte) : (m.write a b).read a = some b := by
  simp [Memory.write, Memory.read_writeBlock]

theorem Memory.read_write_other (m : Memory) {a x : Nat} (b : Byte) (h : x ≠ a) : (m.write a b).read x = m.read x := by
  rw [Memory.write, Memory.read_writeBlock, if_neg]
  simp only [List.length_singleton]
  omega

/-! The canonical form. -/

theorem cellsFrom_mem {a : Nat} {bs : List Byte} {c : Host.Cell} (h : c ∈ cellsFrom a bs) :
    a ≤ c.1 ∧ c.1 < a + bs.length := by
  induction bs generalizing a with
  | nil => simp [cellsFrom] at h
  | cons b bs ih =>
    simp only [cellsFrom, List.mem_cons] at h
    rcases h with rfl | h
    · simp
    · have := ih h
      simp only [List.length_cons]; omega

theorem wf_cellsFrom (a : Nat) (bs : List Byte) : Memory.wf (cellsFrom a bs) := by
  induction bs generalizing a with
  | nil => simp [cellsFrom]
  | cons b bs ih =>
    simp only [cellsFrom, Memory.wf, List.pairwise_cons]
    refine ⟨fun c hc => ?_, ih (a + 1)⟩
    have := cellsFrom_mem hc
    omega

/-- Every store keeps the canonical form. -/
theorem Memory.wf_writeBlock {m : Memory} (h : m.wf) (a : Nat) (bs : List Byte) : (m.writeBlock a bs).wf := by
  unfold Memory.writeBlock Memory.wf
  rw [List.pairwise_append, List.pairwise_append]
  refine ⟨⟨h.filter _, wf_cellsFrom a bs, ?_⟩, h.filter _, ?_⟩
  · intro c hc d hd
    have h1 := cellsFrom_mem hd
    simp only [List.mem_filter, decide_eq_true_eq] at hc
    omega
  · intro c hc d hd
    simp only [List.mem_filter, decide_eq_true_eq, List.mem_append] at hc hd
    rcases hc with hc | hc
    · omega
    · have := cellsFrom_mem hc
      omega

theorem Memory.wf_write {m : Memory} (h : m.wf) (a : Nat) (b : Byte) : (m.write a b).wf := Memory.wf_writeBlock h a [b]

theorem Memory.wf_nil : Memory.wf [] := List.Pairwise.nil

/-- Where the cells of a memory after a store can lie. -/
theorem Memory.mem_writeBlock {m : Memory} {a : Nat} {bs : List Byte} {c : Host.Cell} (h : c ∈ m.writeBlock a bs) :
    c ∈ m ∨ (a ≤ c.1 ∧ c.1 < a + bs.length) := by
  simp only [Memory.writeBlock, List.mem_append, List.mem_filter] at h
  rcases h with (h | h) | h
  · exact .inl h.1
  · exact .inr (cellsFrom_mem h)
  · exact .inl h.1

/-- Equal canonical memories are those that read alike. -/
theorem Memory.ext_of_wf {m n : Memory} (hm : m.wf) (hn : n.wf) (h : ∀ a, m.read a = n.read a) : m = n := by
  induction m generalizing n with
  | nil =>
    cases n with
    | nil => rfl
    | cons d n =>
      obtain ⟨y, v⟩ := d
      have := h y
      simp [Memory.read_cons] at this
  | cons c m ih =>
    obtain ⟨x, b⟩ := c
    rw [Memory.wf, List.pairwise_cons] at hm
    have below : ∀ {k : Memory} {y : Nat}, (∀ e ∈ k, y < e.1) → k.read y = none := by
      intro k y hk
      induction k with
      | nil => rfl
      | cons e k ihk =>
        obtain ⟨z, v⟩ := e
        have hz : y < z := hk (z, v) (by simp)
        rw [Memory.read_cons, if_neg (by omega)]
        exact ihk fun e he => hk e (by simp [he])
    cases n with
    | nil => have := h x; simp [Memory.read_cons] at this
    | cons d n =>
      obtain ⟨y, v⟩ := d
      rw [Memory.wf, List.pairwise_cons] at hn
      have hxy : x = y := by
        rcases Nat.lt_trichotomy x y with hlt | heq | hgt
        · have h1 := h x
          rw [Memory.read_cons, if_pos rfl, Memory.read_cons, if_neg (by omega),
            below fun e he => Nat.lt_trans hlt (hn.1 e he)] at h1
          cases h1
        · exact heq
        · have h1 := h y
          rw [Memory.read_cons, if_neg (by omega), Memory.read_cons, if_pos rfl,
            below fun e he => Nat.lt_trans hgt (hm.1 e he)] at h1
          cases h1
      subst hxy
      have hb := h x
      simp only [Memory.read_cons, if_true, Option.some.injEq] at hb
      subst hb
      congr 1
      refine ih hm.2 hn.2 fun a => ?_
      by_cases hxa : x = a
      · subst hxa
        rw [below (hm.1), below (hn.1)]
      · have h1 := h a
        simpa [Memory.read_cons, hxa] using h1

/-! Reading a block. -/

/-- A block read answers the bytes exactly when every byte of it has been written. -/
theorem Memory.readBlock_eq_some {m : Memory} {a k : Nat} {bs : List Byte} :
    m.readBlock a k = some bs ↔ bs.length = k ∧ ∀ j < k, m.read (a + j) = bs[j]? := by
  induction k generalizing a bs with
  | zero =>
    cases bs <;> simp [Memory.readBlock]
  | succ k ih =>
    unfold Memory.readBlock
    constructor
    · intro h
      split at h
      · cases h
      · next b hb =>
        obtain ⟨rest, hrest, rfl⟩ := Option.map_eq_some_iff.mp h
        obtain ⟨hlen, hread⟩ := ih.mp hrest
        refine ⟨by simp [hlen], fun j hj => ?_⟩
        cases j with
        | zero => simpa using hb
        | succ j =>
          have := hread j (by omega)
          rw [show a + (j + 1) = a + 1 + j by omega, this]; simp
    · rintro ⟨hlen, hread⟩
      cases bs with
      | nil => simp at hlen
      | cons b rest =>
        have h0 : m.read a = some b := by simpa using hread 0 (by omega)
        have hr : m.readBlock (a + 1) k = some rest := ih.mpr ⟨by simpa using hlen, fun j hj => by
          have := hread (j + 1) (by omega)
          rw [show a + 1 + j = a + (j + 1) by omega, this]; simp⟩
        simp [h0, hr]

theorem Memory.readBlock_isSome {m : Memory} {a k : Nat} :
    (∃ bs, m.readBlock a k = some bs) ↔ ∀ j < k, (m.read (a + j)).isSome := by
  induction k generalizing a with
  | zero => simp [Memory.readBlock]
  | succ k ih =>
    unfold Memory.readBlock
    constructor
    · rintro ⟨bs, h⟩ j hj
      split at h
      · cases h
      · next b hb =>
        obtain ⟨rest, hrest, -⟩ := Option.map_eq_some_iff.mp h
        cases j with
        | zero => simp [hb]
        | succ j =>
          have := ih.mp ⟨rest, hrest⟩ j (by omega)
          rwa [show a + (j + 1) = a + 1 + j by omega]
    · intro h
      obtain ⟨b, hb⟩ := Option.isSome_iff_exists.mp (h 0 (by omega))
      obtain ⟨rest, hr⟩ := ih.mpr fun j hj => by
        have := h (j + 1) (by omega)
        rwa [show a + (j + 1) = a + 1 + j by omega] at this
      refine ⟨b :: rest, ?_⟩
      simp only [Nat.add_zero] at hb
      simp [hb, hr]

theorem Memory.readBlock_eq_none {m : Memory} {a k : Nat} :
    m.readBlock a k = none ↔ ∃ j < k, m.read (a + j) = none := by
  rw [← not_iff_not]
  have := @Memory.readBlock_isSome m a k
  rw [show (¬ m.readBlock a k = none) ↔ ∃ bs, m.readBlock a k = some bs from Option.ne_none_iff_exists'] 
  rw [this]
  push Not
  exact forall₂_congr fun j _ => by rw [Option.isSome_iff_ne_none]

/-- A block read depends on the bytes of the block only. -/
theorem Memory.readBlock_congr {m n : Memory} {a k : Nat} (h : ∀ j < k, m.read (a + j) = n.read (a + j)) :
    m.readBlock a k = n.readBlock a k := by
  induction k generalizing a with
  | zero => rfl
  | succ k ih =>
    unfold Memory.readBlock
    have h0 : m.read a = n.read a := by simpa using h 0 (by omega)
    rw [h0, ih fun j hj => by
      have := h (j + 1) (by omega)
      rwa [show a + (j + 1) = a + 1 + j by omega] at this]

/-- Reading back a whole block that was stored. -/
theorem Memory.readBlock_writeBlock (m : Memory) (a : Nat) (bs : List Byte) :
    (m.writeBlock a bs).readBlock a bs.length = some bs := by
  rw [Memory.readBlock_eq_some]
  refine ⟨rfl, fun j hj => ?_⟩
  rw [Memory.read_writeBlock, if_pos ⟨by omega, by omega⟩, Nat.add_sub_cancel_left]

end Sys2Proof.Machine
end

