-- ==== Sys2Proof/Laws/State.lean ====
section
/-! SUPPORT. One lemma per field of State and update, so that no proof unfolds a record update. -/

namespace Sys2Proof.Machine

/-! `State.setAcc`. -/

@[simp] theorem State.setAcc_acc (v : Half) (s : State) : (s.setAcc v).acc = v := rfl
@[simp] theorem State.setAcc_pay (v : Half) (s : State) : (s.setAcc v).pay = s.pay := rfl
@[simp] theorem State.setAcc_pkt (v : Half) (s : State) : (s.setAcc v).pkt = s.pkt := rfl
@[simp] theorem State.setAcc_pktLen (v : Half) (s : State) : (s.setAcc v).pktLen = s.pktLen := rfl
@[simp] theorem State.setAcc_pktValid (v : Half) (s : State) : (s.setAcc v).pktValid = s.pktValid := rfl
@[simp] theorem State.setAcc_histI (v : Half) (s : State) : (s.setAcc v).histI = s.histI := rfl
@[simp] theorem State.setAcc_histQ (v : Half) (s : State) : (s.setAcc v).histQ = s.histQ := rfl
@[simp] theorem State.setAcc_phase (v : Half) (s : State) : (s.setAcc v).phase = s.phase := rfl
@[simp] theorem State.setAcc_wave (v : Half) (s : State) : (s.setAcc v).wave = s.wave := rfl
@[simp] theorem State.setAcc_wlen (v : Half) (s : State) : (s.setAcc v).wlen = s.wlen := rfl
@[simp] theorem State.setAcc_wavValid (v : Half) (s : State) : (s.setAcc v).wavValid = s.wavValid := rfl
@[simp] theorem State.setAcc_armed (v : Half) (s : State) : (s.setAcc v).armed = s.armed := rfl
@[simp] theorem State.setAcc_pos (v : Half) (s : State) : (s.setAcc v).pos = s.pos := rfl
@[simp] theorem State.setAcc_rem (v : Half) (s : State) : (s.setAcc v).rem = s.rem := rfl
@[simp] theorem State.setAcc_result (v : Half) (s : State) : (s.setAcc v).result = s.result := rfl
@[simp] theorem State.setAcc_lastErr (v : Half) (s : State) : (s.setAcc v).lastErr = s.lastErr := rfl
@[simp] theorem State.setAcc_sinkErr (v : Half) (s : State) : (s.setAcc v).sinkErr = s.sinkErr := rfl
@[simp] theorem State.setAcc_sticky (v : Half) (s : State) : (s.setAcc v).sticky = s.sticky := rfl
@[simp] theorem State.setAcc_inputs (v : Half) (s : State) : (s.setAcc v).inputs = s.inputs := rfl
@[simp] theorem State.setAcc_answer (v : Half) (s : State) : (s.setAcc v).answer = s.answer := rfl
@[simp] theorem State.setAcc_freeCount (v : Half) (s : State) : (s.setAcc v).freeCount = s.freeCount := rfl

/-! `State.setResult`. -/

@[simp] theorem State.setResult_acc (v : Word) (s : State) : (s.setResult v).acc = s.acc := rfl
@[simp] theorem State.setResult_pay (v : Word) (s : State) : (s.setResult v).pay = s.pay := rfl
@[simp] theorem State.setResult_pkt (v : Word) (s : State) : (s.setResult v).pkt = s.pkt := rfl
@[simp] theorem State.setResult_pktLen (v : Word) (s : State) : (s.setResult v).pktLen = s.pktLen := rfl
@[simp] theorem State.setResult_pktValid (v : Word) (s : State) : (s.setResult v).pktValid = s.pktValid := rfl
@[simp] theorem State.setResult_histI (v : Word) (s : State) : (s.setResult v).histI = s.histI := rfl
@[simp] theorem State.setResult_histQ (v : Word) (s : State) : (s.setResult v).histQ = s.histQ := rfl
@[simp] theorem State.setResult_phase (v : Word) (s : State) : (s.setResult v).phase = s.phase := rfl
@[simp] theorem State.setResult_wave (v : Word) (s : State) : (s.setResult v).wave = s.wave := rfl
@[simp] theorem State.setResult_wlen (v : Word) (s : State) : (s.setResult v).wlen = s.wlen := rfl
@[simp] theorem State.setResult_wavValid (v : Word) (s : State) : (s.setResult v).wavValid = s.wavValid := rfl
@[simp] theorem State.setResult_armed (v : Word) (s : State) : (s.setResult v).armed = s.armed := rfl
@[simp] theorem State.setResult_pos (v : Word) (s : State) : (s.setResult v).pos = s.pos := rfl
@[simp] theorem State.setResult_rem (v : Word) (s : State) : (s.setResult v).rem = s.rem := rfl
@[simp] theorem State.setResult_result (v : Word) (s : State) : (s.setResult v).result = v := rfl
@[simp] theorem State.setResult_lastErr (v : Word) (s : State) : (s.setResult v).lastErr = s.lastErr := rfl
@[simp] theorem State.setResult_sinkErr (v : Word) (s : State) : (s.setResult v).sinkErr = s.sinkErr := rfl
@[simp] theorem State.setResult_sticky (v : Word) (s : State) : (s.setResult v).sticky = s.sticky := rfl
@[simp] theorem State.setResult_inputs (v : Word) (s : State) : (s.setResult v).inputs = s.inputs := rfl
@[simp] theorem State.setResult_answer (v : Word) (s : State) : (s.setResult v).answer = s.answer := rfl
@[simp] theorem State.setResult_freeCount (v : Word) (s : State) : (s.setResult v).freeCount = s.freeCount := rfl

/-! `State.writePay`. -/

@[simp] theorem State.writePay_acc (idx : Nat) (b : Byte) (s : State) : (s.writePay idx b).acc = s.acc := rfl
@[simp] theorem State.writePay_pay (idx : Nat) (b : Byte) (s : State) : (s.writePay idx b).pay = s.pay.write idx b := rfl
@[simp] theorem State.writePay_pkt (idx : Nat) (b : Byte) (s : State) : (s.writePay idx b).pkt = s.pkt := rfl
@[simp] theorem State.writePay_pktLen (idx : Nat) (b : Byte) (s : State) : (s.writePay idx b).pktLen = s.pktLen := rfl
@[simp] theorem State.writePay_pktValid (idx : Nat) (b : Byte) (s : State) : (s.writePay idx b).pktValid = s.pktValid := rfl
@[simp] theorem State.writePay_histI (idx : Nat) (b : Byte) (s : State) : (s.writePay idx b).histI = s.histI := rfl
@[simp] theorem State.writePay_histQ (idx : Nat) (b : Byte) (s : State) : (s.writePay idx b).histQ = s.histQ := rfl
@[simp] theorem State.writePay_phase (idx : Nat) (b : Byte) (s : State) : (s.writePay idx b).phase = s.phase := rfl
@[simp] theorem State.writePay_wave (idx : Nat) (b : Byte) (s : State) : (s.writePay idx b).wave = s.wave := rfl
@[simp] theorem State.writePay_wlen (idx : Nat) (b : Byte) (s : State) : (s.writePay idx b).wlen = s.wlen := rfl
@[simp] theorem State.writePay_wavValid (idx : Nat) (b : Byte) (s : State) : (s.writePay idx b).wavValid = s.wavValid := rfl
@[simp] theorem State.writePay_armed (idx : Nat) (b : Byte) (s : State) : (s.writePay idx b).armed = s.armed := rfl
@[simp] theorem State.writePay_pos (idx : Nat) (b : Byte) (s : State) : (s.writePay idx b).pos = s.pos := rfl
@[simp] theorem State.writePay_rem (idx : Nat) (b : Byte) (s : State) : (s.writePay idx b).rem = s.rem := rfl
@[simp] theorem State.writePay_result (idx : Nat) (b : Byte) (s : State) : (s.writePay idx b).result = s.result := rfl
@[simp] theorem State.writePay_lastErr (idx : Nat) (b : Byte) (s : State) : (s.writePay idx b).lastErr = s.lastErr := rfl
@[simp] theorem State.writePay_sinkErr (idx : Nat) (b : Byte) (s : State) : (s.writePay idx b).sinkErr = s.sinkErr := rfl
@[simp] theorem State.writePay_sticky (idx : Nat) (b : Byte) (s : State) : (s.writePay idx b).sticky = s.sticky := rfl
@[simp] theorem State.writePay_inputs (idx : Nat) (b : Byte) (s : State) : (s.writePay idx b).inputs = s.inputs := rfl
@[simp] theorem State.writePay_answer (idx : Nat) (b : Byte) (s : State) : (s.writePay idx b).answer = s.answer := rfl
@[simp] theorem State.writePay_freeCount (idx : Nat) (b : Byte) (s : State) : (s.writePay idx b).freeCount = s.freeCount := rfl

/-! `State.putPacket`. -/

@[simp] theorem State.putPacket_acc (bs : List Byte) (s : State) : (s.putPacket bs).acc = s.acc := rfl
@[simp] theorem State.putPacket_pay (bs : List Byte) (s : State) : (s.putPacket bs).pay = s.pay := rfl
@[simp] theorem State.putPacket_pkt (bs : List Byte) (s : State) : (s.putPacket bs).pkt = s.pkt.writeBlock 0 bs := rfl
@[simp] theorem State.putPacket_pktLen (bs : List Byte) (s : State) : (s.putPacket bs).pktLen = bs.length := rfl
@[simp] theorem State.putPacket_pktValid (bs : List Byte) (s : State) : (s.putPacket bs).pktValid = true := rfl
@[simp] theorem State.putPacket_histI (bs : List Byte) (s : State) : (s.putPacket bs).histI = s.histI := rfl
@[simp] theorem State.putPacket_histQ (bs : List Byte) (s : State) : (s.putPacket bs).histQ = s.histQ := rfl
@[simp] theorem State.putPacket_phase (bs : List Byte) (s : State) : (s.putPacket bs).phase = s.phase := rfl
@[simp] theorem State.putPacket_wave (bs : List Byte) (s : State) : (s.putPacket bs).wave = s.wave := rfl
@[simp] theorem State.putPacket_wlen (bs : List Byte) (s : State) : (s.putPacket bs).wlen = s.wlen := rfl
@[simp] theorem State.putPacket_wavValid (bs : List Byte) (s : State) : (s.putPacket bs).wavValid = s.wavValid := rfl
@[simp] theorem State.putPacket_armed (bs : List Byte) (s : State) : (s.putPacket bs).armed = s.armed := rfl
@[simp] theorem State.putPacket_pos (bs : List Byte) (s : State) : (s.putPacket bs).pos = s.pos := rfl
@[simp] theorem State.putPacket_rem (bs : List Byte) (s : State) : (s.putPacket bs).rem = s.rem := rfl
@[simp] theorem State.putPacket_result (bs : List Byte) (s : State) : (s.putPacket bs).result = s.result := rfl
@[simp] theorem State.putPacket_lastErr (bs : List Byte) (s : State) : (s.putPacket bs).lastErr = s.lastErr := rfl
@[simp] theorem State.putPacket_sinkErr (bs : List Byte) (s : State) : (s.putPacket bs).sinkErr = s.sinkErr := rfl
@[simp] theorem State.putPacket_sticky (bs : List Byte) (s : State) : (s.putPacket bs).sticky = s.sticky := rfl
@[simp] theorem State.putPacket_inputs (bs : List Byte) (s : State) : (s.putPacket bs).inputs = s.inputs := rfl
@[simp] theorem State.putPacket_answer (bs : List Byte) (s : State) : (s.putPacket bs).answer = s.answer := rfl
@[simp] theorem State.putPacket_freeCount (bs : List Byte) (s : State) : (s.putPacket bs).freeCount = s.freeCount := rfl

/-! `State.putWave`. -/

@[simp] theorem State.putWave_acc (bs : List Byte) (s : State) : (s.putWave bs).acc = s.acc := rfl
@[simp] theorem State.putWave_pay (bs : List Byte) (s : State) : (s.putWave bs).pay = s.pay := rfl
@[simp] theorem State.putWave_pkt (bs : List Byte) (s : State) : (s.putWave bs).pkt = s.pkt := rfl
@[simp] theorem State.putWave_pktLen (bs : List Byte) (s : State) : (s.putWave bs).pktLen = s.pktLen := rfl
@[simp] theorem State.putWave_pktValid (bs : List Byte) (s : State) : (s.putWave bs).pktValid = s.pktValid := rfl
@[simp] theorem State.putWave_histI (bs : List Byte) (s : State) : (s.putWave bs).histI = s.histI := rfl
@[simp] theorem State.putWave_histQ (bs : List Byte) (s : State) : (s.putWave bs).histQ = s.histQ := rfl
@[simp] theorem State.putWave_phase (bs : List Byte) (s : State) : (s.putWave bs).phase = s.phase := rfl
@[simp] theorem State.putWave_wave (bs : List Byte) (s : State) : (s.putWave bs).wave = s.wave.writeBlock 0 bs := rfl
@[simp] theorem State.putWave_wlen (bs : List Byte) (s : State) : (s.putWave bs).wlen = bs.length := rfl
@[simp] theorem State.putWave_wavValid (bs : List Byte) (s : State) : (s.putWave bs).wavValid = true := rfl
@[simp] theorem State.putWave_armed (bs : List Byte) (s : State) : (s.putWave bs).armed = s.armed := rfl
@[simp] theorem State.putWave_pos (bs : List Byte) (s : State) : (s.putWave bs).pos = s.pos := rfl
@[simp] theorem State.putWave_rem (bs : List Byte) (s : State) : (s.putWave bs).rem = s.rem := rfl
@[simp] theorem State.putWave_result (bs : List Byte) (s : State) : (s.putWave bs).result = s.result := rfl
@[simp] theorem State.putWave_lastErr (bs : List Byte) (s : State) : (s.putWave bs).lastErr = s.lastErr := rfl
@[simp] theorem State.putWave_sinkErr (bs : List Byte) (s : State) : (s.putWave bs).sinkErr = s.sinkErr := rfl
@[simp] theorem State.putWave_sticky (bs : List Byte) (s : State) : (s.putWave bs).sticky = s.sticky := rfl
@[simp] theorem State.putWave_inputs (bs : List Byte) (s : State) : (s.putWave bs).inputs = s.inputs := rfl
@[simp] theorem State.putWave_answer (bs : List Byte) (s : State) : (s.putWave bs).answer = s.answer := rfl
@[simp] theorem State.putWave_freeCount (bs : List Byte) (s : State) : (s.putWave bs).freeCount = s.freeCount := rfl

/-! `State.setOsc`. -/

@[simp] theorem State.setOsc_acc (hi hq : Vector F64 16) (ph : F64) (s : State) : (s.setOsc hi hq ph).acc = s.acc := rfl
@[simp] theorem State.setOsc_pay (hi hq : Vector F64 16) (ph : F64) (s : State) : (s.setOsc hi hq ph).pay = s.pay := rfl
@[simp] theorem State.setOsc_pkt (hi hq : Vector F64 16) (ph : F64) (s : State) : (s.setOsc hi hq ph).pkt = s.pkt := rfl
@[simp] theorem State.setOsc_pktLen (hi hq : Vector F64 16) (ph : F64) (s : State) : (s.setOsc hi hq ph).pktLen = s.pktLen := rfl
@[simp] theorem State.setOsc_pktValid (hi hq : Vector F64 16) (ph : F64) (s : State) : (s.setOsc hi hq ph).pktValid = s.pktValid := rfl
@[simp] theorem State.setOsc_histI (hi hq : Vector F64 16) (ph : F64) (s : State) : (s.setOsc hi hq ph).histI = hi := rfl
@[simp] theorem State.setOsc_histQ (hi hq : Vector F64 16) (ph : F64) (s : State) : (s.setOsc hi hq ph).histQ = hq := rfl
@[simp] theorem State.setOsc_phase (hi hq : Vector F64 16) (ph : F64) (s : State) : (s.setOsc hi hq ph).phase = ph := rfl
@[simp] theorem State.setOsc_wave (hi hq : Vector F64 16) (ph : F64) (s : State) : (s.setOsc hi hq ph).wave = s.wave := rfl
@[simp] theorem State.setOsc_wlen (hi hq : Vector F64 16) (ph : F64) (s : State) : (s.setOsc hi hq ph).wlen = s.wlen := rfl
@[simp] theorem State.setOsc_wavValid (hi hq : Vector F64 16) (ph : F64) (s : State) : (s.setOsc hi hq ph).wavValid = s.wavValid := rfl
@[simp] theorem State.setOsc_armed (hi hq : Vector F64 16) (ph : F64) (s : State) : (s.setOsc hi hq ph).armed = s.armed := rfl
@[simp] theorem State.setOsc_pos (hi hq : Vector F64 16) (ph : F64) (s : State) : (s.setOsc hi hq ph).pos = s.pos := rfl
@[simp] theorem State.setOsc_rem (hi hq : Vector F64 16) (ph : F64) (s : State) : (s.setOsc hi hq ph).rem = s.rem := rfl
@[simp] theorem State.setOsc_result (hi hq : Vector F64 16) (ph : F64) (s : State) : (s.setOsc hi hq ph).result = s.result := rfl
@[simp] theorem State.setOsc_lastErr (hi hq : Vector F64 16) (ph : F64) (s : State) : (s.setOsc hi hq ph).lastErr = s.lastErr := rfl
@[simp] theorem State.setOsc_sinkErr (hi hq : Vector F64 16) (ph : F64) (s : State) : (s.setOsc hi hq ph).sinkErr = s.sinkErr := rfl
@[simp] theorem State.setOsc_sticky (hi hq : Vector F64 16) (ph : F64) (s : State) : (s.setOsc hi hq ph).sticky = s.sticky := rfl
@[simp] theorem State.setOsc_inputs (hi hq : Vector F64 16) (ph : F64) (s : State) : (s.setOsc hi hq ph).inputs = s.inputs := rfl
@[simp] theorem State.setOsc_answer (hi hq : Vector F64 16) (ph : F64) (s : State) : (s.setOsc hi hq ph).answer = s.answer := rfl
@[simp] theorem State.setOsc_freeCount (hi hq : Vector F64 16) (ph : F64) (s : State) : (s.setOsc hi hq ph).freeCount = s.freeCount := rfl

/-! `State.setCursor`. -/

@[simp] theorem State.setCursor_acc (p : Nat) (r : Int) (s : State) : (s.setCursor p r).acc = s.acc := rfl
@[simp] theorem State.setCursor_pay (p : Nat) (r : Int) (s : State) : (s.setCursor p r).pay = s.pay := rfl
@[simp] theorem State.setCursor_pkt (p : Nat) (r : Int) (s : State) : (s.setCursor p r).pkt = s.pkt := rfl
@[simp] theorem State.setCursor_pktLen (p : Nat) (r : Int) (s : State) : (s.setCursor p r).pktLen = s.pktLen := rfl
@[simp] theorem State.setCursor_pktValid (p : Nat) (r : Int) (s : State) : (s.setCursor p r).pktValid = s.pktValid := rfl
@[simp] theorem State.setCursor_histI (p : Nat) (r : Int) (s : State) : (s.setCursor p r).histI = s.histI := rfl
@[simp] theorem State.setCursor_histQ (p : Nat) (r : Int) (s : State) : (s.setCursor p r).histQ = s.histQ := rfl
@[simp] theorem State.setCursor_phase (p : Nat) (r : Int) (s : State) : (s.setCursor p r).phase = s.phase := rfl
@[simp] theorem State.setCursor_wave (p : Nat) (r : Int) (s : State) : (s.setCursor p r).wave = s.wave := rfl
@[simp] theorem State.setCursor_wlen (p : Nat) (r : Int) (s : State) : (s.setCursor p r).wlen = s.wlen := rfl
@[simp] theorem State.setCursor_wavValid (p : Nat) (r : Int) (s : State) : (s.setCursor p r).wavValid = s.wavValid := rfl
@[simp] theorem State.setCursor_armed (p : Nat) (r : Int) (s : State) : (s.setCursor p r).armed = s.armed := rfl
@[simp] theorem State.setCursor_pos (p : Nat) (r : Int) (s : State) : (s.setCursor p r).pos = p := rfl
@[simp] theorem State.setCursor_rem (p : Nat) (r : Int) (s : State) : (s.setCursor p r).rem = r := rfl
@[simp] theorem State.setCursor_result (p : Nat) (r : Int) (s : State) : (s.setCursor p r).result = s.result := rfl
@[simp] theorem State.setCursor_lastErr (p : Nat) (r : Int) (s : State) : (s.setCursor p r).lastErr = s.lastErr := rfl
@[simp] theorem State.setCursor_sinkErr (p : Nat) (r : Int) (s : State) : (s.setCursor p r).sinkErr = s.sinkErr := rfl
@[simp] theorem State.setCursor_sticky (p : Nat) (r : Int) (s : State) : (s.setCursor p r).sticky = s.sticky := rfl
@[simp] theorem State.setCursor_inputs (p : Nat) (r : Int) (s : State) : (s.setCursor p r).inputs = s.inputs := rfl
@[simp] theorem State.setCursor_answer (p : Nat) (r : Int) (s : State) : (s.setCursor p r).answer = s.answer := rfl
@[simp] theorem State.setCursor_freeCount (p : Nat) (r : Int) (s : State) : (s.setCursor p r).freeCount = s.freeCount := rfl

/-! `State.setArmed`. -/

@[simp] theorem State.setArmed_acc (s : State) : (s.setArmed).acc = s.acc := rfl
@[simp] theorem State.setArmed_pay (s : State) : (s.setArmed).pay = s.pay := rfl
@[simp] theorem State.setArmed_pkt (s : State) : (s.setArmed).pkt = s.pkt := rfl
@[simp] theorem State.setArmed_pktLen (s : State) : (s.setArmed).pktLen = s.pktLen := rfl
@[simp] theorem State.setArmed_pktValid (s : State) : (s.setArmed).pktValid = s.pktValid := rfl
@[simp] theorem State.setArmed_histI (s : State) : (s.setArmed).histI = s.histI := rfl
@[simp] theorem State.setArmed_histQ (s : State) : (s.setArmed).histQ = s.histQ := rfl
@[simp] theorem State.setArmed_phase (s : State) : (s.setArmed).phase = s.phase := rfl
@[simp] theorem State.setArmed_wave (s : State) : (s.setArmed).wave = s.wave := rfl
@[simp] theorem State.setArmed_wlen (s : State) : (s.setArmed).wlen = s.wlen := rfl
@[simp] theorem State.setArmed_wavValid (s : State) : (s.setArmed).wavValid = s.wavValid := rfl
@[simp] theorem State.setArmed_armed (s : State) : (s.setArmed).armed = true := rfl
@[simp] theorem State.setArmed_pos (s : State) : (s.setArmed).pos = s.pos := rfl
@[simp] theorem State.setArmed_rem (s : State) : (s.setArmed).rem = s.rem := rfl
@[simp] theorem State.setArmed_result (s : State) : (s.setArmed).result = s.result := rfl
@[simp] theorem State.setArmed_lastErr (s : State) : (s.setArmed).lastErr = s.lastErr := rfl
@[simp] theorem State.setArmed_sinkErr (s : State) : (s.setArmed).sinkErr = s.sinkErr := rfl
@[simp] theorem State.setArmed_sticky (s : State) : (s.setArmed).sticky = s.sticky := rfl
@[simp] theorem State.setArmed_inputs (s : State) : (s.setArmed).inputs = s.inputs := rfl
@[simp] theorem State.setArmed_answer (s : State) : (s.setArmed).answer = s.answer := rfl
@[simp] theorem State.setArmed_freeCount (s : State) : (s.setArmed).freeCount = s.freeCount := rfl

/-! `State.dropWave`. -/

@[simp] theorem State.dropWave_acc (s : State) : (s.dropWave).acc = s.acc := rfl
@[simp] theorem State.dropWave_pay (s : State) : (s.dropWave).pay = s.pay := rfl
@[simp] theorem State.dropWave_pkt (s : State) : (s.dropWave).pkt = s.pkt := rfl
@[simp] theorem State.dropWave_pktLen (s : State) : (s.dropWave).pktLen = s.pktLen := rfl
@[simp] theorem State.dropWave_pktValid (s : State) : (s.dropWave).pktValid = s.pktValid := rfl
@[simp] theorem State.dropWave_wave (s : State) : (s.dropWave).wave = [] := rfl
@[simp] theorem State.dropWave_wlen (s : State) : (s.dropWave).wlen = 0 := rfl
@[simp] theorem State.dropWave_wavValid (s : State) : (s.dropWave).wavValid = false := rfl
@[simp] theorem State.dropWave_armed (s : State) : (s.dropWave).armed = s.armed := rfl
@[simp] theorem State.dropWave_pos (s : State) : (s.dropWave).pos = s.pos := rfl
@[simp] theorem State.dropWave_rem (s : State) : (s.dropWave).rem = s.rem := rfl
@[simp] theorem State.dropWave_result (s : State) : (s.dropWave).result = s.result := rfl
@[simp] theorem State.dropWave_lastErr (s : State) : (s.dropWave).lastErr = s.lastErr := rfl
@[simp] theorem State.dropWave_sinkErr (s : State) : (s.dropWave).sinkErr = s.sinkErr := rfl
@[simp] theorem State.dropWave_sticky (s : State) : (s.dropWave).sticky = s.sticky := rfl
@[simp] theorem State.dropWave_inputs (s : State) : (s.dropWave).inputs = s.inputs := rfl
@[simp] theorem State.dropWave_answer (s : State) : (s.dropWave).answer = s.answer := rfl
@[simp] theorem State.dropWave_freeCount (s : State) : (s.dropWave).freeCount = s.freeCount + 33 := rfl

/-! `State.ctlOk`. -/

@[simp] theorem State.ctlOk_acc (s : State) : (s.ctlOk).acc = s.acc := rfl
@[simp] theorem State.ctlOk_pay (s : State) : (s.ctlOk).pay = s.pay := rfl
@[simp] theorem State.ctlOk_pkt (s : State) : (s.ctlOk).pkt = s.pkt := rfl
@[simp] theorem State.ctlOk_pktLen (s : State) : (s.ctlOk).pktLen = s.pktLen := rfl
@[simp] theorem State.ctlOk_pktValid (s : State) : (s.ctlOk).pktValid = s.pktValid := rfl
@[simp] theorem State.ctlOk_histI (s : State) : (s.ctlOk).histI = s.histI := rfl
@[simp] theorem State.ctlOk_histQ (s : State) : (s.ctlOk).histQ = s.histQ := rfl
@[simp] theorem State.ctlOk_phase (s : State) : (s.ctlOk).phase = s.phase := rfl
@[simp] theorem State.ctlOk_wave (s : State) : (s.ctlOk).wave = s.wave := rfl
@[simp] theorem State.ctlOk_wlen (s : State) : (s.ctlOk).wlen = s.wlen := rfl
@[simp] theorem State.ctlOk_wavValid (s : State) : (s.ctlOk).wavValid = s.wavValid := rfl
@[simp] theorem State.ctlOk_armed (s : State) : (s.ctlOk).armed = s.armed := rfl
@[simp] theorem State.ctlOk_pos (s : State) : (s.ctlOk).pos = s.pos := rfl
@[simp] theorem State.ctlOk_rem (s : State) : (s.ctlOk).rem = s.rem := rfl
@[simp] theorem State.ctlOk_result (s : State) : (s.ctlOk).result = s.result := rfl
@[simp] theorem State.ctlOk_lastErr (s : State) : (s.ctlOk).lastErr = 0x00#8 := rfl
@[simp] theorem State.ctlOk_sinkErr (s : State) : (s.ctlOk).sinkErr = s.sinkErr := rfl
@[simp] theorem State.ctlOk_sticky (s : State) : (s.ctlOk).sticky = s.sticky := rfl
@[simp] theorem State.ctlOk_inputs (s : State) : (s.ctlOk).inputs = s.inputs := rfl
@[simp] theorem State.ctlOk_answer (s : State) : (s.ctlOk).answer = s.answer := rfl
@[simp] theorem State.ctlOk_freeCount (s : State) : (s.ctlOk).freeCount = s.freeCount := rfl

/-! `State.sinkOk`. -/

@[simp] theorem State.sinkOk_acc (r : FillResult) (d : Option (List Byte)) (s : State) : (s.sinkOk r d).acc = s.acc := rfl
@[simp] theorem State.sinkOk_pay (r : FillResult) (d : Option (List Byte)) (s : State) : (s.sinkOk r d).pay = s.pay := rfl
@[simp] theorem State.sinkOk_pkt (r : FillResult) (d : Option (List Byte)) (s : State) : (s.sinkOk r d).pkt = s.pkt := rfl
@[simp] theorem State.sinkOk_pktLen (r : FillResult) (d : Option (List Byte)) (s : State) : (s.sinkOk r d).pktLen = s.pktLen := rfl
@[simp] theorem State.sinkOk_pktValid (r : FillResult) (d : Option (List Byte)) (s : State) : (s.sinkOk r d).pktValid = s.pktValid := rfl
@[simp] theorem State.sinkOk_histI (r : FillResult) (d : Option (List Byte)) (s : State) : (s.sinkOk r d).histI = s.histI := rfl
@[simp] theorem State.sinkOk_histQ (r : FillResult) (d : Option (List Byte)) (s : State) : (s.sinkOk r d).histQ = s.histQ := rfl
@[simp] theorem State.sinkOk_phase (r : FillResult) (d : Option (List Byte)) (s : State) : (s.sinkOk r d).phase = s.phase := rfl
@[simp] theorem State.sinkOk_wave (r : FillResult) (d : Option (List Byte)) (s : State) : (s.sinkOk r d).wave = s.wave := rfl
@[simp] theorem State.sinkOk_wlen (r : FillResult) (d : Option (List Byte)) (s : State) : (s.sinkOk r d).wlen = s.wlen := rfl
@[simp] theorem State.sinkOk_wavValid (r : FillResult) (d : Option (List Byte)) (s : State) : (s.sinkOk r d).wavValid = s.wavValid := rfl
@[simp] theorem State.sinkOk_armed (r : FillResult) (d : Option (List Byte)) (s : State) : (s.sinkOk r d).armed = s.armed := rfl
@[simp] theorem State.sinkOk_pos (r : FillResult) (d : Option (List Byte)) (s : State) : (s.sinkOk r d).pos = s.pos := rfl
@[simp] theorem State.sinkOk_rem (r : FillResult) (d : Option (List Byte)) (s : State) : (s.sinkOk r d).rem = s.rem := rfl
@[simp] theorem State.sinkOk_result (r : FillResult) (d : Option (List Byte)) (s : State) : (s.sinkOk r d).result = s.result := rfl
@[simp] theorem State.sinkOk_lastErr (r : FillResult) (d : Option (List Byte)) (s : State) : (s.sinkOk r d).lastErr = s.lastErr := rfl
@[simp] theorem State.sinkOk_sinkErr (r : FillResult) (d : Option (List Byte)) (s : State) : (s.sinkOk r d).sinkErr = 0x00#8 := rfl
@[simp] theorem State.sinkOk_sticky (r : FillResult) (d : Option (List Byte)) (s : State) : (s.sinkOk r d).sticky = s.sticky := rfl
@[simp] theorem State.sinkOk_inputs (r : FillResult) (d : Option (List Byte)) (s : State) : (s.sinkOk r d).inputs = s.inputs := rfl
@[simp] theorem State.sinkOk_answer (r : FillResult) (d : Option (List Byte)) (s : State) : (s.sinkOk r d).answer = some (.sink ⟨r, r.stop, d⟩) := rfl
@[simp] theorem State.sinkOk_freeCount (r : FillResult) (d : Option (List Byte)) (s : State) : (s.sinkOk r d).freeCount = s.freeCount := rfl

/-! `State.begin`. -/

@[simp] theorem State.begin_acc (rest : List PortEvent) (s : State) : (s.begin rest).acc = s.acc := rfl
@[simp] theorem State.begin_pay (rest : List PortEvent) (s : State) : (s.begin rest).pay = s.pay := rfl
@[simp] theorem State.begin_pkt (rest : List PortEvent) (s : State) : (s.begin rest).pkt = s.pkt := rfl
@[simp] theorem State.begin_pktLen (rest : List PortEvent) (s : State) : (s.begin rest).pktLen = s.pktLen := rfl
@[simp] theorem State.begin_pktValid (rest : List PortEvent) (s : State) : (s.begin rest).pktValid = s.pktValid := rfl
@[simp] theorem State.begin_histI (rest : List PortEvent) (s : State) : (s.begin rest).histI = s.histI := rfl
@[simp] theorem State.begin_histQ (rest : List PortEvent) (s : State) : (s.begin rest).histQ = s.histQ := rfl
@[simp] theorem State.begin_phase (rest : List PortEvent) (s : State) : (s.begin rest).phase = s.phase := rfl
@[simp] theorem State.begin_wave (rest : List PortEvent) (s : State) : (s.begin rest).wave = s.wave := rfl
@[simp] theorem State.begin_wlen (rest : List PortEvent) (s : State) : (s.begin rest).wlen = s.wlen := rfl
@[simp] theorem State.begin_wavValid (rest : List PortEvent) (s : State) : (s.begin rest).wavValid = s.wavValid := rfl
@[simp] theorem State.begin_armed (rest : List PortEvent) (s : State) : (s.begin rest).armed = s.armed := rfl
@[simp] theorem State.begin_pos (rest : List PortEvent) (s : State) : (s.begin rest).pos = s.pos := rfl
@[simp] theorem State.begin_rem (rest : List PortEvent) (s : State) : (s.begin rest).rem = s.rem := rfl
@[simp] theorem State.begin_result (rest : List PortEvent) (s : State) : (s.begin rest).result = s.result := rfl
@[simp] theorem State.begin_lastErr (rest : List PortEvent) (s : State) : (s.begin rest).lastErr = s.lastErr := rfl
@[simp] theorem State.begin_sinkErr (rest : List PortEvent) (s : State) : (s.begin rest).sinkErr = s.sinkErr := rfl
@[simp] theorem State.begin_sticky (rest : List PortEvent) (s : State) : (s.begin rest).sticky = s.sticky := rfl
@[simp] theorem State.begin_inputs (rest : List PortEvent) (s : State) : (s.begin rest).inputs = rest := rfl
@[simp] theorem State.begin_answer (rest : List PortEvent) (s : State) : (s.begin rest).answer = none := rfl
@[simp] theorem State.begin_freeCount (rest : List PortEvent) (s : State) : (s.begin rest).freeCount = s.freeCount := rfl

/-! `State.raise`: STICKY always; the port's own code; on the sink port the response. -/

@[simp] theorem State.raise_acc (p : Port) (e : ErrorCode) (s : State) : (s.raise p e).acc = s.acc := by
  cases p <;> rfl
@[simp] theorem State.raise_pay (p : Port) (e : ErrorCode) (s : State) : (s.raise p e).pay = s.pay := by
  cases p <;> rfl
@[simp] theorem State.raise_pkt (p : Port) (e : ErrorCode) (s : State) : (s.raise p e).pkt = s.pkt := by
  cases p <;> rfl
@[simp] theorem State.raise_pktLen (p : Port) (e : ErrorCode) (s : State) : (s.raise p e).pktLen = s.pktLen := by
  cases p <;> rfl
@[simp] theorem State.raise_pktValid (p : Port) (e : ErrorCode) (s : State) : (s.raise p e).pktValid = s.pktValid := by
  cases p <;> rfl
@[simp] theorem State.raise_histI (p : Port) (e : ErrorCode) (s : State) : (s.raise p e).histI = s.histI := by
  cases p <;> rfl
@[simp] theorem State.raise_histQ (p : Port) (e : ErrorCode) (s : State) : (s.raise p e).histQ = s.histQ := by
  cases p <;> rfl
@[simp] theorem State.raise_phase (p : Port) (e : ErrorCode) (s : State) : (s.raise p e).phase = s.phase := by
  cases p <;> rfl
@[simp] theorem State.raise_wave (p : Port) (e : ErrorCode) (s : State) : (s.raise p e).wave = s.wave := by
  cases p <;> rfl
@[simp] theorem State.raise_wlen (p : Port) (e : ErrorCode) (s : State) : (s.raise p e).wlen = s.wlen := by
  cases p <;> rfl
@[simp] theorem State.raise_wavValid (p : Port) (e : ErrorCode) (s : State) : (s.raise p e).wavValid = s.wavValid := by
  cases p <;> rfl
@[simp] theorem State.raise_armed (p : Port) (e : ErrorCode) (s : State) : (s.raise p e).armed = s.armed := by
  cases p <;> rfl
@[simp] theorem State.raise_pos (p : Port) (e : ErrorCode) (s : State) : (s.raise p e).pos = s.pos := by
  cases p <;> rfl
@[simp] theorem State.raise_rem (p : Port) (e : ErrorCode) (s : State) : (s.raise p e).rem = s.rem := by
  cases p <;> rfl
@[simp] theorem State.raise_result (p : Port) (e : ErrorCode) (s : State) : (s.raise p e).result = s.result := by
  cases p <;> rfl
@[simp] theorem State.raise_control_lastErr (e : ErrorCode) (s : State) : (s.raise .control e).lastErr = e.code := rfl
@[simp] theorem State.raise_sink_lastErr (e : ErrorCode) (s : State) : (s.raise .sink e).lastErr = s.lastErr := rfl
@[simp] theorem State.raise_control_sinkErr (e : ErrorCode) (s : State) : (s.raise .control e).sinkErr = s.sinkErr := rfl
@[simp] theorem State.raise_sink_sinkErr (e : ErrorCode) (s : State) : (s.raise .sink e).sinkErr = e.code := rfl
@[simp] theorem State.raise_sticky (p : Port) (e : ErrorCode) (s : State) : (s.raise p e).sticky = true := by
  cases p <;> rfl
@[simp] theorem State.raise_inputs (p : Port) (e : ErrorCode) (s : State) : (s.raise p e).inputs = s.inputs := by
  cases p <;> rfl
@[simp] theorem State.raise_control_answer (e : ErrorCode) (s : State) : (s.raise .control e).answer = s.answer := rfl
@[simp] theorem State.raise_sink_answer (e : ErrorCode) (s : State) :
    (s.raise .sink e).answer = some (.sink ⟨.faulted, true, none⟩) := rfl
@[simp] theorem State.raise_freeCount (p : Port) (e : ErrorCode) (s : State) : (s.raise p e).freeCount = s.freeCount := by
  cases p <;> rfl

/-! `State.hardReset`: the values of R40; the model's own `inputs` and `freeCount` go on. -/

@[simp] theorem State.hardReset_acc (s : State) : s.hardReset.acc = 0x1D0F#16 := rfl
@[simp] theorem State.hardReset_pay (s : State) : s.hardReset.pay = [] := rfl
@[simp] theorem State.hardReset_pkt (s : State) : s.hardReset.pkt = [] := rfl
@[simp] theorem State.hardReset_pktLen (s : State) : s.hardReset.pktLen = 8 := rfl
@[simp] theorem State.hardReset_pktValid (s : State) : s.hardReset.pktValid = false := rfl
@[simp] theorem State.hardReset_histI (s : State) : s.hardReset.histI = Vector.replicate 16 F64.posZero := rfl
@[simp] theorem State.hardReset_histQ (s : State) : s.hardReset.histQ = Vector.replicate 16 F64.posZero := rfl
@[simp] theorem State.hardReset_phase (s : State) : s.hardReset.phase = F64.posZero := rfl
@[simp] theorem State.hardReset_wave (s : State) : s.hardReset.wave = [] := rfl
@[simp] theorem State.hardReset_wlen (s : State) : s.hardReset.wlen = 0 := rfl
@[simp] theorem State.hardReset_wavValid (s : State) : s.hardReset.wavValid = false := rfl
@[simp] theorem State.hardReset_armed (s : State) : s.hardReset.armed = false := rfl
@[simp] theorem State.hardReset_pos (s : State) : s.hardReset.pos = 0 := rfl
@[simp] theorem State.hardReset_rem (s : State) : s.hardReset.rem = 0 := rfl
@[simp] theorem State.hardReset_result (s : State) : s.hardReset.result = 0#32 := rfl
@[simp] theorem State.hardReset_lastErr (s : State) : s.hardReset.lastErr = 0#8 := rfl
@[simp] theorem State.hardReset_sinkErr (s : State) : s.hardReset.sinkErr = 0#8 := rfl
@[simp] theorem State.hardReset_sticky (s : State) : s.hardReset.sticky = false := rfl
@[simp] theorem State.hardReset_inputs (s : State) : s.hardReset.inputs = s.inputs := rfl
@[simp] theorem State.hardReset_answer (s : State) : s.hardReset.answer = none := rfl
@[simp] theorem State.hardReset_freeCount (s : State) : s.hardReset.freeCount = s.freeCount := rfl

/-! The FIFO state depends on ARMED and REM only (R32). -/

theorem State.fifoState_congr {s t : State} (ha : s.armed = t.armed) (hr : s.rem = t.rem) : s.fifoState = t.fifoState := by
  simp [State.fifoState, ha, hr]

theorem State.fifoState_eq_idle {s : State} : s.fifoState = .idle ↔ s.armed = false := by
  unfold State.fifoState; split <;> (try split) <;> (try split) <;> simp_all

theorem State.fifoState_eq_streaming {s : State} : s.fifoState = .streaming ↔ s.armed = true ∧ 0 < s.rem := by
  unfold State.fifoState; split <;> (try split) <;> (try split) <;> simp_all

theorem State.fifoState_eq_draining {s : State} : s.fifoState = .draining ↔ s.armed = true ∧ s.rem = 0 := by
  unfold State.fifoState; split <;> (try split) <;> (try split) <;> simp_all; omega

theorem State.fifoState_eq_done {s : State} : s.fifoState = .done ↔ s.armed = true ∧ s.rem < 0 := by
  unfold State.fifoState; split <;> (try split) <;> (try split) <;> simp_all <;> omega

/-- The stream is busy exactly when it is armed and the sentinel is not reached (R66, R67). -/
theorem State.streamBusy_iff {s : State} : s.streamBusy = true ↔ s.armed = true ∧ 0 ≤ s.rem := by
  unfold State.streamBusy State.fifoState
  split <;> rename_i h <;> revert h <;> split <;> (try split) <;> (try split) <;> simp_all <;> omega

theorem State.streamBusy_congr {s t : State} (ha : s.armed = t.armed) (hr : s.rem = t.rem) : s.streamBusy = t.streamBusy := by
  simp [State.streamBusy, State.fifoState_congr ha hr]

end Sys2Proof.Machine
end

