-- ==== Sys2Proof/Laws/Float.lean ====
section
/-! SUPPORT. Rounding says once what a rounded magnitude can be (`round_spec`): it stays below every representable bound
of the exact value, above every representable lower bound, and within half a unit in the last place; then the four
operations. A representable magnitude is written `m * 2^k` with `m < 2^53` and `k ≤ 2045`, in units of 2^-1074. -/

namespace Sys2Proof

/-! The magnitude of a finite datum. -/

theorem F64.mag_form (e : Fin 2047) (f : BitVec 52) :
    ∃ m k, F64.mag e f = m * 2 ^ k ∧ m < 2 ^ 53 ∧ k ≤ 2045 := by
  have hf := f.isLt
  have he := e.isLt
  unfold F64.mag
  split
  · exact ⟨f.toNat, 0, by simp, by omega, by omega⟩
  · exact ⟨2 ^ 52 + f.toNat, e.val - 1, rfl, by omega, by omega⟩

theorem F64.units_fin (s : Bool) (e : Fin 2047) (f : BitVec 52) :
    (F64.fin s e f).units = if s then -(F64.mag e f : Int) else (F64.mag e f : Int) := rfl

@[simp] theorem F64.natAbs_units_fin (s : Bool) (e : Fin 2047) (f : BitVec 52) :
    (F64.fin s e f).units.natAbs = F64.mag e f := by
  cases s <;> simp [F64.units_fin]

theorem F64.isFinite_iff (x : F64) : x.isFinite = true ↔ ∃ s e f, x = .fin s e f := by
  cases x <;> simp [F64.isFinite]

/-- `|x| ≤ 1`, in units. -/
theorem F64.absLeOne_iff (x : F64) : x.absLeOne = true ↔ x.isFinite = true ∧ x.units.natAbs ≤ F64.one1074 := by
  cases x <;> simp [F64.absLeOne, F64.isFinite]

@[simp] theorem F64.units_posZero : F64.posZero.units = 0 := by
  simp [F64.posZero, F64.units_fin, F64.mag]

/-! Rounding to an integer. -/

theorem F64.nearestEven_le {num den k : Nat} (hd : 0 < den) (h : num ≤ k * den) : F64.nearestEven num den ≤ k := by
  have hdm := Nat.div_add_mod num den
  have hr := Nat.mod_lt num hd
  unfold F64.nearestEven
  by_cases hk : num / den < k
  · simp only; split <;> omega
  · have h1 : k * den ≤ num / den * den := Nat.mul_le_mul_right den (by omega)
    have h2 : num / den * den ≤ num := Nat.div_mul_le_self num den
    have h3 : num % den = 0 := by
      have : num / den * den = den * (num / den) := Nat.mul_comm _ _
      omega
    have h4 : num / den ≤ k := Nat.div_le_of_le_mul (by rw [Nat.mul_comm]; exact h)
    simp only [h3]
    split <;> omega

theorem F64.le_nearestEven {num den k : Nat} (hd : 0 < den) (h : k * den ≤ num) : k ≤ F64.nearestEven num den := by
  have h1 : k ≤ num / den := (Nat.le_div_iff_mul_le hd).mpr h
  unfold F64.nearestEven
  simp only
  split <;> omega

/-- The rounded integer is within one half of the exact quotient. -/
theorem F64.nearestEven_near {num den : Nat} (hd : 0 < den) :
    2 * num ≤ (2 * F64.nearestEven num den + 1) * den ∧ 2 * F64.nearestEven num den * den ≤ 2 * num + den := by
  have hdm := Nat.div_add_mod num den
  have hr := Nat.mod_lt num hd
  have hc : den * (num / den) = num / den * den := Nat.mul_comm _ _
  unfold F64.nearestEven
  simp only
  split
  · next h =>
    have e1 : (2 * (num / den + 1) + 1) * den = 2 * (num / den * den) + 3 * den := by ring
    have e2 : 2 * (num / den + 1) * den = 2 * (num / den * den) + 2 * den := by ring
    rw [e1, e2]; omega
  · next h =>
    have e1 : (2 * (num / den) + 1) * den = 2 * (num / den * den) + den := by ring
    have e2 : 2 * (num / den) * den = 2 * (num / den * den) := by ring
    rw [e1, e2]; omega

/-- A tie goes to the even integer. -/
theorem F64.nearestEven_tie {num den : Nat} (hd : 0 < den)
    (h : 2 * num = (2 * F64.nearestEven num den + 1) * den ∨ 2 * F64.nearestEven num den * den = 2 * num + den) :
    F64.nearestEven num den % 2 = 0 := by
  have hdm := Nat.div_add_mod num den
  have hr := Nat.mod_lt num hd
  have hc : den * (num / den) = num / den * den := Nat.mul_comm _ _
  revert h
  unfold F64.nearestEven
  simp only
  split
  · next h =>
    intro h'
    have e1 : (2 * (num / den + 1) + 1) * den = 2 * (num / den * den) + 3 * den := by ring
    have e2 : 2 * (num / den + 1) * den = 2 * (num / den * den) + 2 * den := by ring
    rw [e1, e2] at h'
    omega
  · next h =>
    intro h'
    have e1 : (2 * (num / den) + 1) * den = 2 * (num / den * den) + den := by ring
    have e2 : 2 * (num / den) * den = 2 * (num / den * den) := by ring
    rw [e1, e2] at h'
    omega

/-! The place of the last bit. -/

theorem F64.lt_quantum (x : Nat) : x < 2 ^ (53 + F64.quantum x) := by
  have h := @Nat.lt_log2_self x
  exact lt_of_lt_of_le h (Nat.pow_le_pow_right (by norm_num) (by unfold F64.quantum; omega))

theorem F64.quantum_le (x : Nat) (h : 0 < F64.quantum x) : 2 ^ (52 + F64.quantum x) ≤ x := by
  have h1 : 52 + F64.quantum x = x.log2 := by unfold F64.quantum at *; omega
  have h2 : x ≠ 0 := by rintro rfl; simp [F64.quantum] at h
  rw [h1]; exact Nat.log2_self_le h2

theorem F64.quantum_le_of_lt {x n : Nat} (h : x < 2 ^ (53 + n)) : F64.quantum x ≤ n := by
  by_contra hc
  have h1 := F64.quantum_le x (by omega)
  have h2 : 2 ^ (53 + n) ≤ 2 ^ (52 + F64.quantum x) := Nat.pow_le_pow_right (by norm_num) (by omega)
  omega

/-! Packing. -/

/-- A packed datum is infinite, or finite of magnitude `n * 2^q`, with the low bits of `n` as its fraction. -/
theorem F64.pack_spec (neg : Bool) {n q : Nat} (hn : n ≤ 2 ^ 53) (hq : n < 2 ^ 52 → q = 0) :
    (F64.pack neg n q = .inf neg ∧ 2 ^ 2098 ≤ n * 2 ^ q) ∨
      ∃ e f, F64.pack neg n q = .fin neg e f ∧ F64.mag e f = n * 2 ^ q ∧ f = BitVec.ofNat 52 n := by
  unfold F64.pack
  by_cases h1 : n < 2 ^ 52
  · right
    refine ⟨0, BitVec.ofNat 52 n, if_pos h1, ?_, rfl⟩
    simp only [F64.mag, hq h1, Fin.val_zero, if_true, BitVec.toNat_ofNat, pow_zero, mul_one]
    exact Nat.mod_eq_of_lt h1
  · rw [if_neg h1]
    simp only
    by_cases h2 : n < 2 ^ 53
    · simp only [h2, if_true]
      by_cases h3 : q + 1 < 2047
      · right
        refine ⟨⟨q + 1, h3⟩, BitVec.ofNat 52 n, by simp [h3], ?_, rfl⟩
        have hm : n % 2 ^ 52 = n - 2 ^ 52 := by
          rw [Nat.mod_eq_sub_mod (by omega), Nat.mod_eq_of_lt (by omega)]
        simp only [F64.mag, Nat.add_one_ne_zero, if_false, BitVec.toNat_ofNat, hm, Nat.add_sub_cancel]
        rw [Nat.add_sub_cancel' (by omega : 2 ^ 52 ≤ n)]
      · left
        refine ⟨by simp [h3], ?_⟩
        calc 2 ^ 2098 ≤ 2 ^ 52 * 2 ^ q := by
              rw [← pow_add]; exact Nat.pow_le_pow_right (by norm_num) (by omega)
          _ ≤ n * 2 ^ q := Nat.mul_le_mul_right _ (by omega)
    · simp only [h2, if_false]
      have hn' : n = 2 ^ 53 := by omega
      by_cases h3 : q + 2 < 2047
      · right
        refine ⟨⟨q + 2, h3⟩, BitVec.ofNat 52 n, by simp [h3], ?_, rfl⟩
        simp only [F64.mag, Nat.add_eq_zero_iff, BitVec.toNat_ofNat, hn']
        norm_num
        rw [pow_succ]
        ring
      · left
        refine ⟨by simp [h3], ?_⟩
        rw [hn', ← pow_add]
        exact Nat.pow_le_pow_right (by norm_num) (by omega)

/-- The significand a rounding keeps. -/
def F64.significandOf (num den : Nat) : Nat := F64.nearestEven num (den * 2 ^ F64.quantum (num / den))

theorem F64.significandOf_le {num den : Nat} (hd : 0 < den) : F64.significandOf num den ≤ 2 ^ 53 := by
  apply F64.nearestEven_le (Nat.mul_pos hd (by positivity))
  have h := F64.lt_quantum (num / den)
  have h1 : num < 2 ^ (53 + F64.quantum (num / den)) * den := (Nat.div_lt_iff_lt_mul hd).mp h
  rw [pow_add] at h1
  calc num ≤ 2 ^ 53 * 2 ^ F64.quantum (num / den) * den := h1.le
    _ = _ := by ring

theorem F64.le_significandOf {num den : Nat} (hd : 0 < den) (hq : 0 < F64.quantum (num / den)) :
    2 ^ 52 ≤ F64.significandOf num den := by
  apply F64.le_nearestEven (Nat.mul_pos hd (by positivity))
  have h1 := (Nat.le_div_iff_mul_le hd).mp (F64.quantum_le _ hq)
  rw [pow_add] at h1
  calc 2 ^ 52 * (den * 2 ^ F64.quantum (num / den)) = 2 ^ 52 * 2 ^ F64.quantum (num / den) * den := by ring
    _ ≤ num := h1

/-- What rounding can answer: an infinity for a significand out of range, or the finite datum of the rounded
significand. -/
theorem F64.round_spec (neg : Bool) {num den : Nat} (hd : 0 < den) :
    (F64.round neg num den = .inf neg ∧ 2 ^ 2098 ≤ F64.significandOf num den * 2 ^ F64.quantum (num / den)) ∨
      ∃ e f, F64.round neg num den = .fin neg e f ∧
        F64.mag e f = F64.significandOf num den * 2 ^ F64.quantum (num / den) ∧
        f = BitVec.ofNat 52 (F64.significandOf num den) := by
  refine F64.pack_spec neg (F64.significandOf_le hd) fun h => ?_
  by_contra hq
  have := F64.le_significandOf (num := num) hd (by omega)
  unfold F64.significandOf at this
  omega

/-- Below a representable bound, rounding stays finite and below it. -/
theorem F64.round_le (neg : Bool) {num den m k : Nat} (hd : 0 < den) (hm : m < 2 ^ 53) (hk : k ≤ 2045)
    (h : num ≤ m * 2 ^ k * den) :
    ∃ e f, F64.round neg num den = .fin neg e f ∧ F64.mag e f ≤ m * 2 ^ k := by
  have key : F64.significandOf num den * 2 ^ F64.quantum (num / den) ≤ m * 2 ^ k := by
    by_cases hq : F64.quantum (num / den) ≤ k
    · have h1 : m * 2 ^ k = m * 2 ^ (k - F64.quantum (num / den)) * 2 ^ F64.quantum (num / den) := by
        rw [mul_assoc, ← pow_add, Nat.sub_add_cancel hq]
      rw [h1]
      apply Nat.mul_le_mul_right
      apply F64.nearestEven_le (Nat.mul_pos hd (by positivity))
      rw [h1] at h
      calc num ≤ _ := h
        _ = _ := by ring
    · exfalso
      have h1 := F64.quantum_le (num / den) (by omega)
      have h2 : num / den ≤ m * 2 ^ k := Nat.div_le_of_le_mul (by rw [Nat.mul_comm]; exact h)
      have h3 : m * 2 ^ k < 2 ^ 53 * 2 ^ k := Nat.mul_lt_mul_of_pos_right hm (by positivity)
      have h4 : 2 ^ (53 + k) ≤ 2 ^ (52 + F64.quantum (num / den)) := Nat.pow_le_pow_right (by norm_num) (by omega)
      rw [pow_add] at h4
      omega
  rcases F64.round_spec neg (num := num) hd with ⟨-, h1⟩ | ⟨e, f, h1, h2, -⟩
  · exfalso
    have h3 : m * 2 ^ k < 2 ^ 53 * 2 ^ k := Nat.mul_lt_mul_of_pos_right hm (by positivity)
    have h4 : 2 ^ 53 * 2 ^ k ≤ 2 ^ 2098 := by
      rw [← pow_add]; exact Nat.pow_le_pow_right (by norm_num) (by omega)
    exact absurd (le_trans h1 key) (not_le.mpr (lt_of_lt_of_le h3 h4))
  · exact ⟨e, f, h1, h2 ▸ key⟩

/-- Above a representable bound, a finite rounding stays above it. -/
theorem F64.le_round {neg : Bool} {num den m k : Nat} {e : Fin 2047} {f : BitVec 52} (hd : 0 < den) (hm : m < 2 ^ 53)
    (h : m * 2 ^ k * den ≤ num) (hr : F64.round neg num den = .fin neg e f) : m * 2 ^ k ≤ F64.mag e f := by
  rcases F64.round_spec neg (num := num) hd with ⟨h1, -⟩ | ⟨e', f', h1, h2, -⟩
  · rw [h1] at hr; cases hr
  · rw [h1] at hr
    cases hr
    rw [h2]
    by_cases hq : F64.quantum (num / den) ≤ k
    · have h3 : m * 2 ^ k = m * 2 ^ (k - F64.quantum (num / den)) * 2 ^ F64.quantum (num / den) := by
        rw [mul_assoc, ← pow_add, Nat.sub_add_cancel hq]
      rw [h3]
      apply Nat.mul_le_mul_right
      apply F64.le_nearestEven (Nat.mul_pos hd (by positivity))
      rw [h3] at h
      calc _ = m * 2 ^ (k - F64.quantum (num / den)) * 2 ^ F64.quantum (num / den) * den := by ring
        _ ≤ num := h
    · have h3 := F64.le_significandOf (num := num) hd (by omega)
      calc m * 2 ^ k ≤ 2 ^ 53 * 2 ^ k := Nat.mul_le_mul_right _ hm.le
        _ = 2 ^ (53 + k) := by rw [pow_add]
        _ ≤ 2 ^ (52 + F64.quantum (num / den)) := Nat.pow_le_pow_right (by norm_num) (by omega)
        _ = 2 ^ 52 * 2 ^ F64.quantum (num / den) := by rw [pow_add]
        _ ≤ _ := Nat.mul_le_mul_right _ h3

/-- A representable magnitude is rounded to itself. -/
theorem F64.round_exact (neg : Bool) {num den m k : Nat} (hd : 0 < den) (hm : m < 2 ^ 53) (hk : k ≤ 2045)
    (h : num = m * 2 ^ k * den) :
    ∃ e f, F64.round neg num den = .fin neg e f ∧ F64.mag e f = m * 2 ^ k := by
  obtain ⟨e, f, hr, hle⟩ := F64.round_le neg hd hm hk h.le
  exact ⟨e, f, hr, le_antisymm hle (F64.le_round hd hm h.ge hr)⟩

/-- A finite rounding is within half a unit in the last place. -/
theorem F64.round_near {neg : Bool} {num den : Nat} {e : Fin 2047} {f : BitVec 52} (hd : 0 < den)
    (hr : F64.round neg num den = .fin neg e f) :
    2 * num ≤ 2 * F64.mag e f * den + den * 2 ^ F64.quantum (num / den) ∧
      2 * F64.mag e f * den ≤ 2 * num + den * 2 ^ F64.quantum (num / den) := by
  rcases F64.round_spec neg (num := num) hd with ⟨h1, -⟩ | ⟨e', f', h1, h2, -⟩
  · rw [h1] at hr; cases hr
  · rw [h1] at hr
    cases hr
    rw [h2]
    have h3 := F64.nearestEven_near (num := num) (den := den * 2 ^ F64.quantum (num / den))
      (Nat.mul_pos hd (by positivity))
    unfold F64.significandOf
    constructor
    · calc 2 * num ≤ _ := h3.1
        _ = _ := by ring
    · calc _ = 2 * F64.nearestEven num (den * 2 ^ F64.quantum (num / den)) * (den * 2 ^ F64.quantum (num / den)) := by ring
        _ ≤ _ := h3.2

/-! The operations on finite data. -/

theorem F64.fadd_fin (s t : Bool) (e e' : Fin 2047) (f f' : BitVec 52) :
    F64.fadd (.fin s e f) (.fin t e' f') =
      if (F64.fin s e f).units + (F64.fin t e' f').units = 0 then .fin (s && t) 0 0#52
      else F64.round (decide ((F64.fin s e f).units + (F64.fin t e' f').units < 0))
        ((F64.fin s e f).units + (F64.fin t e' f').units).natAbs 1 := by
  rw [F64.fadd]

theorem F64.fmul_fin (s t : Bool) (e e' : Fin 2047) (f f' : BitVec 52) :
    F64.fmul (.fin s e f) (.fin t e' f') = F64.round (s ^^ t) (F64.mag e f * F64.mag e' f') F64.one1074 := by
  rw [F64.fmul]

theorem F64.one1074_pos : 0 < F64.one1074 := by unfold F64.one1074; positivity

theorem F64.isFinite_neg (x : F64) : x.neg.isFinite = x.isFinite := by cases x <;> rfl

theorem F64.units_neg (x : F64) : x.neg.units = -x.units := by
  cases x with
  | nan => rfl
  | inf s => rfl
  | fin s e f => cases s <;> simp [F64.neg, F64.units_fin]

/-- The sum of two finite data, below a representable bound of the exact sum. -/
theorem F64.fadd_le {a b : F64} {m k : Nat} (ha : a.isFinite = true) (hb : b.isFinite = true) (hm : m < 2 ^ 53)
    (hk : k ≤ 2045) (h : (a.units + b.units).natAbs ≤ m * 2 ^ k) :
    (F64.fadd a b).isFinite = true ∧ (F64.fadd a b).units.natAbs ≤ m * 2 ^ k := by
  obtain ⟨s, e, f, rfl⟩ := (F64.isFinite_iff a).mp ha
  obtain ⟨t, e', f', rfl⟩ := (F64.isFinite_iff b).mp hb
  rw [F64.fadd_fin]
  split
  · refine ⟨rfl, ?_⟩
    rw [F64.natAbs_units_fin]; simp [F64.mag]
  · obtain ⟨e2, f2, hr, hle⟩ := F64.round_le (decide ((F64.fin s e f).units + (F64.fin t e' f').units < 0))
      (den := 1) one_pos hm hk (by simpa using h)
    rw [hr]
    exact ⟨rfl, by rw [F64.natAbs_units_fin]; exact hle⟩

/-- Half a unit in the last place of a number in [1, 2): 2^-53, in units. -/
@[irreducible] def F64.halfUlp : Nat := 2 ^ 1021

theorem F64.one1074_eq : F64.one1074 = 2 ^ 53 * F64.halfUlp := by
  unfold F64.one1074 F64.halfUlp
  rw [← pow_add]

theorem F64.halfUlp_pos : 0 < F64.halfUlp := by unfold F64.halfUlp; positivity

/-- The error of a sum whose exact value is below 2: at most 2^-53. -/
theorem F64.fadd_near {a b : F64} (ha : a.isFinite = true) (hb : b.isFinite = true)
    (h : (a.units + b.units).natAbs < 2 * F64.one1074) :
    (F64.fadd a b).isFinite = true ∧ (F64.fadd a b).units.natAbs ≤ (a.units + b.units).natAbs + F64.halfUlp := by
  have h2 : 2 * F64.one1074 = 1 * 2 ^ 1075 := by unfold F64.one1074; rw [one_mul, ← pow_succ']
  refine ⟨(F64.fadd_le ha hb (m := 1) (k := 1075) (by norm_num) (by norm_num) (h2 ▸ h.le)).1, ?_⟩
  obtain ⟨s, e, f, rfl⟩ := (F64.isFinite_iff a).mp ha
  obtain ⟨t, e', f', rfl⟩ := (F64.isFinite_iff b).mp hb
  rw [F64.fadd_fin]
  split
  · rw [F64.natAbs_units_fin]; simp [F64.mag]
  · generalize ((F64.fin s e f).units + (F64.fin t e' f').units).natAbs = z at *
    generalize decide ((F64.fin s e f).units + (F64.fin t e' f').units < 0) = neg
    obtain ⟨e2, f2, hr, -⟩ := F64.round_le neg (num := z) (den := 1) (m := 1) (k := 1075) one_pos
      (by norm_num) (by norm_num) (by rw [mul_one, ← h2]; exact h.le)
    rw [hr, F64.natAbs_units_fin]
    have h3 := (F64.round_near one_pos hr).2
    have h7 : z / 1 < 2 ^ (53 + 1022) := by
      have h8 : 2 * F64.one1074 = 2 ^ (53 + 1022) := by rw [h2, one_mul]
      rw [← h8]; omega
    have h4 : F64.quantum (z / 1) ≤ 1022 := F64.quantum_le_of_lt h7
    have h5 : 2 ^ F64.quantum (z / 1) ≤ 2 ^ 1022 := Nat.pow_le_pow_right (by norm_num) h4
    have h6 : (2 : Nat) ^ 1022 = 2 * F64.halfUlp := by unfold F64.halfUlp; rw [← pow_succ']
    generalize (2 : Nat) ^ 1022 = u at h5 h6
    omega

/-- The product of two finite data, below a representable bound of the exact product. -/
theorem F64.fmul_le {a b : F64} {m k : Nat} (ha : a.isFinite = true) (hb : b.isFinite = true) (hm : m < 2 ^ 53)
    (hk : k ≤ 2045) (h : a.units.natAbs * b.units.natAbs ≤ m * 2 ^ k * F64.one1074) :
    (F64.fmul a b).isFinite = true ∧ (F64.fmul a b).units.natAbs ≤ m * 2 ^ k := by
  obtain ⟨s, e, f, rfl⟩ := (F64.isFinite_iff a).mp ha
  obtain ⟨t, e', f', rfl⟩ := (F64.isFinite_iff b).mp hb
  rw [F64.natAbs_units_fin, F64.natAbs_units_fin] at h
  obtain ⟨e2, f2, hr, hle⟩ := F64.round_le (s ^^ t) F64.one1074_pos hm hk h
  rw [F64.fmul_fin, hr]
  exact ⟨rfl, by rw [F64.natAbs_units_fin]; exact hle⟩

/-- A factor of magnitude at most 1 does not enlarge a product. -/
theorem F64.fmul_le_right {a b : F64} (ha : a.absLeOne = true) (hb : b.isFinite = true) :
    (F64.fmul a b).isFinite = true ∧ (F64.fmul a b).units.natAbs ≤ b.units.natAbs := by
  obtain ⟨ha1, ha2⟩ := (F64.absLeOne_iff a).mp ha
  obtain ⟨t, e', f', rfl⟩ := (F64.isFinite_iff b).mp hb
  obtain ⟨m, k, hmk, hm, hk⟩ := F64.mag_form e' f'
  rw [F64.natAbs_units_fin] at *
  rw [hmk]
  refine F64.fmul_le ha1 rfl hm hk ?_
  rw [F64.natAbs_units_fin, hmk, Nat.mul_comm]
  exact Nat.mul_le_mul_left _ ha2

/-- The sum of two finite data, below a whole number (of fewer than 54 bits). -/
theorem F64.fadd_le_nat {a b : F64} {n : Nat} (ha : a.isFinite = true) (hb : b.isFinite = true) (hn : n < 2 ^ 53)
    (h : (a.units + b.units).natAbs ≤ n * F64.one1074) :
    (F64.fadd a b).isFinite = true ∧ (F64.fadd a b).units.natAbs ≤ n * F64.one1074 :=
  F64.fadd_le ha hb hn (by norm_num) h

/-- `f64(n)` is exact below 2^53 (R11). -/
theorem F64.ofNat_exact {n : Nat} (h : n < 2 ^ 53) :
    ∃ e f, F64.ofNat n = .fin false e f ∧ F64.mag e f = n * F64.one1074 :=
  F64.round_exact false one_pos h (by norm_num) (by rw [mul_one]; rfl)

/-- A product whose exact magnitude is at most 127.5, doubled so as to stay a whole number. -/
theorem F64.fmul_le_255_half {a b : F64} (ha : a.isFinite = true) (hb : b.isFinite = true)
    (h : 2 * (a.units.natAbs * b.units.natAbs) ≤ 255 * F64.one1074 * F64.one1074) :
    (F64.fmul a b).isFinite = true ∧ 2 * (F64.fmul a b).units.natAbs ≤ 255 * F64.one1074 := by
  have h1 : F64.one1074 = 2 * 2 ^ 1073 := by unfold F64.one1074; rw [← pow_succ']
  obtain ⟨u, hu⟩ : ∃ u, u = (2 : Nat) ^ 1073 := ⟨_, rfl⟩
  rw [← hu] at h1
  have h2 : a.units.natAbs * b.units.natAbs ≤ 255 * u * F64.one1074 := by
    have : 255 * F64.one1074 * F64.one1074 = 2 * (255 * u * F64.one1074) := by rw [h1]; ring
    rw [this] at h
    exact Nat.le_of_mul_le_mul_left h (by norm_num)
  obtain ⟨h3, h4⟩ := F64.fmul_le ha hb (m := 255) (k := 1073) (by norm_num) (by norm_num) (by rw [← hu]; exact h2)
  rw [← hu] at h4
  exact ⟨h3, by omega⟩

end Sys2Proof
end

