-- ==== Sys2Proof/Laws/Synth.lean ====
section
/-! SUPPORT. What the filter, the quantizer and the sequencer can do: the filter's bound, when a sample does not raise
AmplitudeOverflow, the lengths and the composition of sample runs. -/

namespace Sys2Proof.Machine

/-! The filter. -/

theorem firStep_fst (coef : Vector F64 8) (hist : Vector F64 16) (x : F64) :
    (firStep coef hist x).1 = firSum coef (firShift hist x) := by
  rw [firStep]

theorem firStep_snd (coef : Vector F64 8) (hist : Vector F64 16) (x : F64) :
    (firStep coef hist x).2 = firShift hist x := by
  rw [firStep]

/-- After the shift, slot 15 holds the newest sample and every other slot its right neighbour (R142). -/
theorem firShift_get (hist : Vector F64 16) (x : F64) (k : Fin 16) :
    (firShift hist x)[k] = if h : k.val < 15 then hist[k.val + 1] else x := by
  simp [firShift]

/-- Every slot of a history satisfies `p` after the shift, if every slot and the new sample did before. -/
theorem firShift_all {p : F64 → Prop} {hist : Vector F64 16} {x : F64} (hh : ∀ k : Fin 16, p hist[k]) (hx : p x) :
    ∀ k : Fin 16, p (firShift hist x)[k] := by
  intro k
  rw [firShift_get]
  split
  · next h => exact hh ⟨k.val + 1, by omega⟩
  · exact hx

/-- The weights are finite, and the sum of their magnitudes is at most 1 (R9, R141). -/
theorem firWeight_normalized {coef : Vector F64 8} (h : coefNormalized coef = true) :
    (∀ k, (firWeight coef k).isFinite = true) ∧
      ((List.finRange 16).map fun k => (firWeight coef k).units.natAbs).sum ≤ F64.one1074 := by
  obtain ⟨⟨l⟩, hl⟩ := coef
  obtain ⟨c0, c1, c2, c3, c4, c5, c6, c7, rfl⟩ :
      ∃ c0 c1 c2 c3 c4 c5 c6 c7, l = [c0, c1, c2, c3, c4, c5, c6, c7] := by
    have hl' : l.length = 8 := by simpa using hl
    match l, hl' with
    | [c0, c1, c2, c3, c4, c5, c6, c7], _ => exact ⟨c0, c1, c2, c3, c4, c5, c6, c7, rfl⟩
  simp only [coefNormalized, Bool.and_eq_true, decide_eq_true_eq, Vector.toList, List.all_cons, List.all_nil,
    List.map_cons, List.map_nil, List.sum_cons, List.sum_nil] at h
  obtain ⟨⟨h0, h1, h2, h3, h4, h5, h6, h7, -⟩, hs⟩ := h
  constructor
  · intro k
    fin_cases k <;> simp [firWeight, *]
  · simp only [List.finRange, List.ofFn_succ, List.ofFn_zero, List.map_cons, List.map_nil, List.sum_cons, List.sum_nil]
    simp [firWeight]
    omega

/-- A partial weighted sum, for histories of magnitude at most 1: finite, and at most what it started from, plus the
weights, plus 2^-53 a term. -/
theorem firFold_bound (hist : Vector F64 16) (w : Fin 16 → F64) (hh : ∀ k : Fin 16, (hist[k]).absLeOne = true)
    (hw : ∀ k, (w k).isFinite = true) (ks : List (Fin 16)) (y : F64) (hy : y.isFinite = true)
    (hb : y.units.natAbs + (ks.map fun k => (w k).units.natAbs).sum + ks.length * F64.halfUlp < 2 * F64.one1074) :
    (ks.foldl (fun y k => F64.fadd y (F64.fmul hist[k] (w k))) y).isFinite = true ∧
      (ks.foldl (fun y k => F64.fadd y (F64.fmul hist[k] (w k))) y).units.natAbs ≤
        y.units.natAbs + (ks.map fun k => (w k).units.natAbs).sum + ks.length * F64.halfUlp := by
  induction ks generalizing y with
  | nil => simpa using hy
  | cons k ks ih =>
    obtain ⟨hp, hpb⟩ := F64.fmul_le_right (hh k) (hw k)
    simp only [List.map_cons, List.sum_cons, List.length_cons, Nat.add_mul, Nat.one_mul, List.foldl_cons] at hb ⊢
    have habs : (y.units + (F64.fmul hist[k] (w k)).units).natAbs ≤ y.units.natAbs + (w k).units.natAbs :=
      le_trans (Int.natAbs_add_le _ _) (by omega)
    obtain ⟨hf, hfb⟩ := F64.fadd_near hy hp (by omega)
    obtain ⟨h1, h2⟩ := ih _ hf (by omega)
    exact ⟨h1, by omega⟩

/-- The filter's output is finite and exceeds 1 by at most 16 half units in the last place (R146, R147). -/
theorem firSum_bound {coef : Vector F64 8} (hc : coefNormalized coef = true) {hist : Vector F64 16}
    (hh : ∀ k : Fin 16, (hist[k]).absLeOne = true) :
    (firSum coef hist).isFinite = true ∧ (firSum coef hist).units.natAbs ≤ F64.one1074 + 16 * F64.halfUlp := by
  obtain ⟨hw, hs⟩ := firWeight_normalized hc
  have h1 := F64.one1074_eq
  have h2 := F64.halfUlp_pos
  have hlen : (List.finRange 16).length = 16 := List.length_finRange
  have := firFold_bound hist (firWeight coef) hh hw (List.finRange 16) F64.posZero rfl (by
    rw [F64.units_posZero, hlen, Int.natAbs_zero]
    omega)
  rw [F64.units_posZero, hlen, Int.natAbs_zero] at this
  exact ⟨this.1, le_trans this.2 (by omega)⟩

/-! The quantizer. -/

/-- What `q8` answers is in [-127, 127] (R159). -/
theorem q8_range {y : F64} {t : Int} (h : q8 y = some t) : -127 ≤ t ∧ t ≤ 127 := by
  unfold q8 at h
  split at h
  · cases h
  · split at h
    · cases h
    · cases h; omega

/-- `q8` does not raise on a value that exceeds 1 by at most the filter's rounding (R159). -/
theorem q8_isSome {y : F64} (hf : y.isFinite = true) (hb : y.units.natAbs ≤ F64.one1074 + 16 * F64.halfUlp) :
    ∃ t, q8 y = some t := by
  obtain ⟨e, f, ha, hm⟩ := F64.ofNat_exact (n := Config.amp) (by decide)
  have h3 := F64.one1074_eq
  have h5 := F64.one1074_pos
  have hmul : 2 * (y.units.natAbs * (F64.ofNat Config.amp).units.natAbs) ≤ 255 * F64.one1074 * F64.one1074 := by
    rw [ha, F64.natAbs_units_fin, hm]
    have : 2 * (y.units.natAbs * Config.amp) ≤ 255 * F64.one1074 := by
      simp only [Config.amp]; omega
    calc 2 * (y.units.natAbs * (Config.amp * F64.one1074)) = 2 * (y.units.natAbs * Config.amp) * F64.one1074 := by ring
      _ ≤ _ := Nat.mul_le_mul_right _ this
  obtain ⟨hvf, hvb⟩ := F64.fmul_le_255_half hf (by rw [ha]; rfl) hmul
  obtain ⟨s, e', f', hv⟩ := (F64.isFinite_iff _).mp hvf
  rw [hv] at hvb
  have htr : ((F64.fin s e' f').units.tdiv F64.one1074).natAbs ≤ 127 := by
    rw [Int.natAbs_tdiv, Int.natAbs_natCast]
    apply Nat.le_of_lt_succ
    apply Nat.div_lt_of_lt_mul
    omega
  refine ⟨(F64.fin s e' f').units.tdiv F64.one1074, ?_⟩
  unfold q8
  rw [hv]
  simp only [F64.trunc]
  rw [if_neg (by omega)]

/-- The byte 0x80 is the byte of no sample (R54, C9). -/
theorem s8ToByte_ne {t : Int} (h1 : -127 ≤ t) (h2 : t ≤ 127) : s8ToByte t ≠ 0x80#8 := by
  intro h
  have h3 := congrArg BitVec.toInt h
  rw [s8ToByte, BitVec.toInt_ofInt_eq_self (by decide) (by omega) (by omega)] at h3
  have : (0x80#8 : BitVec 8).toInt = -128 := by decide
  omega

/-! One sample. -/

/-- What a sample that raises no error answers. -/
theorem synthSample_eq_some {c : Cfg} {step : F64} {e : Bool} {o o' : Osc} {bs : List Byte}
    (h : synthSample c step e o = some (bs, o')) :
    ∃ ti tq, q8 (firStep c.coef o.histI (c.cos64 o.phase)).1 = some ti ∧
      q8 (firStep c.coef o.histQ (c.sin64 o.phase)).1 = some tq ∧
      bs = [s8ToByte ti, s8ToByte tq] ∧
      o' = ⟨firShift o.histI (c.cos64 o.phase), firShift o.histQ (c.sin64 o.phase), advancePhase step e o.phase⟩ := by
  unfold synthSample at h
  simp only at h
  split at h
  · next ti tq hi hq =>
    cases h
    exact ⟨ti, tq, hi, hq, rfl, rfl⟩
  · cases h

theorem synthSample_of_q8 {c : Cfg} {step : F64} {e : Bool} {o : Osc} {ti tq : Int}
    (hi : q8 (firStep c.coef o.histI (c.cos64 o.phase)).1 = some ti)
    (hq : q8 (firStep c.coef o.histQ (c.sin64 o.phase)).1 = some tq) :
    synthSample c step e o = some ([s8ToByte ti, s8ToByte tq],
      ⟨firShift o.histI (c.cos64 o.phase), firShift o.histQ (c.sin64 o.phase), advancePhase step e o.phase⟩) := by
  unfold synthSample
  simp only [hi, hq, firStep_snd]

/-- The registers of the sequencer as a valid configuration keeps them: histories of magnitude at most 1. -/
structure Osc.Bounded (o : Osc) : Prop where
  histI_le : ∀ k : Fin 16, (o.histI[k]).absLeOne = true
  histQ_le : ∀ k : Fin 16, (o.histQ[k]).absLeOne = true

theorem Osc.start_bounded : Osc.start.Bounded := by
  constructor <;> intro k <;> simp [Osc.start, F64.absLeOne, F64.posZero, F64.mag]

/-- On a valid configuration, a sample taken at a finite phase raises no error and keeps the histories bounded. -/
theorem synthSample_isSome {c : Cfg} (hc : c.Valid) {o : Osc} (ho : o.Bounded) (hp : o.phase.isFinite = true)
    (step : F64) (e : Bool) :
    ∃ bs o', synthSample c step e o = some (bs, o') ∧ o'.Bounded ∧ o'.phase = advancePhase step e o.phase := by
  have hi := firShift_all (p := fun x => x.absLeOne = true) ho.histI_le (c.cos_bound _ hp)
  have hq := firShift_all (p := fun x => x.absLeOne = true) ho.histQ_le (c.sin_bound _ hp)
  obtain ⟨fi, bi⟩ := firSum_bound hc.2.2.1 hi
  obtain ⟨fq, bq⟩ := firSum_bound hc.2.2.1 hq
  obtain ⟨ti, hti⟩ := q8_isSome fi bi
  obtain ⟨tq, htq⟩ := q8_isSome fq bq
  rw [← firStep_fst] at hti htq
  exact ⟨_, _, synthSample_of_q8 hti htq, ⟨hi, hq⟩, rfl⟩

/-! Runs of samples. -/

@[simp] theorem synthSamples_nil (c : Cfg) (step : F64) (o : Osc) : synthSamples c step [] o = some ([], o) := by
  rw [synthSamples, runSamples]

/-- What a run of samples that raises no error answers, from its first sample. -/
theorem synthSamples_cons_eq_some {c : Cfg} {step : F64} {e : Bool} {es : List Bool} {o o2 : Osc} {bs : List Byte} :
    synthSamples c step (e :: es) o = some (bs, o2) ↔
      ∃ b1 o1 b2, synthSample c step e o = some (b1, o1) ∧ synthSamples c step es o1 = some (b2, o2) ∧ bs = b1 ++ b2 := by
  rw [synthSamples, runSamples]
  constructor
  · intro h
    split at h
    · cases h
    · next b1 o1 h1 =>
      obtain ⟨⟨b2, o'⟩, h2, h3⟩ := Option.map_eq_some_iff.mp h
      cases h3
      exact ⟨b1, o1, b2, h1, h2, rfl⟩
  · rintro ⟨b1, o1, b2, h1, h2, rfl⟩
    rw [synthSamples] at h2
    simp [h1, h2]

/-- Two bytes a sample. -/
theorem synthSamples_length {c : Cfg} {step : F64} {es : List Bool} {o o' : Osc} {bs : List Byte}
    (h : synthSamples c step es o = some (bs, o')) : bs.length = 2 * es.length := by
  induction es generalizing o bs with
  | nil => cases h; rfl
  | cons e es ih =>
    obtain ⟨b1, o1, b2, h1, h2, rfl⟩ := synthSamples_cons_eq_some.mp h
    obtain ⟨ti, tq, -, -, rfl, -⟩ := synthSample_eq_some h1
    simp [ih h2]; omega

/-- No byte 0x80 among the packet samples. -/
theorem synthSamples_bytes {c : Cfg} {step : F64} {es : List Bool} {o o' : Osc} {bs : List Byte}
    (h : synthSamples c step es o = some (bs, o')) : ∀ b ∈ bs, b ≠ 0x80#8 := by
  induction es generalizing o bs with
  | nil => cases h; simp
  | cons e es ih =>
    obtain ⟨b1, o1, b2, h1, h2, rfl⟩ := synthSamples_cons_eq_some.mp h
    obtain ⟨ti, tq, hi, hq, rfl, -⟩ := synthSample_eq_some h1
    intro b hb
    simp only [List.mem_append, List.mem_cons, List.not_mem_nil, or_false] at hb
    rcases hb with (rfl | rfl) | hb
    · exact s8ToByte_ne (q8_range hi).1 (q8_range hi).2
    · exact s8ToByte_ne (q8_range hq).1 (q8_range hq).2
    · exact ih h2 b hb

/-- One sample of a finite phase by a step of magnitude at most 1 moves the phase by at most 1. -/
theorem advancePhase_bound {step phase : F64} {n : Nat} (hs : step.absLeOne = true) (hp : phase.isFinite = true)
    (hn : n + 1 < 2 ^ 53) (hb : phase.units.natAbs ≤ n * F64.one1074) (e : Bool) :
    (advancePhase step e phase).isFinite = true ∧
      (advancePhase step e phase).units.natAbs ≤ (n + 1) * F64.one1074 := by
  obtain ⟨hs1, hs2⟩ := (F64.absLeOne_iff step).mp hs
  have h2 : (n + 1) * F64.one1074 = n * F64.one1074 + F64.one1074 := by ring
  unfold advancePhase
  split
  · unfold F64.fsub
    refine F64.fadd_le_nat hp (by rw [F64.isFinite_neg]; exact hs1) hn ?_
    rw [F64.units_neg]
    refine le_trans (Int.natAbs_add_le _ _) ?_
    rw [Int.natAbs_neg]; omega
  · refine F64.fadd_le_nat hp hs1 hn (le_trans (Int.natAbs_add_le _ _) ?_)
    omega

/-- On a valid configuration whose phase step is at most 1, a run of fewer than 2^53 samples raises no error. -/
theorem synthSamples_isSome {c : Cfg} (hc : c.Valid) {step : F64} (hs : step.absLeOne = true) (es : List Bool)
    {o : Osc} (ho : o.Bounded) (hp : o.phase.isFinite = true) {n : Nat} (hb : o.phase.units.natAbs ≤ n * F64.one1074)
    (hn : n + es.length < 2 ^ 53) : ∃ bs o', synthSamples c step es o = some (bs, o') := by
  induction es generalizing o n with
  | nil => exact ⟨_, _, rfl⟩
  | cons e es ih =>
    simp only [List.length_cons] at hn
    obtain ⟨b1, o1, h1, ho1, hp1⟩ := synthSample_isSome hc ho hp step e
    obtain ⟨hf, hb1⟩ := advancePhase_bound hs hp (n := n) (by omega) hb e
    obtain ⟨b2, o2, h2⟩ := ih ho1 (hp1 ▸ hf) (hp1 ▸ hb1) (by omega)
    exact ⟨_, _, synthSamples_cons_eq_some.mpr ⟨b1, o1, b2, h1, h2, rfl⟩⟩

/-! A whole waveform. -/

theorem sampleBits_length (c : Cfg) (packet : List Byte) : (sampleBits c packet).length = 8 * packet.length * c.sps := by
  have h8 : ∀ p : List Byte, (p.flatMap bitsMsbFirst).length = 8 * p.length := by
    intro p
    induction p with
    | nil => rfl
    | cons b p ih => simp [bitsMsbFirst, ih]; omega
  have hs : ∀ bits : List Bool,
      (bits.flatMap fun bit => List.replicate c.sps (bit ^^ c.invert)).length = bits.length * c.sps := by
    intro bits
    induction bits with
    | nil => simp
    | cons b bits ih => simp [ih, Nat.add_mul, Nat.add_comm]
  rw [sampleBits, hs, h8]

/-- What a synthesis that raises no error answers: silence, the packet samples, silence (R160). -/
theorem synthesize_eq_some {c : Cfg} {packet bytes : List Byte} {o : Osc} :
    synthesize c packet = some (bytes, o) ↔
      ∃ body, synthSamples c (phaseStep c) (sampleBits c packet) Osc.start = some (body, o) ∧
        bytes = silence c.leadIn ++ body ++ silence c.leadOut := by
  unfold synthesize
  constructor
  · intro h
    obtain ⟨⟨body, o'⟩, h1, h2⟩ := Option.map_eq_some_iff.mp h
    cases h2
    exact ⟨body, h1, rfl⟩
  · rintro ⟨body, h1, rfl⟩
    rw [h1]; rfl

/-- On a valid configuration whose phase step is at most 1, a synthesis of fewer than 2^53 samples raises no error. -/
theorem synthesize_isSome {c : Cfg} (hc : c.Valid) (hs : (phaseStep c).absLeOne = true) {packet : List Byte}
    (hn : 8 * packet.length * c.sps < 2 ^ 53) : ∃ bytes o, synthesize c packet = some (bytes, o) := by
  obtain ⟨body, o, h⟩ := synthSamples_isSome hc hs (sampleBits c packet) Osc.start_bounded rfl (n := 0)
    (by simp [Osc.start]) (by rw [sampleBits_length]; omega)
  exact ⟨_, o, synthesize_eq_some.mpr ⟨body, h, rfl⟩⟩

/-- The length of a waveform (R155). -/
theorem synthesize_length {c : Cfg} {packet bytes : List Byte} {o : Osc} (h : synthesize c packet = some (bytes, o)) :
    bytes.length = 2 * c.pairs packet.length := by
  obtain ⟨body, h1, rfl⟩ := synthesize_eq_some.mp h
  have h2 := synthSamples_length h1
  rw [sampleBits_length] at h2
  simp only [List.length_append, silence, List.length_replicate, h2, Cfg.pairs]
  omega

/-- What is guarded by a valid configuration. -/
theorem guardConfig_valid {c : Cfg} (h : c.Valid) (r : Result) : guardConfig c r = r := if_pos h

theorem guardConfig_invalid {c : Cfg} (h : ¬c.Valid) (r : Result) : guardConfig c r = .refused .invalidConfiguration :=
  if_neg h

/-- A guarded meaning completes only under a valid configuration, and then as it says. -/
theorem guardConfig_next {c : Cfg} {r : Result} {t : State} (h : guardConfig c r = .next t) : c.Valid ∧ r = .next t := by
  unfold guardConfig at h
  split at h
  · exact ⟨‹_›, h⟩
  · cases h

/-- This hardware's configuration is valid by construction (R9; log 9). -/
theorem firCoef_normalized : coefNormalized Config.firCoef = true := by
  unfold Config.firCoef
  split
  · assumption
  · simp [coefNormalized, Vector.toList_replicate, F64.isFinite, F64.posZero, F64.units_fin, F64.mag]

theorem hw_valid : Config.hw.Valid := ⟨by decide, by decide, firCoef_normalized, Nat.min_le_right _ _⟩

/-- The phase step of this hardware (R153). -/
theorem phaseStep_hw : phaseStep Config.hw = F64.ofBits 0x3FA34D4C48E89552#64 := by decide +kernel

theorem phaseStep_hw_le : (phaseStep Config.hw).absLeOne = true := by
  rw [phaseStep_hw]; decide +kernel

end Sys2Proof.Machine
end

