-- ==== Sys2Proof/Laws/Meanings.lean ====
section
/-! SUPPORT. For each meaning, everything it can do: if it answers a next state, that state is one of those listed. The
commands that never raise are given by their one equation. -/

namespace Sys2Proof.Machine

/-! Length of a packet (R121). -/

theorem packetBytes_length (payload : List Byte) : (packetBytes payload).length = 8 + payload.length := by
  simp [packetBytes, Config.preamble, Config.sync]; omega

/-! The framer. -/

theorem execPayWr_next {idx : Nat} {b : Byte} {s t : State} (h : execPayWr idx b s = .next t) :
    (254 < idx ∧ t = s.raise .control .indexOutOfRange) ∨ (idx ≤ 254 ∧ t = (s.writePay idx b).ctlOk) := by
  unfold execPayWr at h
  split at h
  · next hi => cases h; exact .inl ⟨hi, rfl⟩
  · next hi => cases h; exact .inr ⟨by omega, rfl⟩

theorem payW_eq_false {s : State} {i : Nat} : s.payW i = false ↔ s.pay.read i = none := by
  simp [State.payW]

theorem execFrmBuild_next {len : Nat} {s t : State} (h : execFrmBuild len s = .next t) :
    (255 < len ∧ t = s.raise .control .payloadTooLarge) ∨
    (len ≤ 255 ∧ (∃ i < len, s.payW i = false) ∧ t = s.raise .control .uninitializedPayload) ∨
    (len ≤ 255 ∧ ∃ payload, s.pay.readBlock 0 len = some payload ∧ payload.length = len ∧
      t = ((s.putPacket (packetBytes payload)).setResult (natToWord (8 + len))).ctlOk) := by
  unfold execFrmBuild at h
  split at h
  · next hl => cases h; exact .inl ⟨hl, rfl⟩
  · next hl =>
    have hl' : len ≤ 255 := by simpa [Config.maxLength] using hl
    split at h
    · next hn =>
      cases h
      obtain ⟨i, hi, hr⟩ := Memory.readBlock_eq_none.mp hn
      exact .inr (.inl ⟨hl', ⟨i, hi, payW_eq_false.mpr (by simpa using hr)⟩, rfl⟩)
    · next payload hp =>
      cases h
      exact .inr (.inr ⟨hl', payload, hp, (Memory.readBlock_eq_some.mp hp).1, rfl⟩)

theorem execPktRd_next {j : Nat} {s t : State} (h : execPktRd j s = .next t) :
    (s.pktValid = false ∧ t = s.raise .control .noPacket) ∨
    (s.pktValid = true ∧ s.pktLen ≤ j ∧ t = s.raise .control .indexOutOfRange) ∨
    (s.pktValid = true ∧ j < s.pktLen ∧ ∃ b, s.pkt.read j = some b ∧ t = (s.setResult (zext32 b)).ctlOk) := by
  unfold execPktRd at h
  split at h
  · next hv => cases h; exact .inl ⟨hv, rfl⟩
  · next hv =>
    have hv' : s.pktValid = true := by simpa using hv
    split at h
    · next hj => cases h; exact .inr (.inl ⟨hv', hj, rfl⟩)
    · next hj =>
      split at h
      · cases h
      · next b hb => cases h; exact .inr (.inr ⟨hv', by omega, b, hb, rfl⟩)

/-! The synthesizer. -/

/-- The state a synthesis leaves when it raises no error (R160). -/
def State.synthesized (bytes : List Byte) (o : Osc) (s : State) : State :=
  (((s.putWave bytes).setOsc o.histI o.histQ o.phase).setResult (natToWord bytes.length)).ctlOk

theorem synRunSteps_next {c : Cfg} {s t : State} (h : synRunSteps c s = .next t) :
    (s.streamBusy = true ∧ t = s.raise .control .waveformFrozen) ∨
    (s.streamBusy = false ∧ s.pktValid = false ∧ t = s.raise .control .noPacket) ∨
    (s.streamBusy = false ∧ s.pktValid = true ∧ c.waveCap < 2 * c.pairs s.pktLen ∧
      t = s.raise .control .synthesisBufferExhausted) ∨
    (s.streamBusy = false ∧ s.pktValid = true ∧ 2 * c.pairs s.pktLen ≤ c.waveCap ∧
      ∃ packet, s.pkt.readBlock 0 s.pktLen = some packet ∧
        ((synthesize c packet = none ∧ t = s.dropWave.raise .control .amplitudeOverflow) ∨
          ∃ bytes o, synthesize c packet = some (bytes, o) ∧ t = s.synthesized bytes o)) := by
  unfold synRunSteps at h
  split at h
  · next hb => cases h; exact .inl ⟨hb, rfl⟩
  · next hb =>
    have hb' : s.streamBusy = false := by simpa using hb
    split at h
    · next hv => cases h; exact .inr (.inl ⟨hb', hv, rfl⟩)
    · next hv =>
      have hv' : s.pktValid = true := by simpa using hv
      split at h
      · next hc => cases h; exact .inr (.inr (.inl ⟨hb', hv', hc, rfl⟩))
      · next hc =>
        split at h
        · cases h
        · next packet hp =>
          refine .inr (.inr (.inr ⟨hb', hv', by omega, packet, hp, ?_⟩))
          split at h
          · next hs => cases h; exact .inl ⟨hs, rfl⟩
          · next bytes o hs => cases h; exact .inr ⟨bytes, o, hs, rfl⟩

theorem execWavRd_next {i : Nat} {s t : State} (h : execWavRd i s = .next t) :
    (s.wavValid = false ∧ t = s.raise .control .noWaveform) ∨
    (s.wavValid = true ∧ s.wlen ≤ i ∧ t = s.raise .control .indexOutOfRange) ∨
    (s.wavValid = true ∧ i < s.wlen ∧ ∃ b, s.wave.read i = some b ∧ t = (s.setResult (zext32 b)).ctlOk) := by
  unfold execWavRd at h
  split at h
  · next hv => cases h; exact .inl ⟨hv, rfl⟩
  · next hv =>
    have hv' : s.wavValid = true := by simpa using hv
    split at h
    · next hj => cases h; exact .inr (.inl ⟨hv', hj, rfl⟩)
    · next hj =>
      split at h
      · cases h
      · next b hb => cases h; exact .inr (.inr ⟨hv', by omega, b, hb, rfl⟩)

/-! The FIFO. -/

theorem execFifoArm_next {s t : State} (h : execFifoArm s = .next t) :
    (s.streamBusy = true ∧ t = s.raise .control .cursorBusy) ∨
    (s.streamBusy = false ∧ s.wavValid = false ∧ t = s.raise .control .noWaveform) ∨
    (s.streamBusy = false ∧ s.wavValid = true ∧ t = ((s.setCursor 0 s.wlen).setArmed).ctlOk) := by
  unfold execFifoArm at h
  split at h
  · next hb => cases h; exact .inl ⟨hb, rfl⟩
  · next hb =>
    have hb' : s.streamBusy = false := by simpa using hb
    split at h
    · next hv => cases h; exact .inr (.inl ⟨hb', hv, rfl⟩)
    · next hv => cases h; exact .inr (.inr ⟨hb', by simpa using hv, rfl⟩)

theorem execFifoFill_next {n : Nat} {s t : State} (h : execFifoFill n s = .next t) :
    (s.fifoState = .idle ∧ t = s.raise .sink .streamNotArmed) ∨
    (s.fifoState = .streaming ∧ ∃ bytes, s.wave.readBlock s.pos (min n s.rem.toNat) = some bytes ∧
      t = (s.setCursor (s.pos + min n s.rem.toNat) (s.rem - (min n s.rem.toNat : Nat))).sinkOk
        (if min n s.rem.toNat < n then .filledWithPadding else .filled)
        (some (bytes ++ zeros (n - min n s.rem.toNat)))) ∨
    (s.fifoState = .draining ∧ t = (s.setCursor s.pos (-1)).sinkOk .streamEnded (some (zeros n))) ∨
    (s.fifoState = .done ∧ t = s.sinkOk .allSamplesSent none) := by
  unfold execFifoFill at h
  split at h
  · next hf => cases h; exact .inl ⟨hf, rfl⟩
  · next hf =>
    unfold fillStreaming at h
    simp only at h
    split at h
    · cases h
    · next bytes hb => cases h; exact .inr (.inl ⟨hf, bytes, hb, rfl⟩)
  · next hf => unfold fillDraining at h; cases h; exact .inr (.inr (.inl ⟨hf, rfl⟩))
  · next hf => unfold fillDone at h; cases h; exact .inr (.inr (.inr ⟨hf, rfl⟩))

/-! Each meaning under the conditions of each of its branches. -/

theorem execPayWr_range {idx : Nat} (h : 254 < idx) (b : Byte) (s : State) :
    execPayWr idx b s = .next (s.raise .control .indexOutOfRange) := if_pos h

theorem execPayWr_ok {idx : Nat} (h : idx ≤ 254) (b : Byte) (s : State) :
    execPayWr idx b s = .next (s.writePay idx b).ctlOk := if_neg (by omega)

theorem execFrmBuild_large {len : Nat} (h : 255 < len) (s : State) :
    execFrmBuild len s = .next (s.raise .control .payloadTooLarge) := if_pos h

theorem execFrmBuild_unwritten {len : Nat} {s : State} (h : len ≤ 255) (hp : s.pay.readBlock 0 len = none) :
    execFrmBuild len s = .next (s.raise .control .uninitializedPayload) := by
  unfold execFrmBuild
  rw [if_neg (show ¬ Config.maxLength < len by simp only [Config.maxLength]; omega), hp]

theorem execFrmBuild_ok {len : Nat} {s : State} {payload : List Byte} (h : len ≤ 255)
    (hp : s.pay.readBlock 0 len = some payload) : execFrmBuild len s =
      .next ((s.putPacket (packetBytes payload)).setResult (natToWord (8 + len))).ctlOk := by
  unfold execFrmBuild
  rw [if_neg (show ¬ Config.maxLength < len by simp only [Config.maxLength]; omega), hp]

theorem execPktRd_noPacket {s : State} (h : s.pktValid = false) (j : Nat) :
    execPktRd j s = .next (s.raise .control .noPacket) := if_pos h

theorem execPktRd_range {s : State} {j : Nat} (h : s.pktValid = true) (hj : s.pktLen ≤ j) :
    execPktRd j s = .next (s.raise .control .indexOutOfRange) := by
  unfold execPktRd
  rw [if_neg (by simp [h]), if_pos hj]

theorem execPktRd_ok {s : State} {j : Nat} {b : Byte} (h : s.pktValid = true) (hj : j < s.pktLen)
    (hb : s.pkt.read j = some b) : execPktRd j s = .next (s.setResult (zext32 b)).ctlOk := by
  unfold execPktRd
  rw [if_neg (by simp [h]), if_neg (by omega), hb]

theorem execWavRd_noWaveform {s : State} (h : s.wavValid = false) (i : Nat) :
    execWavRd i s = .next (s.raise .control .noWaveform) := if_pos h

theorem execWavRd_range {s : State} {i : Nat} (h : s.wavValid = true) (hi : s.wlen ≤ i) :
    execWavRd i s = .next (s.raise .control .indexOutOfRange) := by
  unfold execWavRd
  rw [if_neg (by simp [h]), if_pos hi]

theorem execWavRd_ok {s : State} {i : Nat} {b : Byte} (h : s.wavValid = true) (hi : i < s.wlen)
    (hb : s.wave.read i = some b) : execWavRd i s = .next (s.setResult (zext32 b)).ctlOk := by
  unfold execWavRd
  rw [if_neg (by simp [h]), if_neg (by omega), hb]

theorem synRunSteps_frozen {s : State} (h : s.streamBusy = true) (c : Cfg) :
    synRunSteps c s = .next (s.raise .control .waveformFrozen) := if_pos h

theorem synRunSteps_noPacket {s : State} (h : s.streamBusy = false) (hv : s.pktValid = false) (c : Cfg) :
    synRunSteps c s = .next (s.raise .control .noPacket) := by
  unfold synRunSteps
  rw [if_neg (by simp [h]), if_pos hv]

theorem synRunSteps_exhausted {c : Cfg} {s : State} (h : s.streamBusy = false) (hv : s.pktValid = true)
    (hc : c.waveCap < 2 * c.pairs s.pktLen) : synRunSteps c s = .next (s.raise .control .synthesisBufferExhausted) := by
  unfold synRunSteps
  rw [if_neg (by simp [h]), if_neg (by simp [hv]), if_pos hc]

theorem synRunSteps_overflow {c : Cfg} {s : State} {packet : List Byte} (h : s.streamBusy = false)
    (hv : s.pktValid = true) (hc : 2 * c.pairs s.pktLen ≤ c.waveCap) (hp : s.pkt.readBlock 0 s.pktLen = some packet)
    (hs : synthesize c packet = none) : synRunSteps c s = .next (s.dropWave.raise .control .amplitudeOverflow) := by
  unfold synRunSteps
  rw [if_neg (by simp [h]), if_neg (by simp [hv]), if_neg (by omega), hp]
  simp only [hs]

theorem synRunSteps_ok {c : Cfg} {s : State} {packet bytes : List Byte} {o : Osc} (h : s.streamBusy = false)
    (hv : s.pktValid = true) (hc : 2 * c.pairs s.pktLen ≤ c.waveCap) (hp : s.pkt.readBlock 0 s.pktLen = some packet)
    (hs : synthesize c packet = some (bytes, o)) : synRunSteps c s = .next (s.synthesized bytes o) := by
  unfold synRunSteps
  rw [if_neg (by simp [h]), if_neg (by simp [hv]), if_neg (by omega), hp]
  simp only [hs]
  rfl

theorem execFifoArm_busy {s : State} (h : s.streamBusy = true) :
    execFifoArm s = .next (s.raise .control .cursorBusy) := if_pos h

theorem execFifoArm_noWaveform {s : State} (h : s.streamBusy = false) (hv : s.wavValid = false) :
    execFifoArm s = .next (s.raise .control .noWaveform) := by
  unfold execFifoArm
  rw [if_neg (by simp [h]), if_pos hv]

theorem execFifoArm_ok {s : State} (h : s.streamBusy = false) (hv : s.wavValid = true) :
    execFifoArm s = .next ((s.setCursor 0 s.wlen).setArmed).ctlOk := by
  unfold execFifoArm
  rw [if_neg (by simp [h]), if_neg (by simp [hv])]

theorem execFifoFill_idle {s : State} (h : s.fifoState = .idle) (n : Nat) :
    execFifoFill n s = .next (s.raise .sink .streamNotArmed) := by
  simp only [execFifoFill, h]

theorem execFifoFill_streaming {s : State} {n : Nat} {bytes : List Byte} (h : s.fifoState = .streaming)
    (hb : s.wave.readBlock s.pos (min n s.rem.toNat) = some bytes) :
    execFifoFill n s = .next ((s.setCursor (s.pos + min n s.rem.toNat) (s.rem - (min n s.rem.toNat : Nat))).sinkOk
      (if min n s.rem.toNat < n then .filledWithPadding else .filled)
      (some (bytes ++ zeros (n - min n s.rem.toNat)))) := by
  simp only [execFifoFill, h, fillStreaming, hb]

theorem execFifoFill_draining {s : State} (h : s.fifoState = .draining) (n : Nat) :
    execFifoFill n s = .next ((s.setCursor s.pos (-1)).sinkOk .streamEnded (some (zeros n))) := by
  simp only [execFifoFill, h, fillDraining]

theorem execFifoFill_done {s : State} (h : s.fifoState = .done) (n : Nat) :
    execFifoFill n s = .next (s.sinkOk .allSamplesSent none) := by
  simp only [execFifoFill, h, fillDone]

/-! No meaning refuses. -/

theorem exec_ne_refused (i : Instr) (s : State) (r : Refusal) : exec i s ≠ .refused r := by
  have hsyn : ∀ c, synRunSteps c s ≠ .refused r := by
    intro c
    unfold synRunSteps
    split <;> (try split) <;> (try split) <;> (try split) <;> (try split) <;> simp
  cases i <;> simp only [exec]
  case crcSeed => simp [execCrcSeed]
  case crcLoad => simp [execCrcLoad]
  case crcUpd => simp [execCrcUpd]
  case crcRd => simp [execCrcRd]
  case crcRdc => simp [execCrcRdc]
  case payWr => unfold execPayWr; split <;> simp
  case frmBuild => unfold execFrmBuild; split <;> (try split) <;> simp
  case pktRd => unfold execPktRd; split <;> (try split) <;> (try split) <;> simp
  case synRun => exact hsyn _
  case wavRd => unfold execWavRd; split <;> (try split) <;> (try split) <;> simp
  case fifoArm => unfold execFifoArm; split <;> (try split) <;> simp
  case fifoFill =>
    unfold execFifoFill
    split
    · simp
    · unfold fillStreaming; simp only; split <;> simp
    · simp [fillDraining]
    · simp [fillDone]

end Sys2Proof.Machine
end

