-- ==== Sys2Proof/Laws/Invariant.lean ====
section
/-! SUPPORT. The invariant under each shared operation and each kind of result a meaning builds from them. -/

namespace Sys2Proof.Machine

variable {c : Cfg}

theorem ErrorCode.code_le (e : ErrorCode) : e.code ≤ 0x0C#8 := by cases e <;> decide

theorem ErrorCode.code_ne_zero (e : ErrorCode) : e.code ≠ 0x00#8 := by cases e <;> decide

/-! The updates that touch no memory and no cursor. -/

theorem State.InvWith.raise {s : State} (h : s.InvWith c) (p : Port) (e : ErrorCode) : (s.raise p e).InvWith c := by
  have he := e.code_le
  cases p
  · exact { h with
      codes_known := ⟨he, h.codes_known.2⟩
      sticky_clear := fun hs => by simp at hs }
  · exact { h with
      codes_known := ⟨h.codes_known.1, he⟩
      sticky_clear := fun hs => by simp at hs }

theorem State.InvWith.ctlOk {s : State} (h : s.InvWith c) : s.ctlOk.InvWith c :=
  { h with
    codes_known := ⟨(by decide : 0x00#8 ≤ 0x0C#8), h.codes_known.2⟩
    sticky_clear := fun hs => ⟨rfl, (h.sticky_clear hs).2⟩ }

theorem State.InvWith.sinkOk {s : State} (h : s.InvWith c) (r : FillResult) (d : Option (List Byte)) : (s.sinkOk r d).InvWith c :=
  { h with
    codes_known := ⟨h.codes_known.1, (by decide : 0x00#8 ≤ 0x0C#8)⟩
    sticky_clear := fun hs => ⟨(h.sticky_clear hs).1, rfl⟩ }

theorem State.InvWith.setAcc {s : State} (h : s.InvWith c) (v : Half) : (s.setAcc v).InvWith c := { h with }

theorem State.InvWith.setResult {s : State} (h : s.InvWith c) (v : Word) : (s.setResult v).InvWith c := { h with }

theorem State.InvWith.setOsc {s : State} (h : s.InvWith c) (hi hq : Vector F64 16) (ph : F64) : (s.setOsc hi hq ph).InvWith c := { h with }

theorem State.InvWith.begin {s : State} (h : s.InvWith c) (rest : List PortEvent) : (s.begin rest).InvWith c := { h with }

theorem State.InvWith.answer {s : State} (h : s.InvWith c) (a : Option Answer) : State.InvWith c { s with answer := a } := { h with }

/-! The memories. -/

theorem State.InvWith.writePay {s : State} (h : s.InvWith c) {idx : Nat} (hi : idx ≤ 254) (b : Byte) : (s.writePay idx b).InvWith c :=
  { h with
    pay_wf := Memory.wf_write h.pay_wf idx b
    pay_space := fun c hc => by
      rcases Memory.mem_writeBlock (show c ∈ s.pay.writeBlock idx [b] from hc) with hc | ⟨-, hc⟩
      · exact h.pay_space c hc
      · simp at hc; omega }

theorem State.InvWith.putPacket {s : State} (h : s.InvWith c) {payload : List Byte} (hp : payload.length ≤ 255) :
    (s.putPacket (packetBytes payload)).InvWith c :=
  { h with
    pkt_wf := Memory.wf_writeBlock h.pkt_wf 0 _
    pkt_space := fun c hc => by
      rcases Memory.mem_writeBlock hc with hc | ⟨-, hc⟩
      · exact h.pkt_space c hc
      · rw [packetBytes_length] at hc; omega
    packet_sound := fun _ => ⟨payload, hp, packetBytes_length payload, Memory.readBlock_writeBlock _ _ _⟩
    packet_none := fun hv => by simp at hv }

/-- This hardware's waveforms fit the waveform memory (R156). -/
theorem pairs_hw (n : Nat) : Config.hw.pairs n = 625000 + 8000 * n := by
  have h1 : Config.hw.leadIn = 125000 := by decide
  have h2 : Config.hw.leadOut = 500000 := by decide
  have h3 : Config.hw.sps = 1000 := rfl
  unfold Cfg.pairs
  rw [h1, h2, h3]; omega

theorem waveform_fits {payload bytes : List Byte} {o : Osc} (hp : payload.length ≤ 255)
    (hs : synthesize Config.hw (packetBytes payload) = some (bytes, o)) :
    0 < bytes.length ∧ bytes.length ≤ Config.hw.waveCap := by
  have h1 := synthesize_length hs
  have h2 : Config.hw.waveCap = 5458000 := rfl
  rw [pairs_hw, packetBytes_length] at h1
  omega

/-- SYN.RUN's effect keeps the invariant in Idle and Done. -/
theorem State.InvWith.synthesized {s : State} (h : s.InvWith c) (hb : s.streamBusy = false)
    {payload bytes : List Byte} {o : Osc} (hp : payload.length ≤ 255)
    (hs : synthesize c (packetBytes payload) = some (bytes, o)) (hf : bytes.length ≤ c.waveCap) :
    (s.synthesized bytes o).InvWith c := by
  have hn : ¬ (s.armed = true ∧ 0 ≤ s.rem) := fun hn => by rw [State.streamBusy_iff.mpr hn] at hb; cases hb
  have hw : (s.putWave bytes).InvWith c :=
    { h with
      wave_wf := Memory.wf_writeBlock h.wave_wf 0 _
      wave_space := fun c hc => by
        rcases Memory.mem_writeBlock hc with hc | ⟨-, hc⟩
        · exact h.wave_space c hc
        · omega
      wave_sound := fun _ => ⟨payload, bytes, o, hp, hs, rfl, Memory.readBlock_writeBlock _ _ _⟩
      wave_fits := hf
      wave_none := fun hv => by simp at hv
      cursor_live := fun ha hr => absurd ⟨ha, hr⟩ hn }
  exact ((hw.setOsc _ _ _).setResult _).ctlOk

theorem State.InvWith.dropWave {s : State} (h : s.InvWith c) (hb : s.streamBusy = false) : s.dropWave.InvWith c := by
  have hn : ¬ (s.armed = true ∧ 0 ≤ s.rem) := fun hn => by rw [State.streamBusy_iff.mpr hn] at hb; cases hb
  exact
    { h with
      wave_wf := by rw [State.dropWave_wave]; exact Memory.wf_nil
      wave_space := fun c hc => by rw [State.dropWave_wave] at hc; cases hc
      wave_sound := fun hv => by simp at hv
      wave_fits := Nat.zero_le _
      wave_none := fun _ => rfl
      cursor_live := fun ha hr => absurd ⟨ha, hr⟩ hn }

/-! The cursor. -/

theorem State.InvWith.arm {s : State} (h : s.InvWith c) (hv : s.wavValid = true) :
    ((s.setCursor 0 s.wlen).setArmed).ctlOk.InvWith c := by
  have hc : ((s.setCursor 0 s.wlen).setArmed).InvWith c :=
    { h with
      cursor_idle := fun ha => by simp at ha
      cursor_live := fun _ _ => ⟨hv, by simp⟩
      cursor_done := ⟨by simp only [State.setArmed_rem, State.setCursor_rem]; omega, Nat.zero_le _⟩ }
  exact hc.ctlOk

theorem State.InvWith.armed_of_streaming {s : State} (h : s.InvWith c) (hf : s.fifoState = .streaming) :
    s.wavValid = true ∧ (s.pos : Int) + s.rem = s.wlen ∧ 0 < s.rem ∧ s.armed = true := by
  obtain ⟨ha, hr⟩ := State.fifoState_eq_streaming.mp hf
  obtain ⟨hv, hc⟩ := h.cursor_live ha (by omega)
  exact ⟨hv, hc, hr, ha⟩

theorem State.InvWith.advance {s : State} (h : s.InvWith c) (hf : s.fifoState = .streaming) (n : Nat) :
    (s.setCursor (s.pos + min n s.rem.toNat) (s.rem - (min n s.rem.toNat : Nat))).InvWith c := by
  obtain ⟨hv, hc, hr, ha⟩ := h.armed_of_streaming hf
  have hl := h.wave_fits
  exact
    { h with
      cursor_idle := fun hn => by rw [State.setCursor_armed, ha] at hn; cases hn
      cursor_live := fun _ _ => ⟨hv, by simp only [State.setCursor_pos, State.setCursor_rem, State.setCursor_wlen]; omega⟩
      cursor_done := ⟨by simp only [State.setCursor_rem]; omega, by simp only [State.setCursor_pos]; omega⟩ }

theorem State.InvWith.sentinel {s : State} (h : s.InvWith c) (hf : s.fifoState = .draining) : (s.setCursor s.pos (-1)).InvWith c := by
  obtain ⟨ha, -⟩ := State.fifoState_eq_draining.mp hf
  exact
    { h with
      cursor_idle := fun hn => by rw [State.setCursor_armed, ha] at hn; cases hn
      cursor_live := fun _ hr => by simp at hr
      cursor_done := ⟨by simp, h.cursor_done.2⟩ }

/-! In states of the invariant the valid memories can be read. -/

theorem State.InvWith.packet {s : State} (h : s.InvWith c) (hv : s.pktValid = true) {packet : List Byte}
    (hr : s.pkt.readBlock 0 s.pktLen = some packet) :
    ∃ payload : List Byte, payload.length ≤ 255 ∧ s.pktLen = 8 + payload.length ∧ packet = packetBytes payload := by
  obtain ⟨p, h1, h2, h3⟩ := h.packet_sound hv
  exact ⟨p, h1, h2, by rw [hr] at h3; exact Option.some.inj h3⟩

theorem State.InvWith.read_packet {s : State} (h : s.InvWith c) (hv : s.pktValid = true) {j : Nat} (hj : j < s.pktLen) :
    ∃ b, s.pkt.read j = some b := by
  obtain ⟨p, -, -, h3⟩ := h.packet_sound hv
  simpa using Option.isSome_iff_exists.mp (Memory.readBlock_isSome.mp ⟨_, h3⟩ j hj)

theorem State.InvWith.read_wave {s : State} (h : s.InvWith c) (hv : s.wavValid = true) {i : Nat} (hi : i < s.wlen) :
    ∃ b, s.wave.read i = some b := by
  obtain ⟨p, bytes, o, -, -, -, h3⟩ := h.wave_sound hv
  simpa using Option.isSome_iff_exists.mp (Memory.readBlock_isSome.mp ⟨_, h3⟩ i hi)

theorem State.InvWith.read_stream {s : State} (h : s.InvWith c) (hf : s.fifoState = .streaming) (n : Nat) :
    ∃ bytes, s.wave.readBlock s.pos (min n s.rem.toNat) = some bytes := by
  obtain ⟨hv, hc, hr, -⟩ := h.armed_of_streaming hf
  refine Memory.readBlock_isSome.mpr fun j hj => ?_
  exact Option.isSome_iff_exists.mpr (h.read_wave hv (by omega))

/-- Every packet of this hardware can be synthesized, whatever the OPEN parameters are (R146, R159). -/
theorem synthesize_hw (payload : List Byte) (hp : payload.length ≤ 255) :
    ∃ bytes o, synthesize Config.hw (packetBytes payload) = some (bytes, o) := by
  refine synthesize_isSome hw_valid phaseStep_hw_le ?_
  rw [packetBytes_length, show Config.hw.sps = 1000 from rfl]
  omega

theorem capacity_hw {n : Nat} (h : n ≤ 255) : 2 * Config.hw.pairs (8 + n) ≤ Config.hw.waveCap := by
  rw [pairs_hw, show Config.hw.waveCap = 5458000 from rfl]
  omega

end Sys2Proof.Machine
end

