-- ==== Sys2Proof/Laws/Exec.lean ====
section
/-! SUPPORT. What every command does, over all commands at once. -/

namespace Sys2Proof.Machine

theorem next_inj {a b : State} : (Host.Outcome.next a : Result) = .next b → a = b := fun h => Host.Outcome.next.inj h

/-! The configuration as a parameter (10_state.md R39). -/

/-- With this hardware's configuration a command does what `exec` says. -/
theorem execWith_hw : execWith Config.hw = exec := by
  funext i s
  cases i <;> exact guardConfig_valid hw_valid _

/-- The step relation at this hardware's configuration is its step. -/
theorem stepWith_hw : stepWith Config.hw = step := by
  funext s
  unfold stepWith step
  rw [execWith_hw, guardConfig_valid hw_valid]

/-- Under an invalid configuration every command is refused (R9, U8; log 22). -/
theorem execWith_invalid {c : Cfg} (h : ¬c.Valid) (i : Instr) (s : State) :
    execWith c i s = .refused .invalidConfiguration := by
  cases i <;> exact guardConfig_invalid h _

/-- Of the valid configurations SYN.RUN alone reads which one it is. -/
theorem execWith_exec {c : Cfg} (hc : c.Valid) {i : Instr} (h : i ≠ .synRun) (s : State) : execWith c i s = exec i s := by
  cases i with
  | synRun => exact absurd rfl h
  | _ => exact guardConfig_valid hc _

/-- All that a step can do when it answers a next state: nothing but to drive nothing, raise a decode error, run the
decoded command, answer a read, or reset. -/
theorem stepBy_next {run : Instr → State → Result} {s t : State} (he : stepBy run s = .next t) :
    (s.inputs = [] ∧ t = s.begin []) ∨ ∃ ev rest, s.inputs = ev :: rest ∧
      ((∃ p w, ev = commandEvent p w ∧
          ((∃ e, decode p w = .error e ∧ t = (s.begin rest).raise p (decodeErrorCode e)) ∨
            ∃ i, decode p w = .ok i ∧ run i (s.begin rest) = .next t)) ∨
        (∃ offset bytes v, ev = .ctlRead offset bytes ∧ (s.begin rest).portRead offset bytes = some v ∧
          t = { s.begin rest with answer := some (.value v) }) ∨
        (ev = .reset ∧ t = (s.begin rest).hardReset)) := by
  have hc : ∀ {p w u}, commandStep run p w u = .next t →
      (∃ e, decode p w = .error e ∧ t = u.raise p (decodeErrorCode e)) ∨ ∃ i, decode p w = .ok i ∧ run i u = .next t := by
    intro p w u h
    unfold commandStep at h
    split at h
    · exact .inl ⟨_, ‹_›, (next_inj h).symm⟩
    · exact .inr ⟨_, ‹_›, h⟩
  unfold stepBy at he
  split at he
  · exact .inl ⟨‹_›, (next_inj he).symm⟩
  · next ev rest hin =>
    refine .inr ⟨ev, rest, hin, ?_⟩
    cases ev with
    | ctlWrite o b w =>
      simp only [portStep] at he
      split at he
      · next ht =>
        obtain ⟨rfl, rfl⟩ : o = 0 ∧ b = 4 := by simpa [isCommandWrite] using ht
        exact .inl ⟨.control, w, rfl, hc he⟩
      · cases he
    | ctlRead o b =>
      simp only [portStep] at he
      split at he
      · cases he
      · exact .inr (.inl ⟨o, b, _, rfl, ‹_›, (next_inj he).symm⟩)
    | sinkRequest w => exact .inl ⟨.sink, w, rfl, hc he⟩
    | reset => exact .inr (.inr ⟨rfl, (next_inj he).symm⟩)

/-- A command keeps the invariant, under every configuration. -/
theorem execWith_inv {c : Cfg} {i : Instr} {s t : State} (h : s.InvWith c) (he : execWith c i s = .next t) :
    t.InvWith c := by
  cases i
  all_goals replace he := (guardConfig_next he).2
  case crcSeed => rw [← next_inj he]; exact (h.setAcc _).ctlOk
  case crcLoad v => rw [← next_inj he]; exact (h.setAcc _).ctlOk
  case crcUpd b => rw [← next_inj he]; exact (h.setAcc _).ctlOk
  case crcRd => rw [← next_inj he]; exact (h.setResult _).ctlOk
  case crcRdc => rw [← next_inj he]; exact (h.setResult _).ctlOk
  case payWr idx b =>
    rcases execPayWr_next he with ⟨-, rfl⟩ | ⟨hi, rfl⟩
    · exact h.raise _ _
    · exact (h.writePay hi b).ctlOk
  case frmBuild len =>
    rcases execFrmBuild_next he with ⟨-, rfl⟩ | ⟨-, -, rfl⟩ | ⟨hl, p, hp, hpl, rfl⟩
    · exact h.raise _ _
    · exact h.raise _ _
    · exact ((h.putPacket (by omega)).setResult _).ctlOk
  case pktRd j =>
    rcases execPktRd_next he with ⟨-, rfl⟩ | ⟨-, -, rfl⟩ | ⟨-, -, b, -, rfl⟩
    · exact h.raise _ _
    · exact h.raise _ _
    · exact (h.setResult _).ctlOk
  case synRun =>
    rcases synRunSteps_next he with ⟨-, rfl⟩ | ⟨-, -, rfl⟩ | ⟨-, -, -, rfl⟩ | ⟨hb, hv, hc, p, hp, ⟨-, rfl⟩ | ⟨bytes, o,
      hs, rfl⟩⟩
    · exact h.raise _ _
    · exact h.raise _ _
    · exact h.raise _ _
    · exact (h.dropWave hb).raise _ _
    · obtain ⟨payload, h1, h2, rfl⟩ := h.packet hv hp
      exact h.synthesized hb h1 hs (by rw [synthesize_length hs, packetBytes_length, ← h2]; exact hc)
  case wavRd j =>
    rcases execWavRd_next he with ⟨-, rfl⟩ | ⟨-, -, rfl⟩ | ⟨-, -, b, -, rfl⟩
    · exact h.raise _ _
    · exact h.raise _ _
    · exact (h.setResult _).ctlOk
  case fifoArm =>
    rcases execFifoArm_next he with ⟨-, rfl⟩ | ⟨-, -, rfl⟩ | ⟨-, hv, rfl⟩
    · exact h.raise _ _
    · exact h.raise _ _
    · exact h.arm hv
  case fifoFill n =>
    rcases execFifoFill_next he with ⟨-, rfl⟩ | ⟨hf, b, -, rfl⟩ | ⟨hf, rfl⟩ | ⟨-, rfl⟩
    · exact h.raise _ _
    · exact (h.advance hf n).sinkOk _ _
    · exact (h.sentinel hf).sinkOk _ _
    · exact h.sinkOk _ _

theorem exec_inv {i : Instr} {s t : State} (h : s.Inv) (he : exec i s = .next t) : t.Inv :=
  execWith_inv h (by rw [execWith_hw]; exact he)

/-- Every command completes in a state of the invariant, under every valid configuration. -/
theorem execWith_total {c : Cfg} (hc : c.Valid) {s : State} (h : s.InvWith c) (i : Instr) : ∃ t, execWith c i s = .next t := by
  cases i
  all_goals (show ∃ t, guardConfig c _ = .next t; rw [guardConfig_valid hc])
  case crcSeed => exact ⟨_, rfl⟩
  case crcLoad v => exact ⟨_, rfl⟩
  case crcUpd b => exact ⟨_, rfl⟩
  case crcRd => exact ⟨_, rfl⟩
  case crcRdc => exact ⟨_, rfl⟩
  case payWr idx b =>
    by_cases hi : idx ≤ 254
    · exact ⟨_, execPayWr_ok hi b s⟩
    · exact ⟨_, execPayWr_range (by omega) b s⟩
  case frmBuild len =>
    by_cases hi : len ≤ 255
    · cases hp : s.pay.readBlock 0 len
      · exact ⟨_, execFrmBuild_unwritten hi hp⟩
      · exact ⟨_, execFrmBuild_ok hi hp⟩
    · exact ⟨_, execFrmBuild_large (by omega) s⟩
  case pktRd j =>
    cases hv : s.pktValid
    · exact ⟨_, execPktRd_noPacket hv j⟩
    · by_cases hj : j < s.pktLen
      · obtain ⟨b, hb⟩ := h.read_packet hv hj
        exact ⟨_, execPktRd_ok hv hj hb⟩
      · exact ⟨_, execPktRd_range hv (by omega)⟩
  case synRun =>
    cases hb : s.streamBusy
    · cases hv : s.pktValid
      · exact ⟨_, synRunSteps_noPacket hb hv _⟩
      · obtain ⟨p, -, -, hp⟩ := h.packet_sound hv
        by_cases hc : 2 * c.pairs s.pktLen ≤ c.waveCap
        · cases hs : synthesize c (packetBytes p)
          · exact ⟨_, synRunSteps_overflow hb hv hc hp hs⟩
          · exact ⟨_, synRunSteps_ok hb hv hc hp hs⟩
        · exact ⟨_, synRunSteps_exhausted hb hv (by omega)⟩
    · exact ⟨_, synRunSteps_frozen hb _⟩
  case wavRd j =>
    cases hv : s.wavValid
    · exact ⟨_, execWavRd_noWaveform hv j⟩
    · by_cases hj : j < s.wlen
      · obtain ⟨b, hb⟩ := h.read_wave hv hj
        exact ⟨_, execWavRd_ok hv hj hb⟩
      · exact ⟨_, execWavRd_range hv (by omega)⟩
  case fifoArm =>
    cases hb : s.streamBusy
    · cases hv : s.wavValid
      · exact ⟨_, execFifoArm_noWaveform hb hv⟩
      · exact ⟨_, execFifoArm_ok hb hv⟩
    · exact ⟨_, execFifoArm_busy hb⟩
  case fifoFill n =>
    cases hf : s.fifoState
    · exact ⟨_, execFifoFill_idle hf n⟩
    · obtain ⟨b, hb⟩ := h.read_stream hf n
      exact ⟨_, execFifoFill_streaming hf hb⟩
    · exact ⟨_, execFifoFill_draining hf n⟩
    · exact ⟨_, execFifoFill_done hf n⟩

theorem exec_total {s : State} (h : s.Inv) (i : Instr) : ∃ t, exec i s = .next t := by
  rw [← execWith_hw]; exact execWith_total hw_valid h i

/-- A control command succeeds, raises an error and writes nothing else, or is the SYN.RUN that AmplitudeOverflow aborts
(R203). -/
theorem exec_control {i : Instr} {s t : State} (hp : i.port = .control) (he : exec i s = .next t) :
    (t.lastErr = 0#8 ∧ t.sticky = s.sticky) ∨ (∃ e : ErrorCode, e ≠ .amplitudeOverflow ∧ t = s.raise .control e) ∨
    (i = .synRun ∧ t = s.dropWave.raise .control .amplitudeOverflow ∧ ∃ p, s.pkt.readBlock 0 s.pktLen = some p ∧
      s.pktValid = true ∧ synthesize Config.hw p = none) := by
  cases i with
  | crcSeed => rw [← next_inj he]; exact .inl ⟨rfl, rfl⟩
  | crcLoad v => rw [← next_inj he]; exact .inl ⟨rfl, rfl⟩
  | crcUpd b => rw [← next_inj he]; exact .inl ⟨rfl, rfl⟩
  | crcRd => rw [← next_inj he]; exact .inl ⟨rfl, rfl⟩
  | crcRdc => rw [← next_inj he]; exact .inl ⟨rfl, rfl⟩
  | payWr idx b =>
    rcases execPayWr_next he with ⟨-, rfl⟩ | ⟨hi, rfl⟩
    · exact .inr (.inl ⟨_, by decide, rfl⟩)
    · exact .inl ⟨rfl, rfl⟩
  | frmBuild len =>
    rcases execFrmBuild_next he with ⟨-, rfl⟩ | ⟨-, -, rfl⟩ | ⟨hl, p, hp, hpl, rfl⟩
    · exact .inr (.inl ⟨_, by decide, rfl⟩)
    · exact .inr (.inl ⟨_, by decide, rfl⟩)
    · exact .inl ⟨rfl, rfl⟩
  | pktRd j =>
    rcases execPktRd_next he with ⟨-, rfl⟩ | ⟨-, -, rfl⟩ | ⟨-, -, b, -, rfl⟩
    · exact .inr (.inl ⟨_, by decide, rfl⟩)
    · exact .inr (.inl ⟨_, by decide, rfl⟩)
    · exact .inl ⟨rfl, rfl⟩
  | synRun =>
    rcases synRunSteps_next he with ⟨-, rfl⟩ | ⟨-, -, rfl⟩ | ⟨-, -, -, rfl⟩ | ⟨hb, hv, hc, p, hp, ⟨hn, rfl⟩ | ⟨bytes,
      o, hs, rfl⟩⟩
    · exact .inr (.inl ⟨_, by decide, rfl⟩)
    · exact .inr (.inl ⟨_, by decide, rfl⟩)
    · exact .inr (.inl ⟨_, by decide, rfl⟩)
    · exact .inr (.inr ⟨rfl, rfl, p, hp, hv, hn⟩)
    · exact .inl ⟨rfl, rfl⟩
  | wavRd j =>
    rcases execWavRd_next he with ⟨-, rfl⟩ | ⟨-, -, rfl⟩ | ⟨-, -, b, -, rfl⟩
    · exact .inr (.inl ⟨_, by decide, rfl⟩)
    · exact .inr (.inl ⟨_, by decide, rfl⟩)
    · exact .inl ⟨rfl, rfl⟩
  | fifoArm =>
    rcases execFifoArm_next he with ⟨-, rfl⟩ | ⟨-, -, rfl⟩ | ⟨-, hv, rfl⟩
    · exact .inr (.inl ⟨_, by decide, rfl⟩)
    · exact .inr (.inl ⟨_, by decide, rfl⟩)
    · exact .inl ⟨rfl, rfl⟩
  | fifoFill n => cases hp

/-- What a command leaves while the stream is busy (R66, R67). -/
theorem exec_busy {i : Instr} {s t : State} (hb : s.streamBusy = true) (he : exec i s = .next t) :
    t.wave = s.wave ∧ t.wlen = s.wlen ∧ t.wavValid = s.wavValid ∧ ((∀ n, i ≠ .fifoFill n) → t.pos = s.pos ∧
      t.rem = s.rem ∧ t.armed = s.armed) := by
  cases i with
  | crcSeed => rw [← next_inj he]; simp
  | crcLoad v => rw [← next_inj he]; simp
  | crcUpd b => rw [← next_inj he]; simp
  | crcRd => rw [← next_inj he]; simp
  | crcRdc => rw [← next_inj he]; simp
  | payWr idx b =>
    rcases execPayWr_next he with ⟨-, rfl⟩ | ⟨hi, rfl⟩ <;> simp
  | frmBuild len =>
    rcases execFrmBuild_next he with ⟨-, rfl⟩ | ⟨-, -, rfl⟩ | ⟨hl, p, hp, hpl, rfl⟩ <;> simp
  | pktRd j =>
    rcases execPktRd_next he with ⟨-, rfl⟩ | ⟨-, -, rfl⟩ | ⟨-, -, b, -, rfl⟩ <;> simp
  | synRun =>
    rw [show exec .synRun s = _ from synRunSteps_frozen hb _] at he
    rw [← next_inj he]; simp
  | wavRd j =>
    rcases execWavRd_next he with ⟨-, rfl⟩ | ⟨-, -, rfl⟩ | ⟨-, -, b, -, rfl⟩ <;> simp
  | fifoArm =>
    rw [show exec .fifoArm s = _ from execFifoArm_busy hb] at he
    rw [← next_inj he]; simp
  | fifoFill n =>
    rcases execFifoFill_next he with ⟨-, rfl⟩ | ⟨hf, b, -, rfl⟩ | ⟨hf, rfl⟩ | ⟨-, rfl⟩ <;> simp

/-- FIFO.FILL does not decode on the control port (R210). -/
theorem decode_control_ne {w : Word} {i : Instr} (hd : decode .control w = .ok i) : ∀ n, i ≠ .fifoFill n := by
  obtain ⟨r, hm, -, hp, -, rfl⟩ := decode_eq_ok.mp hd
  clear hd
  simp only [opTable, List.mem_cons, List.not_mem_nil, or_false] at hm
  rcases hm with rfl | rfl | rfl | rfl | rfl | rfl | rfl | rfl | rfl | rfl | rfl | rfl <;> first | (cases hp; done) |
    (intro n h; cases h)

/-- Only FIFO.FILL decodes on the sink port (R210). -/
theorem decode_sink_eq {w : Word} {i : Instr} (hd : decode .sink w = .ok i) : ∃ n, i = .fifoFill n := by
  obtain ⟨r, hm, -, hp, -, rfl⟩ := decode_eq_ok.mp hd
  clear hd
  simp only [opTable, List.mem_cons, List.not_mem_nil, or_false] at hm
  rcases hm with rfl | rfl | rfl | rfl | rfl | rfl | rfl | rfl | rfl | rfl | rfl | rfl <;>
    first | (cases hp; done) | exact ⟨_, rfl⟩

end Sys2Proof.Machine
end

