-- ==== Sys2Proof/Laws/PerInstr.lean ====
section
/-! SUPPORT. Families of statements about every command as syntax, one lemma per constructor. -/

namespace Sys2Proof

/-- A word made of an opcode and a low field of `k` bits has its reserved bits 0. -/
theorem reserved_zero {op : BitVec 8} {k : Nat} (v : BitVec k) (hk : k ≤ 24) :
    (place op 24 ||| place v 0).extractLsb' k (24 - k) = 0#(24 - k) := by
  rw [extract_or, extract_place_other op 24 k (24 - k) (by omega), extract_place_other v 0 k (24 - k) (by omega)]
  simp

theorem reserved_zero_IB {op idx : BitVec 8} (b : Byte) : (encodeIB op idx b).extractLsb' 16 8 = 0#8 := by
  rw [encodeIB, extract_or, extract_or, extract_place_other op 24 16 8 (by omega),
    extract_place_other idx 8 16 8 (by omega), extract_place_other b 0 16 8 (by omega)]
  simp

end Sys2Proof

namespace Sys2Proof.Laws.Pattern

open Sys2Proof

/-- The word of a well-formed command has the match and mask of a row of the opcode map, and the row's port and opcode
are the command's (30_encoding.md R77). -/
def Statement (i : Instr) : Prop :=
  i.WellFormed → ∃ r ∈ opTable, r.port = i.port ∧ opOf (encode i) = r.op ∧ encode i &&& r.mask = r.pattern

theorem crcSeed : Statement .crcSeed := by unfold Statement; decide

theorem crcLoad (imm16 : Half) : Statement (.crcLoad imm16) := fun _ =>
  ⟨⟨0x02#8, .control, 0x02000000#32, 0xFFFF0000#32, fun w => .crcLoad (fieldImm16 w)⟩, by simp [opTable], rfl,
    opOf_encodeI16 _ _, (mask_crcLoad _).mpr ⟨opOf_encodeI16 _ _, reserved_zero imm16 (by omega)⟩⟩

theorem crcUpd (b : Byte) : Statement (.crcUpd b) := fun _ =>
  ⟨⟨0x03#8, .control, 0x03000000#32, 0xFFFFFF00#32, fun w => .crcUpd (fieldB w)⟩, by simp [opTable], rfl,
    opOf_encodeB8 _ _, (mask_crcUpd _).mpr ⟨opOf_encodeB8 _ _, reserved_zero b (by omega)⟩⟩

theorem crcRd : Statement .crcRd := by unfold Statement; decide

theorem crcRdc : Statement .crcRdc := by unfold Statement; decide

theorem payWr (idx : Nat) (b : Byte) : Statement (.payWr idx b) := fun _ =>
  ⟨⟨0x10#8, .control, 0x10000000#32, 0xFFFF0000#32, fun w => .payWr (fieldIdx w).toNat (fieldB w)⟩, by simp [opTable], rfl,
    opOf_encodeIB _ _ _, (mask_payWr _).mpr ⟨opOf_encodeIB _ _ _, reserved_zero_IB b⟩⟩

theorem frmBuild (len : Nat) : Statement (.frmBuild len) := fun _ =>
  ⟨⟨0x11#8, .control, 0x11000000#32, 0xFFFF0000#32, fun w => .frmBuild (fieldImm16 w).toNat⟩, by simp [opTable], rfl,
    opOf_encodeI16 _ _, (mask_frmBuild _).mpr ⟨opOf_encodeI16 _ _, reserved_zero _ (by omega)⟩⟩

theorem pktRd (j : Nat) : Statement (.pktRd j) := fun _ =>
  ⟨⟨0x12#8, .control, 0x12000000#32, 0xFFFF0000#32, fun w => .pktRd (fieldImm16 w).toNat⟩, by simp [opTable], rfl,
    opOf_encodeI16 _ _, (mask_pktRd _).mpr ⟨opOf_encodeI16 _ _, reserved_zero _ (by omega)⟩⟩

theorem synRun : Statement .synRun := by unfold Statement; decide

theorem wavRd (i : Nat) : Statement (.wavRd i) := fun _ =>
  ⟨⟨0x21#8, .control, 0x21000000#32, 0xFF000000#32, fun w => .wavRd (fieldU24 w).toNat⟩, by simp [opTable], rfl,
    opOf_encodeU24 _ _, (mask_wavRd _).mpr ⟨opOf_encodeU24 _ _, reserved_zero (BitVec.ofNat 24 i) (by omega)⟩⟩

theorem fifoArm : Statement .fifoArm := by unfold Statement; decide

theorem fifoFill (n : Nat) : Statement (.fifoFill n) := fun _ =>
  ⟨⟨0x31#8, .sink, 0x31000000#32, 0xFF000000#32, fun w => .fifoFill (fieldU24 w).toNat⟩, by simp [opTable], rfl,
    opOf_encodeU24 _ _, (mask_fifoFill _).mpr ⟨opOf_encodeU24 _ _, reserved_zero (BitVec.ofNat 24 n) (by omega)⟩⟩

end Sys2Proof.Laws.Pattern
end

