-- ==== Sys2Proof/Laws/Rounding.lean ====
section
/-! SUPPORT. What one rounding does (43_synth.md R150), in the terms of Safety.lean, and the exact products and sums. -/

namespace Sys2Proof.Machine

theorem lsb_even {n : Nat} (h : n % 2 = 0) : (BitVec.ofNat 52 n).getLsbD 0 = false := by
  rw [BitVec.getLsbD_ofNat]; simp [Nat.testBit_zero, h]

/-- `F64.round` rounds to nearest, ties to even, and overflows where IEEE 754-2008 says. -/
theorem roundsTo_round (neg : Bool) {num den : Nat} (hd : 0 < den) : RoundsTo neg num den (F64.round neg num den) := by
  obtain ⟨q, hq⟩ : ∃ q, q = F64.quantum (num / den) := ⟨_, rfl⟩
  obtain ⟨n, hn⟩ : ∃ n, n = F64.significandOf num den := ⟨_, rfl⟩
  have hD : 0 < den * 2 ^ q := Nat.mul_pos hd (by positivity)
  have near : 2 * num ≤ (2 * n + 1) * (den * 2 ^ q) ∧ 2 * n * (den * 2 ^ q) ≤ 2 * num + den * 2 ^ q := by
    rw [hn, hq]; exact F64.nearestEven_near (by rw [← hq]; exact hD)
  have tie : 2 * num = (2 * n + 1) * (den * 2 ^ q) ∨ 2 * n * (den * 2 ^ q) = 2 * num + den * 2 ^ q → n % 2 = 0 := by
    rw [hn, hq]; exact F64.nearestEven_tie (by rw [← hq]; exact hD)
  have n_le : n ≤ 2 ^ 53 := by rw [hn]; exact F64.significandOf_le hd
  have n_ge : 0 < q → 2 ^ 52 ≤ n := by rw [hn, hq]; exact F64.le_significandOf hd
  have num_ge : 0 < q → 2 ^ 52 * (den * 2 ^ q) ≤ num := by
    intro h
    have h1 := (Nat.le_div_iff_mul_le hd).mp (F64.quantum_le (num / den) (by rw [← hq]; exact h))
    rw [← hq, pow_add] at h1
    calc 2 ^ 52 * (den * 2 ^ q) = 2 ^ 52 * 2 ^ q * den := by ring
      _ ≤ num := h1
  obtain ⟨x, hx⟩ : ∃ x, x = 2044 := ⟨_, rfl⟩
  have hx98 : 2098 = 54 + x := by omega
  have hx45 : 2045 = x + 1 := by omega
  have mf := F64.mag_form
  have rs := F64.round_spec neg (num := num) hd
  unfold RoundsTo
  rw [hx98] at rs
  rw [hx45] at mf
  rw [hx98, ← hx]
  obtain ⟨P, hP⟩ : ∃ P, P = (2 : Nat) ^ x := ⟨_, rfl⟩
  have hPpos : 0 < P := by rw [hP]; positivity
  have e98 : (2 : Nat) ^ (54 + x) = 2 ^ 54 * P := by rw [hP, ← pow_add]
  rw [e98] at rs
  rw [e98, ← hP]
  obtain ⟨N0, hN0⟩ : ∃ N0, N0 + 1 = 2 ^ 54 := ⟨2 ^ 54 - 1, by norm_num⟩
  have thr : 2 ^ 54 * P - P = N0 * P := by rw [← hN0, Nat.add_mul, one_mul, Nat.add_sub_cancel]
  rw [thr]
  clear hx98 hx45 hx
  rcases rs with ⟨hr, hbig⟩ | ⟨e, f, hr, hmag, hf⟩
  · left
    refine ⟨?_, hr⟩
    rw [← hn, ← hq] at hbig
    by_cases h46 : x + 2 ≤ q
    · have h1 : 2 ^ (x + 2) ≤ 2 ^ q := Nat.pow_le_pow_right (by norm_num) h46
      have h2 : (2 : Nat) ^ (x + 2) = 4 * P := by rw [hP, pow_add]; ring
      rw [h2] at h1
      calc N0 * P * den ≤ 2 ^ 52 * (den * (4 * P)) := by
            have : 2 ^ 52 * (den * (4 * P)) = 2 ^ 54 * P * den := by ring
            rw [this]; exact Nat.mul_le_mul_right _ (Nat.mul_le_mul_right _ (by omega))
        _ ≤ 2 ^ 52 * (den * 2 ^ q) := Nat.mul_le_mul_left _ (Nat.mul_le_mul_left _ h1)
        _ ≤ num := num_ge (by omega)
    · have h45 : x + 1 ≤ q := by
        by_contra hc
        have h1 : 2 ^ q ≤ 2 ^ x := Nat.pow_le_pow_right (by norm_num) (by omega)
        rw [← hP] at h1
        have : n * 2 ^ q ≤ 2 ^ 53 * P := Nat.mul_le_mul n_le h1
        have : 2 ^ 54 * P ≤ 2 ^ 53 * P := le_trans hbig this
        omega
      have hq45 : q = x + 1 := by omega
      have h2 : (2 : Nat) ^ q = 2 * P := by rw [hq45, hP, pow_succ]; ring
      rw [h2] at hbig near
      have hn53 : n = 2 ^ 53 := by
        refine le_antisymm n_le ?_
        by_contra hc
        have : n ≤ 2 ^ 53 - 1 := by omega
        have : n * (2 * P) ≤ (2 ^ 53 - 1) * (2 * P) := Nat.mul_le_mul_right _ this
        omega
      have h3 := near.2
      rw [hn53] at h3
      have h4 : 2 * 2 ^ 53 * (den * (2 * P)) = 2 * (2 ^ 54 * P * den) := by ring
      have h5 : den * (2 * P) = 2 * (P * den) := by ring
      have h6 : N0 * P * den = 2 ^ 54 * P * den - P * den := by
        rw [← hN0]; have : (N0 + 1) * P * den = N0 * P * den + P * den := by ring
        rw [this, Nat.add_sub_cancel]
      rw [h4, h5] at h3
      rw [h6]
      omega
  · right
    rw [← hn, ← hq] at hmag
    rw [← hn] at hf
    constructor
    · by_contra hc
      have hc := not_lt.mp hc
      -- magnitude of a finite number
      have hlt : F64.mag e f < 2 ^ 54 * P := by
        obtain ⟨m, k, hmk, hm, hk⟩ := mf e f
        have h1 : 2 ^ k ≤ 2 ^ (x + 1) := Nat.pow_le_pow_right (by norm_num) hk
        have h2 : (2 : Nat) ^ (x + 1) = 2 * P := by rw [hP, pow_succ]; ring
        rw [hmk]
        calc m * 2 ^ k < 2 ^ 53 * 2 ^ k := Nat.mul_lt_mul_of_pos_right hm (by positivity)
          _ ≤ 2 ^ 53 * (2 * P) := Nat.mul_le_mul_left _ (h2 ▸ h1)
          _ = 2 ^ 54 * P := by ring
      rw [hmag] at hlt
      by_cases h45 : q ≤ x
      · have h1 : 2 ^ q ≤ 2 ^ x := Nat.pow_le_pow_right (by norm_num) h45
        rw [← hP] at h1
        have h3 : (2 * n + 1) * (den * 2 ^ q) ≤ (2 ^ 54 + 1) * (den * P) :=
          Nat.mul_le_mul (by omega) (Nat.mul_le_mul_left _ h1)
        have h4 : 2 * (N0 * P * den) = (2 * N0) * (den * P) := by
          ring
        have h5 : 0 < den * P := Nat.mul_pos hd hPpos
        have h6 : 2 * (N0 * P * den) ≤ 2 * num := Nat.mul_le_mul_left _ hc
        rw [h4] at h6
        have h7 := Nat.le_of_mul_le_mul_right (le_trans h6 (le_trans near.1 h3)) h5
        omega
      · have hq45 : q = x + 1 := by
          by_contra hne
          have h1 : 2 ^ (x + 2) ≤ 2 ^ q := Nat.pow_le_pow_right (by norm_num) (by omega)
          have h2 : (2 : Nat) ^ (x + 2) = 4 * P := by rw [hP, pow_add]; ring
          rw [h2] at h1
          have : 2 ^ 52 * (4 * P) ≤ n * 2 ^ q := Nat.mul_le_mul (n_ge (by omega)) h1
          omega
        have h2 : (2 : Nat) ^ q = 2 * P := by rw [hq45, hP, pow_succ]; ring
        rw [h2] at hlt near tie
        have hn53 : n ≤ 2 ^ 53 - 1 := by
          by_contra hcc
          have : 2 ^ 53 ≤ n := by omega
          have : 2 ^ 53 * (2 * P) ≤ n * (2 * P) := Nat.mul_le_mul_right _ this
          omega
        obtain ⟨R, hR⟩ : ∃ R, R = den * (2 * P) := ⟨_, rfl⟩
        have hRpos : 0 < R := by rw [hR]; exact Nat.mul_pos hd (by omega)
        rw [← hR] at near tie
        have h4 : 2 * (N0 * P * den) = N0 * R := by
          rw [hR]
          ring
        have h6 : 2 * (N0 * P * den) ≤ 2 * num := Nat.mul_le_mul_left _ hc
        rw [h4] at h6
        have h7 : (2 * n + 1) * R ≤ N0 * R := Nat.mul_le_mul_right _ (by omega)
        have heq : 2 * num = (2 * n + 1) * R := le_antisymm near.1 (le_trans h7 h6)
        have hodd := tie (.inl heq)
        have h8 : N0 * R ≤ (2 * n + 1) * R := by rw [← heq]; exact h6
        have := Nat.le_of_mul_le_mul_right h8 hRpos
        omega
    · refine ⟨e, f, hr, fun e' f' => ?_⟩
      rw [hmag]
      obtain ⟨m, k, hmk, hm, hk⟩ := mf e' f'
      obtain ⟨D, hDe⟩ : ∃ D, D = den * 2 ^ q := ⟨_, rfl⟩
      rw [← hDe] at near tie num_ge hD
      have eA : ((n * 2 ^ q : Nat) : Int) * den = (n * D : Nat) := by rw [hDe]; push_cast; ring
      have key : ((n * 2 ^ q : Nat) : Int) * den - num = ((n * D : Nat) : Int) - num := by rw [eA]
      rw [key]
      by_cases hkq : q ≤ k
      · obtain ⟨j, hj⟩ : ∃ j, j = m * 2 ^ (k - q) := ⟨_, rfl⟩
        have hc : F64.mag e' f' = j * 2 ^ q := by
          rw [hmk, hj, mul_assoc, ← pow_add, Nat.sub_add_cancel hkq]
        have eC : ((F64.mag e' f' : Nat) : Int) * den - num = ((j * D : Nat) : Int) - num := by
          rw [hc, hDe]; push_cast; ring
        rw [eC]
        rcases Nat.lt_trichotomy j n with hjn | hjn | hjn
        · have h1 : (j + 1) * D ≤ n * D := Nat.mul_le_mul_right _ hjn
          rw [Nat.add_mul, one_mul] at h1
          have h2 : 2 * n * D = 2 * (n * D) := by ring
          have h3 : (2 * n + 1) * D = 2 * (n * D) + D := by ring
          rw [h2] at near tie; rw [h3] at near tie
          refine ⟨by omega, fun he => .inr ?_⟩
          rw [hf]; exact lsb_even (tie (by omega))
        · subst hjn
          exact ⟨le_refl _, fun _ => .inl hc.symm⟩
        · have h1 : (n + 1) * D ≤ j * D := Nat.mul_le_mul_right _ hjn
          rw [Nat.add_mul, one_mul] at h1
          have h2 : 2 * n * D = 2 * (n * D) := by ring
          have h3 : (2 * n + 1) * D = 2 * (n * D) + D := by ring
          rw [h2] at near tie; rw [h3] at near tie
          refine ⟨by omega, fun he => .inr ?_⟩
          rw [hf]; exact lsb_even (tie (by omega))
      · have hq0 : 0 < q := by omega
        have hN := num_ge hq0
        have hnn := n_ge hq0
        have hc : F64.mag e' f' * den < 2 ^ 52 * D := by
          rw [hmk, hDe]
          have h1 : 2 ^ k ≤ 2 ^ (q - 1) := Nat.pow_le_pow_right (by norm_num) (by omega)
          have h2 : (2 : Nat) ^ q = 2 * 2 ^ (q - 1) := by rw [← pow_succ']; congr 1; omega
          calc m * 2 ^ k * den < 2 ^ 53 * 2 ^ k * den :=
                Nat.mul_lt_mul_of_pos_right (Nat.mul_lt_mul_of_pos_right hm (by positivity)) hd
            _ ≤ 2 ^ 53 * 2 ^ (q - 1) * den := Nat.mul_le_mul_right _ (Nat.mul_le_mul_left _ h1)
            _ = 2 ^ 52 * (den * 2 ^ q) := by rw [h2]; ring
        have eC : ((F64.mag e' f' : Nat) : Int) * den - num = ((F64.mag e' f' * den : Nat) :
          Int) - num := by push_cast; ring
        rw [eC]
        have h1 : 2 ^ 52 * D ≤ n * D := Nat.mul_le_mul_right _ hnn
        have h2 : 2 * n * D = 2 * (n * D) := by ring
        have h3 : (2 * n + 1) * D = 2 * (n * D) + D := by ring
        rw [h2, h3] at near
        generalize hc2 : F64.mag e' f' * den = C at hc
        by_cases hnD : n * D ≤ num
        · exact ⟨by omega, fun he => by omega⟩
        · have hn1 : (2 ^ 52 + 1) * D ≤ n * D := by
            refine Nat.mul_le_mul_right _ ?_
            by_contra hcc
            have : n = 2 ^ 52 := by omega
            rw [this] at hnD; omega
          rw [Nat.add_mul, one_mul] at hn1
          exact ⟨by omega, fun he => by omega⟩

theorem round_zero (neg : Bool) (den : Nat) : F64.round neg 0 den = .fin neg 0 0#52 := by
  unfold F64.round F64.quantum F64.nearestEven F64.pack
  simp

/-- A sum is -0.0 only of two negative zeros (42_fir.md R149). -/
theorem fadd_ne_negZero {a b : F64} (h : a ≠ .fin true 0 0#52) : F64.fadd a b ≠ .fin true 0 0#52 := by
  have magz : ∀ (e : Fin 2047) (f : BitVec 52), F64.mag e f = 0 → e = 0 ∧ f = 0#52 := by
    intro e f hm
    unfold F64.mag at hm
    split at hm
    · next h0 => exact ⟨Fin.ext h0, by apply BitVec.eq_of_toNat_eq; simpa using hm⟩
    · have : 0 < (2 ^ 52 + f.toNat) * 2 ^ (e.val - 1) := by positivity
      omega
  cases a with
  | nan => unfold F64.fadd; cases b <;> simp
  | inf s => unfold F64.fadd; cases b <;> simp; split <;> simp
  | fin s e f =>
    cases b with
    | nan => unfold F64.fadd; simp
    | inf t => unfold F64.fadd; simp
    | fin t e' f' =>
      rw [F64.fadd_fin]
      split
      · next hz =>
        intro hc
        have hs : (s && t) = true := by injection hc
        simp only [Bool.and_eq_true] at hs
        obtain ⟨rfl, rfl⟩ := hs
        simp only [F64.units_fin, if_true] at hz
        obtain ⟨h1, h2⟩ := magz e f (by omega)
        subst h1 h2
        exact h rfl
      · next hz =>
        intro hc
        have hnear := F64.round_spec (decide ((F64.fin s e f).units + (F64.fin t e' f').units < 0)) (num :=
          ((F64.fin s e f).units + (F64.fin t e' f').units).natAbs) one_pos
        rcases hnear with ⟨h1, -⟩ | ⟨e2, f2, h1, h2, -⟩
        · rw [h1] at hc; cases hc
        · -- magnitude at least 1 unit
          obtain ⟨z, hzz⟩ : ∃ z, z = ((F64.fin s e f).units + (F64.fin t e' f').units).natAbs := ⟨_, rfl⟩
          rw [← hzz] at h1 h2 hc
          have hz1 : 1 ≤ z := by omega
          have h3 := F64.le_round (num := z) (den := 1) (m := 1) (k := 0) one_pos (by norm_num) (by omega) h1
          rw [h1] at hc
          injection hc with _ ha hb
          subst ha hb
          simp [F64.mag] at h3

/-- A product by 1.0 is exact. -/
theorem fmul_one_left {b : F64} (hb : b.isFinite = true) : (F64.fmul F64.one b).isFinite = true ∧
    (F64.fmul F64.one b).units = b.units := by
  obtain ⟨t, e, f, rfl⟩ := (F64.isFinite_iff b).mp hb
  have h1 : F64.one = .fin false 1023 0#52 := rfl
  have hm : F64.mag 1023 0#52 = F64.one1074 := by decide +kernel
  obtain ⟨m, k, hmk, hm1, hk⟩ := F64.mag_form e f
  obtain ⟨e2, f2, h2, h3⟩ := F64.round_exact t (num := F64.mag 1023 0#52 * F64.mag e f) (den := F64.one1074) (m := m)
    (k := k) F64.one1074_pos hm1 hk (by rw [hm, hmk]; ring)
  rw [h1, F64.fmul_fin, Bool.false_xor, h2]
  refine ⟨rfl, ?_⟩
  rw [F64.units_fin, F64.units_fin, h3, hmk]

/-- A product by 0.0 of a finite number is a zero. -/
theorem fmul_zero_left {b : F64} (hb : b.isFinite = true) : (F64.fmul F64.posZero b).isFinite = true ∧
    (F64.fmul F64.posZero b).units = 0 := by
  obtain ⟨t, e, f, rfl⟩ := (F64.isFinite_iff b).mp hb
  have hz : F64.mag 0 0#52 = 0 := rfl
  rw [show F64.posZero = .fin false 0 0#52 from rfl, F64.fmul_fin, hz, Nat.zero_mul, round_zero]
  refine ⟨rfl, ?_⟩
  rw [F64.units_fin, hz]; simp

/-- A sum with a zero is exact. -/
theorem fadd_exact {a b : F64} (ha : a.isFinite = true) (hb : b.isFinite = true) (h : a.units = 0 ∨ b.units = 0) :
    (F64.fadd a b).isFinite = true ∧ (F64.fadd a b).units = a.units + b.units := by
  obtain ⟨s, e, f, rfl⟩ := (F64.isFinite_iff a).mp ha
  obtain ⟨t, e', f', rfl⟩ := (F64.isFinite_iff b).mp hb
  obtain ⟨m, k, hmk, hm, hk⟩ : ∃ m k, ((F64.fin s e f).units + (F64.fin t e' f').units).natAbs = m * 2 ^ k ∧
    m < 2 ^ 53 ∧ k ≤ 2045 := by
    rcases h with h | h
    · rw [h, zero_add, F64.natAbs_units_fin]; exact F64.mag_form e' f'
    · rw [h, add_zero, F64.natAbs_units_fin]; exact F64.mag_form e f
  rw [F64.fadd_fin]
  split
  · next hz =>
    rw [hz]; refine ⟨rfl, ?_⟩
    rw [F64.units_fin]; simp [F64.mag]
  · obtain ⟨e2, f2, h2, h3⟩ := F64.round_exact (decide ((F64.fin s e f).units + (F64.fin t e' f').units < 0))
      (den := 1) one_pos hm hk (by rw [mul_one])
    rw [hmk, h2]
    refine ⟨rfl, ?_⟩
    rw [F64.units_fin, h3, ← hmk]
    split
    · next h => simp only [decide_eq_true_eq] at h; omega
    · next h => simp only [decide_eq_true_eq] at h; omega

end Sys2Proof.Machine
end

