-- ==== Sys2Proof/Laws/Stream.lean ====
section
/-! SUPPORT. Runs of sink requests (44_fifo.md R186 to R188). -/

namespace Sys2Proof.Machine

theorem Memory.readBlock_append (m : Memory) (a k l : Nat) (x y : List Byte) (h1 : m.readBlock a k = some x) (h2 :
    m.readBlock (a + k) l = some y) :
    m.readBlock a (k + l) = some (x ++ y) := by
  obtain ⟨l1, r1⟩ := Memory.readBlock_eq_some.mp h1
  obtain ⟨l2, r2⟩ := Memory.readBlock_eq_some.mp h2
  refine Memory.readBlock_eq_some.mpr ⟨by simp [l1, l2], fun j hj => ?_⟩
  by_cases h : j < k
  · rw [r1 j h, List.getElem?_append_left (by omega)]
  · rw [List.getElem?_append_right (by omega), l1, ← r2 _ (by omega)]
    congr 1; omega

/-- Requests after Done: AllSamplesSent each time (R188). -/
theorem runFills_done (ns : List Nat) (s : State) (h : s.fifoState = .done) :
    ∃ t, runFills ns s = some (ns.map fun _ => ⟨.allSamplesSent, true, none⟩, t) ∧ t.fifoState = .done ∧
      t.pos = s.pos := by
  induction ns generalizing s with
  | nil => exact ⟨s, rfl, h, rfl⟩
  | cons n ns ih =>
    have h' : (s.sinkOk .allSamplesSent none).fifoState = .done := (State.fifoState_congr rfl rfl).trans h
    obtain ⟨t, h1, h2, h3⟩ := ih _ h'
    refine ⟨t, ?_, h2, h3⟩
    simp only [runFills, exec, execFifoFill_done h n, State.sinkOk_answer, h1, Option.map_some, List.map_cons]
    rfl

/-- Requests that end below the end of the waveform are filled, in order (R186). -/
theorem runFills_early (ns : List Nat) (tail : List Nat) (s : State) (hi : s.Inv) (hf : s.fifoState = .streaming)
    (hlt : (ns.sum : Int) < s.rem) :
    ∃ (rs : List SinkResponse) (u : State) (w : List Byte), u.Inv ∧ u.fifoState = .streaming ∧ u.rem = s.rem - ns.sum ∧
      u.pos = s.pos + ns.sum ∧ u.wave = s.wave ∧ u.wlen = s.wlen ∧
      rs.length = ns.length ∧ (∀ r ∈ rs, r.result = .filled ∧ r.stop = false) ∧ drivenBytes rs = w ∧
        s.wave.readBlock s.pos ns.sum = some w ∧
      runFills (ns ++ tail) s = (runFills tail u).map fun q => (rs ++ q.1, q.2) := by
  induction ns generalizing s with
  | nil => exact ⟨[], s, [], hi, hf, by simp, by simp, rfl, rfl, rfl, by simp, rfl, rfl, by simp⟩
  | cons n ns ih =>
    simp only [List.sum_cons, Nat.cast_add] at hlt
    obtain ⟨b, hb⟩ := hi.read_stream hf n
    have hk : min n s.rem.toNat = n := by omega
    have he := execFifoFill_streaming hf hb
    rw [hk] at he hb
    simp only [lt_irrefl, if_false, Nat.sub_self, zeros, List.replicate_zero, List.append_nil] at he
    obtain ⟨-, -, -, ha⟩ := hi.armed_of_streaming hf
    have hi' := (hi.advance hf n).sinkOk .filled (some b)
    rw [hk] at hi'
    have hf' : ((s.setCursor (s.pos + n) (s.rem - n)).sinkOk .filled (some b)).fifoState = .streaming :=
      State.fifoState_eq_streaming.mpr ⟨ha, by simp; omega⟩
    obtain ⟨rs, u, w, h1, h2, h3, h4, h5, h6, h7, h8, h9, h10, h11⟩ := ih _ hi' hf'
      (by show ((ns.sum : Nat) : Int) < s.rem - n; omega)
    refine ⟨⟨.filled, false, some b⟩ :: rs, u, b ++ w, h1, h2, ?_, ?_, h5, h6, by simp [h7], ?_, ?_, ?_, ?_⟩
    · rw [h3]; simp; ring
    · rw [h4]; simp; omega
    · intro r hr
      rcases List.mem_cons.mp hr with rfl | hr
      · exact ⟨rfl, rfl⟩
      · exact h8 r hr
    · simp only [drivenBytes, List.flatMap_cons, Option.getD_some]
      rw [← h9]; rfl
    · rw [List.sum_cons]
      exact Memory.readBlock_append _ _ _ _ _ _ hb h10
    · rw [List.cons_append]
      conv_lhs => unfold runFills
      simp only [exec, he, State.sinkOk_answer, h11, Option.map_map]
      congr 1

end Sys2Proof.Machine
end

