-- ==== Sys2Proof/Laws/Waveform.lean ====
section
/-! SUPPORT. The waveform by index: the loops of SYN.RUN against the samples of Safety.lean. -/

namespace Sys2Proof.Machine

theorem flatMap_get {α : Type} (k : Nat) (hk : 0 < k) (l : List α) (f : α → List Bool) (hf : ∀ x, (f x).length = k)
    (n : Nat) :
    (l.flatMap f)[n]? = (l[n / k]?).bind fun x => (f x)[n % k]? := by
  induction l generalizing n with
  | nil => simp
  | cons x l ih =>
    rw [List.flatMap_cons]
    by_cases h : n < k
    · rw [List.getElem?_append_left (by rw [hf]; exact h), Nat.div_eq_of_lt h, Nat.mod_eq_of_lt h]; simp
    · rw [List.getElem?_append_right (by rw [hf]; omega), hf, ih]
      have h1 : n / k = (n - k) / k + 1 := by
        rw [← Nat.add_div_right _ hk]; congr 1; omega
      have h2 : n % k = (n - k) % k := Nat.mod_eq_sub_mod (by omega)
      rw [h1, h2, List.getElem?_cons_succ]

theorem bitsMsbFirst_get (b : Byte) (j : Nat) (h : j < 8) : (bitsMsbFirst b)[j]? = some (b.getLsbD (7 - j)) := by
  interval_cases j <;> rfl

/-- The bits the sequencer runs through are the effective bits by index (R59, R157). -/
theorem sampleBits_get (c : Cfg) (hc : 0 < c.sps) (packet : List Byte) (n : Nat) (hn : n < 8 * packet.length * c.sps) :
    (sampleBits c packet)[n]? = some (sampleBit c packet n) := by
  unfold sampleBits
  rw [flatMap_get c.sps hc _ _ (fun x => by simp), flatMap_get 8 (by omega) _ _ (fun x => rfl)]
  have h1 : n / c.sps / 8 < packet.length := by
    rw [Nat.div_div_eq_div_mul]
    exact Nat.div_lt_of_lt_mul (by rw [Nat.mul_comm c.sps 8, Nat.mul_right_comm]; exact hn)
  rw [List.getElem?_eq_getElem h1, Option.bind_some, bitsMsbFirst_get _ _ (Nat.mod_lt _ (by omega)), Option.bind_some,
    List.getElem?_replicate,
    if_pos (Nat.mod_lt _ hc)]
  unfold sampleBit
  have h2 : n / (8 * c.sps) = n / c.sps / 8 := by rw [Nat.div_div_eq_div_mul, Nat.mul_comm]
  rw [h2, List.getD_eq_getElem?_getD, List.getElem?_eq_getElem h1]; rfl

theorem hist_ext {a b : Vector F64 16} (h : ∀ k : Fin 16, a[k] = b[k]) : a = b := by
  apply Vector.ext; intro i hi; exact h ⟨i, hi⟩

/-- The history before sample `n` is inserted. -/
def histAt (c : Cfg) (packet : List Byte) (wave : F64 → F64) (n : Nat) : Vector F64 16 :=
  Vector.ofFn fun k : Fin 16 => if 16 ≤ n + k.val then wave (samplePhase c packet (n + k.val - 16)) else F64.posZero

theorem shift_histAt (c : Cfg) (packet : List Byte) (wave : F64 → F64) (n : Nat) :
    firShift (histAt c packet wave n) (wave (samplePhase c packet n)) = sampleHistory c packet wave n := by
  apply hist_ext; intro k
  rw [firShift_get]
  unfold sampleHistory histAt
  simp only [Fin.getElem_fin, Vector.getElem_ofFn]
  by_cases h : k.val < 15
  · rw [dif_pos h]
    by_cases h2 : 15 ≤ n + k.val
    · rw [if_pos (by omega), if_pos h2]; rfl
    · rw [if_neg (by omega), if_neg h2]
  · have hk : k.val = 15 := by have := k.isLt; omega
    rw [dif_neg h, if_pos (by omega)]
    have : n + k.val - 15 = n := by omega
    rw [this]

theorem sampleHistory_histAt (c : Cfg) (packet : List Byte) (wave : F64 → F64) (n : Nat) :
    sampleHistory c packet wave n = histAt c packet wave (n + 1) := by
  apply hist_ext; intro k
  unfold sampleHistory histAt
  simp only [Fin.getElem_fin, Vector.getElem_ofFn]
  by_cases h2 : 15 ≤ n + k.val
  · rw [if_pos (by omega), if_pos (by omega)]; congr 2; omega
  · rw [if_neg (by omega), if_neg (by omega)]

/-- The registers before sample `n`. -/
def oscAt (c : Cfg) (packet : List Byte) (n : Nat) : Osc :=
  ⟨histAt c packet c.cos64 n, histAt c packet c.sin64 n, samplePhase c packet n⟩

theorem oscAt_zero (c : Cfg) (packet : List Byte) : oscAt c packet 0 = Osc.start := by
  unfold oscAt Osc.start
  have : ∀ w, histAt c packet w 0 = Vector.replicate 16 F64.posZero := by
    intro w; apply hist_ext; intro k
    unfold histAt
    simp only [Fin.getElem_fin, Vector.getElem_ofFn, Vector.getElem_replicate]
    have := k.isLt
    rw [if_neg (by omega)]
  rw [this, this]; rfl

/-- Every pair of bytes the loop writes is the pair of its index, and the registers at the end are those of the end. -/
theorem synthSamples_index (c : Cfg) (hc : 0 < c.sps) (packet : List Byte) (k n : Nat) (hk :
    n + k = 8 * packet.length * c.sps) (bs : List Byte) (o : Osc)
    (h : synthSamples c (phaseStep c) ((sampleBits c packet).drop n) (oscAt c packet n) = some (bs, o)) :
    o = oscAt c packet (n + k) ∧ ∀ m < k, ∃ ti tq : Int, sampleValue c packet c.cos64 (n + m) = some ti ∧
      sampleValue c packet c.sin64 (n + m) = some tq ∧
      bs[2 * m]? = some (s8ToByte ti) ∧ bs[2 * m + 1]? = some (s8ToByte tq) := by
  induction k generalizing n bs with
  | zero =>
    have hd : (sampleBits c packet).drop n = [] := List.drop_eq_nil_of_le (by rw [sampleBits_length]; omega)
    rw [hd, synthSamples_nil] at h
    cases h
    exact ⟨rfl, fun m hm => by omega⟩
  | succ k ih =>
    have hn : n < (sampleBits c packet).length := by rw [sampleBits_length]; omega
    have hb := sampleBits_get c hc packet n (by omega)
    rw [List.getElem?_eq_getElem hn] at hb
    have hb' := Option.some.inj hb
    rw [List.drop_eq_getElem_cons hn, hb'] at h
    obtain ⟨b1, o1, b2, h1, h2, rfl⟩ := synthSamples_cons_eq_some.mp h
    obtain ⟨ti, tq, hti, htq, rfl, ho1⟩ := synthSample_eq_some h1
    have e1 : o1 = oscAt c packet (n + 1) := by
      rw [ho1]
      unfold oscAt
      simp only
      rw [shift_histAt, shift_histAt, sampleHistory_histAt, sampleHistory_histAt]
      rfl
    subst e1
    obtain ⟨r1, r2⟩ := ih (n + 1) (by omega) _ h2
    refine ⟨by rw [r1]; congr 1; omega, fun m hm => ?_⟩
    cases m with
    | zero =>
      refine ⟨ti, tq, ?_, ?_, rfl, rfl⟩
      · rw [firStep_fst] at hti
        unfold sampleValue; rw [← shift_histAt]; exact hti
      · rw [firStep_fst] at htq
        unfold sampleValue; rw [← shift_histAt]; exact htq
    | succ m =>
      obtain ⟨ti', tq', a1, a2, a3, a4⟩ := r2 m (by omega)
      refine ⟨ti', tq', ?_, ?_, ?_, ?_⟩
      · rw [← a1]; congr 1; omega
      · rw [← a2]; congr 1; omega
      · rw [← a3, show 2 * (m + 1) = (2 * m) + 1 + 1 by omega]; rfl
      · rw [← a4, show 2 * (m + 1) + 1 = (2 * m + 1) + 1 + 1 by omega]; rfl

/-- The three parts of a waveform by index (R145, R154). -/
theorem waveform_parts (A B : Nat) (body bytes : List Byte) (h : bytes = silence A ++ body ++ silence B) :
    (∀ a, a < 2 * A → bytes[a]? = some 0x00#8) ∧ (∀ m, m < body.length → bytes[2 * A + m]? = body[m]?) ∧
    (∀ a, 2 * A + body.length ≤ a → a < 2 * A + body.length + 2 * B → bytes[a]? = some 0x00#8) := by
  have hsl : ∀ n, (silence n).length = 2 * n := fun n => by simp [silence]
  have hsil : ∀ n a, a < 2 * n → (silence n)[a]? = some 0x00#8 := by
    intro n a h; unfold silence; rw [List.getElem?_replicate, if_pos h]
  subst h
  refine ⟨fun a ha => ?_, fun m hm => ?_, fun a h1 h2 => ?_⟩
  · rw [List.append_assoc, List.getElem?_append_left (by rw [hsl]; exact ha), hsil _ _ ha]
  · rw [List.getElem?_append_left (by rw [List.length_append, hsl]; omega), List.getElem?_append_right
    (by rw [hsl]; omega), hsl]
    congr 1; omega
  · rw [List.getElem?_append_right (by rw [List.length_append, hsl]; omega), List.length_append, hsl, hsil _ _
    (by omega)]

end Sys2Proof.Machine
end

