-- ==== Sys2Proof/Tests/Slice0.lean ====
section
/-! SUPPORT. Tests of the model against the vectors of spec/95_test_vectors.md (named in each comment), and for every
statement with hypotheses a state and operands that meet them. -/

namespace Sys2Proof.Tests

open Sys2Proof Sys2Proof.Machine

/-- The next state, if there is one. -/
def after (r : Machine.Result) : Option State :=
  match r with
  | .next s => some s
  | _ => none

theorem next_of_after {r : Machine.Result} {s : State} (h : after r = some s) : r = .next s := by
  cases r with
  | next t => exact congrArg _ (Option.some.inj h)
  | fault f => cases h
  | refused f => cases h

theorem exists_next {r : Machine.Result} (h : (after r).isSome = true) : ∃ s, r = .next s := by
  cases r with
  | next t => exact ⟨t, rfl⟩
  | fault f => cases h
  | refused f => cases h

/-! Well-formedness: an operand beyond its field has no word (R81). -/

theorem test_illFormed_payWr : ¬ (Instr.payWr 256 0x00#8).WellFormed := by decide
theorem test_illFormed_frmBuild : ¬ (Instr.frmBuild 65536).WellFormed := by decide
theorem test_illFormed_pktRd : ¬ (Instr.pktRd 65536).WellFormed := by decide
theorem test_illFormed_wavRd : ¬ (Instr.wavRd 16777216).WellFormed := by decide
theorem test_illFormed_fifoFill : ¬ (Instr.fifoFill 16777216).WellFormed := by decide
/-- FILL_MAX (R8) is the largest request that has a word. -/
theorem test_fillMax : (Instr.fifoFill Config.fillMax).WellFormed ∧ ¬ (Instr.fifoFill (Config.fillMax + 1)).WellFormed := by
  decide
theorem test_wellFormed_limits : (Instr.payWr 255 0xFF#8).WellFormed ∧ (Instr.frmBuild 65535).WellFormed ∧
    (Instr.pktRd 65535).WellFormed ∧ (Instr.wavRd 16777215).WellFormed ∧ (Instr.fifoFill 16777215).WellFormed := by
  decide

/-! Decoding: one word a command, bit by bit from the formats of R71 to R75 and the opcodes of R77. -/

theorem test_decode_crcSeed : decode .control 0b00000001_00000000_00000000_00000000#32 = .ok .crcSeed := by decide
theorem test_decode_crcLoad : decode .control 0b00000010_00000000_10000000_00000001#32 = .ok (.crcLoad 0x8001#16) := by
  decide
theorem test_decode_crcUpd : decode .control 0b00000011_00000000_00000000_01000001#32 = .ok (.crcUpd 0x41#8) := by decide
theorem test_decode_crcRd : decode .control 0b00000100_00000000_00000000_00000000#32 = .ok .crcRd := by decide
theorem test_decode_crcRdc : decode .control 0b00000101_00000000_00000000_00000000#32 = .ok .crcRdc := by decide
theorem test_decode_payWr : decode .control 0b00010000_00000000_11111110_01111110#32 = .ok (.payWr 254 0x7E#8) := by decide
theorem test_decode_frmBuild : decode .control 0b00010001_00000000_00000001_00000000#32 = .ok (.frmBuild 256) := by decide
theorem test_decode_pktRd : decode .control 0b00010010_00000000_00000001_00101100#32 = .ok (.pktRd 300) := by decide
theorem test_decode_synRun : decode .control 0b00100000_00000000_00000000_00000000#32 = .ok .synRun := by decide
theorem test_decode_wavRd : decode .control 0b00100001_00010101_01000101_11101001#32 = .ok (.wavRd 1394153) := by decide
theorem test_decode_fifoArm : decode .control 0b00110000_00000000_00000000_00000000#32 = .ok .fifoArm := by decide
theorem test_decode_fifoFill : decode .sink 0b00110001_00000100_00000000_00000000#32 = .ok (.fifoFill 262144) := by decide

/-- V-DEC-1 to V-DEC-6, V-DEC-8: the words that raise an error, on the port named. -/
theorem test_decode_errors :
    decode .control 0x00000000#32 = .error .illegalCommand ∧ decode .control 0xFFFFFFFF#32 = .error .illegalCommand ∧
    decode .control 0x31000000#32 = .error .wrongPort ∧ decode .sink 0x20000001#32 = .error .wrongPort ∧
    decode .control 0x20000001#32 = .error .illegalCommand ∧ decode .control 0x12FF0000#32 = .error .illegalCommand ∧
    decode .control 0x13000000#32 = .error .illegalCommand := by decide

/-- The table's numbering of bits is the word's (R70). -/
theorem test_decodeTableWord : decodeTableWord 32 0x10000041 = some (.payWr 0 0x41#8) ∧
    decodeTableWord 32 0x31040000 = some (.fifoFill 262144) ∧ decodeTableWord 32 0x06000000 = none := by decide

/-! The CRC commands. -/

/-- V-CRC-1, 5, 7, 12, 14. -/
theorem test_crcUpdate : crcUpdate 0x1D0F#16 0x01#8 = 0xDCBD#16 ∧ crcUpdate 0x0000#16 0x01#8 = 0x1021#16 ∧
    crcUpdate 0x0000#16 0xFF#8 = 0x1EF0#16 ∧ crcUpdate 0x1234#16 0x56#8 = 0x3C40#16 ∧
    crcUpdate 0xDCBD#16 0x41#8 = 0xEF14#16 := by decide +kernel

/-- P1 step 9: the check value of the digits 1 to 9 from 0x0000. -/
theorem test_crc_check : crcFold 0x0000#16 [0x31#8, 0x32#8, 0x33#8, 0x34#8, 0x35#8, 0x36#8, 0x37#8, 0x38#8, 0x39#8] =
    0x31C3#16 := by decide +kernel

/-- The example of R102. -/
theorem test_crcSeed : (after (exec .crcSeed { State.reset with acc := 0x1234#16 })).map State.acc = some 0x1D0F#16 := by
  decide

/-- The example of R103. -/
theorem test_crcLoad : (after (exec (.crcLoad 0xFFFF#16) State.reset)).map State.acc = some 0xFFFF#16 := by decide

/-- V-CRC-12 as a command: RESULT unchanged. -/
theorem test_crcUpd : (after (exec (.crcUpd 0x56#8) { State.reset with acc := 0x1234#16, result := 7#32 })).map
    (fun s => (s.acc, s.result, s.lastErr)) = some (0x3C40#16, 7#32, 0x00#8) := by decide +kernel

/-- P1 step 5. -/
theorem test_crcRd : (after (exec .crcRd { State.reset with acc := 0xEF14#16 })).map State.result =
    some 0x0000EF14#32 := by decide

/-- P1 step 4: the complement is not stored. -/
theorem test_crcRdc : (after (exec .crcRdc { State.reset with acc := 0xEF14#16 })).map (fun s => (s.result, s.acc)) =
    some (0x000010EB#32, 0xEF14#16) := by decide

/-! The framer. -/

/-- V-FRM-E7, V-FRM-E8. -/
theorem test_payWr : (after (exec (.payWr 255 0x00#8) State.reset)).map (fun s => (s.lastErr, s.pay)) =
      some (0x04#8, []) ∧
    (after (exec (.payWr 254 0x7E#8) State.reset)).map (fun s => (s.lastErr, s.pay)) =
      some (0x00#8, [(254, 0x7E#8)]) := by decide

/-- V-FRM-3. -/
theorem test_frmBuild : (after (exec (.frmBuild 2) { State.reset with pay := [(0, 0x41#8), (1, 0x42#8)] })).map
    (fun s => (s.result, s.pktLen, s.pkt.readBlock 0 10)) =
    some (10#32, 10, some [0xAA#8, 0xAA#8, 0xAA#8, 0x2D#8, 0xAA#8, 0x02#8, 0x41#8, 0x42#8, 0xD6#8, 0xE8#8]) := by decide +kernel

/-- V-FRM-E2, V-FRM-E4. -/
theorem test_frmBuild_errors : (after (exec (.frmBuild 65535) State.reset)).map State.lastErr = some 0x03#8 ∧
    (after (exec (.frmBuild 3) { State.reset with pay := [(0, 0x41#8), (2, 0x42#8)] })).map
      (fun s => (s.lastErr, s.pktValid)) = some (0x05#8, false) := by decide +kernel

/-- V-FRM-1: the packet of the empty payload. V-FRM-5, V-FRM-6: two one-byte payloads. -/
theorem test_packetBytes : packetBytes [] = [0xAA#8, 0xAA#8, 0xAA#8, 0x2D#8, 0xAA#8, 0x00#8, 0x33#8, 0x63#8] ∧
    (packetBytes [0x00#8]).drop 7 = [0x48#8, 0x0E#8] ∧ (packetBytes [0xFF#8]).drop 7 = [0x56#8, 0xFE#8] := by decide +kernel

/-- V-FRM-10: the last byte and the first index beyond. -/
theorem test_pktRd : let s := { State.reset with pkt := cellsFrom 0 (packetBytes [0x41#8]), pktLen := 9, pktValid := true }
    (after (exec (.pktRd 8) s)).map State.result = some 0x000000EB#32 ∧
    (after (exec (.pktRd 9) s)).map (fun s => (s.result, s.lastErr)) = some (0#32, 0x04#8) := by decide +kernel

/-- V-FRM-E10. -/
theorem test_pktRd_noPacket : (after (exec (.pktRd 300) State.reset)).map State.lastErr = some 0x06#8 := by decide

/-! The filter, the quantizer and the synthesizer. -/

def f64 (w : BitVec 64) : F64 := F64.ofBits w

/-- Set A: every coefficient 0.0625. -/
def setA : Vector F64 8 := Vector.replicate 8 (f64 0x3FB0000000000000#64)

/-- Set B: 0.5, then zeros. -/
def setB : Vector F64 8 := #v[f64 0x3FE0000000000000#64, F64.posZero, F64.posZero, F64.posZero, F64.posZero, F64.posZero,
  F64.posZero, F64.posZero]

/-- Set C. -/
def setC : Vector F64 8 := #v[f64 0x3F80000000000000#64, f64 0x3F90000000000000#64, f64 0x3FA0000000000000#64,
  f64 0x3FA8000000000000#64, f64 0x3FB0000000000000#64, f64 0x3FB4000000000000#64, f64 0x3FBE000000000000#64,
  f64 0x3FC2000000000000#64]

theorem test_sets_normalized : coefNormalized setA = true ∧ coefNormalized setB = true ∧ coefNormalized setC = true := by
  decide +kernel

/-- The impulse response of set C (section 2.3): y[7], y[8] and y[9]. -/
theorem test_fir_impulse : ((firOutputs setC (Vector.replicate 16 F64.posZero)
    (F64.one :: List.replicate 9 F64.posZero)).drop 7) =
    [f64 0x3FC2000000000000#64, f64 0x3FC2000000000000#64, f64 0x3FBE000000000000#64] := by decide +kernel

/-- V-FIR-Z: input -0.0 gives +0.0. -/
theorem test_fir_negZero : (firStep setC (Vector.replicate 16 F64.posZero) (.fin true 0 0#52)).1 = F64.posZero := by
  decide +kernel

/-- V-Q8-2, 3, 7, 8, 11, 12. -/
theorem test_q8 : q8 (f64 0xBFF0000000000000#64) = some (-127) ∧ q8 (f64 0x3FE0000000000000#64) = some 63 ∧
    q8 (f64 0x3FD6A09E667F3BCD#64) = some 44 ∧ q8 (f64 0xBFD6A09E667F3BCC#64) = some (-44) ∧
    q8 (f64 0xBFF0205BC01A36E3#64) = none ∧ q8 (f64 0x3FF01FF2E48E8A72#64) = some 127 := by decide +kernel

/-- V-Q8-2, V-Q8-8: the bytes. -/
theorem test_s8ToByte : s8ToByte (-127) = 0x81#8 ∧ s8ToByte (-44) = 0xD4#8 ∧ s8ToByte 108 = 0x6C#8 := by decide

/-- The cosine and sine of the phases of V-SYN-S1; nothing else is asked of them there. -/
def cosSC (x : F64) : F64 :=
  if x = F64.posZero then F64.one
  else if x = f64 0xBFE921FB54442D18#64 then f64 0x3FE6A09E667F3BCD#64
  else f64 0x3C91A62633145C07#64

def sinSC (x : F64) : F64 :=
  if x = F64.posZero then F64.posZero
  else if x = f64 0xBFE921FB54442D18#64 then f64 0xBFE6A09E667F3BCC#64
  else f64 0xBFF0000000000000#64

/-- The small configuration SC with set B. -/
def SC : Cfg where
  bitrate := 16
  sps := 2
  devHz := 4
  invert := false
  centerFreqHz := 0
  coef := setB
  waveCap := 5458000
  cos64 := cosSC
  sin64 := sinSC
  srMin := 0
  cos_bound x _ := by unfold cosSC; split <;> (try split) <;> decide +kernel
  sin_bound x _ := by unfold sinSC; split <;> (try split) <;> decide +kernel
  cos_zero := by decide +kernel
  sin_zero := by decide +kernel

/-- SC's derived quantities, and the phase step pi / 4. -/
theorem test_SC : SC.sr = 32 ∧ SC.leadIn = 2 ∧ SC.leadOut = 8 ∧ SC.pairs 8 = 138 ∧
    phaseStep SC = f64 0x3FE921FB54442D18#64 := by decide +kernel

theorem SC_valid : SC.Valid := by decide +kernel

/-- The first packet byte only, and SYN.RUN issued. -/
def beforeSC : State :=
  { State.reset with
    pkt := [(0, 0xAA#8)], pktLen := 1, pktValid := true, inputs := [.ctlWrite 0x0 4 0x20000000#32] }

/-- WLEN, and the bytes of WAVE, 26 to a number. -/
def waveSC (r : Machine.Result) : Option (Nat × Option (List Nat)) :=
  (after r).map fun t => (t.wlen, (t.wave.readBlock 0 52).map fun bytes => [bytes.take 26, bytes.drop 26].map fun half =>
    half.foldl (fun n b => 256 * n + b.toNat) 0)

/-- V-SYN-S3 up to offset 35 (the lead-in and the samples of the first byte, V-SYN-S1), then the lead-out. -/
theorem test_stepWith_SC : waveSC (stepWith SC beforeSC) = some (52, some
    [0x000000003F002CD400C12CD43F002CD400C12CD43F002CD400C1,
     0x2CD43F002CD400C16CD400000000000000000000000000000000]) := by decide +kernel

/-- V-SYN-E5: `FIR_COEF[0] = 0.51` and DEV 0. -/
def invalidSC : Cfg :=
  { SC with devHz := 0, coef := setB.set 0 (f64 0x3FE051EB851EB852#64) }

theorem invalidSC_not : ¬invalidSC.Valid := by decide +kernel

/-- V-SYN-E5: the model refuses an invalid configuration. -/
theorem test_invalid_refused (s : State) : execWith invalidSC .synRun s = .refused .invalidConfiguration :=
  execWith_invalid invalidSC_not _ _

/-- V-SYN-1: this hardware's lengths. -/
theorem test_lengths : Config.hw.pairs 8 = 689000 ∧ Config.hw.pairs 9 = 697000 ∧ Config.hw.pairs 263 = 2729000 := by decide

/-- V-SYN-E1. -/
theorem test_synRun_noPacket : (after (exec .synRun State.reset)).map (fun s => (s.lastErr, s.wavValid)) =
    some (0x06#8, false) := by decide

/-- V-SYN-E3: WaveformFrozen comes before NoPacket. -/
theorem test_synRun_frozen : (after (exec .synRun { State.reset with armed := true, rem := 1 })).map State.lastErr =
    some 0x09#8 := by decide

/-- V-SYN-E9: the byte of -63, zero-extended. V-SYN-E8. -/
theorem test_wavRd : let s := { State.reset with wave := [(9, 0xC1#8)], wlen := 276, wavValid := true }
    (after (exec (.wavRd 9) s)).map State.result = some 0x000000C1#32 ∧
    (after (exec (.wavRd 276) s)).map State.lastErr = some 0x04#8 := by decide

/-- V-SYN-E6. -/
theorem test_wavRd_noWaveform : (after (exec (.wavRd 0) State.reset)).map State.lastErr = some 0x0B#8 := by decide

/-! The FIFO. -/

/-- V-FIFO-A5, V-FIFO-A4: a stream that is done, and one that drains. -/
theorem test_fifoArm : let s := { State.reset with wlen := 276, wavValid := true, armed := true, pos := 276 }
    (after (exec .fifoArm { s with rem := -1 })).map (fun t => (t.pos, t.rem, t.fifoState)) =
      some (0, 276, .streaming) ∧
    (after (exec .fifoArm s)).map (fun t => (t.lastErr, t.pos)) = some (0x0A#8, 276) := by decide

/-- R186 from an odd position, as in V-FIFO-10, at the end of a waveform of 5 bytes. -/
theorem test_fifoFill : let s := { State.reset with wave := [(3, 0xD4#8), (4, 0x2C#8)], wlen := 5, wavValid := true }
    (after (exec (.fifoFill 3) { s with armed := true, pos := 3, rem := 2 })).map (fun t => (t.answer, t.pos, t.fifoState)) =
      some (some (.sink ⟨.filledWithPadding, false, some [0xD4#8, 0x2C#8, 0x00#8]⟩), 5, .draining) := by decide

/-- V-FIFO-4, V-FIFO-6. -/
theorem test_fifoFill_ends : (after (exec (.fifoFill 0) { State.reset with armed := true, pos := 276 })).map
      (fun s => (s.answer, s.pos, s.rem)) = some (some (.sink ⟨.streamEnded, false, some []⟩), 276, -1) ∧
    (after (exec (.fifoFill 16) State.reset)).map (fun s => (s.answer, s.sinkErr, s.sticky)) =
      some (some (.sink ⟨.faulted, true, none⟩), 0x0C#8, true) := by decide

/-! Steps. -/

/-- The STATUS words of section 2.6 and R34's reset value. -/
theorem test_status : State.reset.statusWord = 0x00000000#32 ∧
    State.statusWord { State.reset with pktValid := true, wavValid := true, armed := true, rem := 276 } = 0x001A0000#32 ∧
    State.statusWord { State.reset with pktValid := true, wavValid := true, armed := true, rem := -1 } = 0x001E0000#32 ∧
    State.statusWord { State.reset with sticky := true, lastErr := 0x02#8, sinkErr := 0x0C#8 } = 0x00010C02#32 := by decide

/-- V-FIFO-7: FIFO.ARM on the sink port. -/
theorem test_step_wrongPort : (after (step { State.reset with inputs := [.sinkRequest 0x30000000#32] })).map
    (fun s => (s.answer, s.sinkErr, s.lastErr, s.inputs)) =
    some (some (.sink ⟨.faulted, true, none⟩), 0x02#8, 0x00#8, []) := by decide

/-- A read of RESULT after CRC.RD at reset (the example of R105). -/
theorem test_step_read : (after (step { State.reset with result := 0x1D0F#32, inputs := [.ctlRead 0x4 4] })).map
    State.answer = some (some (.value 0x00001D0F#32)) := by decide

/-- R56: a read of CMD is refused. -/
theorem test_step_refused : after (step { State.reset with inputs := [.ctlRead 0x0 4] }) = none := by decide

/-- The table word is the next step's command, on its own port. -/
theorem test_withFetchWord : (after (step (State.reset.withFetchWord 32 0x03000001))).map State.acc = some 0xDCBD#16 ∧
    (after (step (State.reset.withFetchWord 32 0x31000010))).map State.sinkErr = some 0x0C#8 := by decide

/-! Witnesses: for each statement with hypotheses, states and operands that meet them, clause by clause, at the ends of
the ranges. The states: nothing done yet; the packet of the empty payload built; its waveform synthesized; the stream
armed, drained, done. -/

def start (ins : List PortEvent) : State := { State.reset with inputs := ins }

theorem start_inv (ins : List PortEvent) {c : Cfg} : (start ins).InvWith c where
  pay_wf := Memory.wf_nil
  pkt_wf := Memory.wf_nil
  wave_wf := Memory.wf_nil
  pay_space := fun c hc => by cases hc
  pkt_space := fun c hc => by cases hc
  wave_space := fun c hc => by cases hc
  packet_sound := fun h => by cases h
  packet_none := fun _ => rfl
  wave_sound := fun h => by cases h
  wave_fits := Nat.zero_le _
  wave_none := fun _ => rfl
  cursor_idle := fun _ => ⟨rfl, rfl⟩
  cursor_live := fun h => by cases h
  cursor_done := ⟨(by decide : (-1 : Int) ≤ 0), Nat.zero_le _⟩
  codes_known := ⟨(by decide : 0x00#8 ≤ 0x0C#8), (by decide : 0x00#8 ≤ 0x0C#8)⟩
  sticky_clear := fun _ => ⟨rfl, rfl⟩

def built : State := (start []).putPacket (packetBytes [])

theorem built_inv : built.Inv := (start_inv []).putPacket (Nat.zero_le 255)
theorem built_len : built.pktLen = 8 := packetBytes_length []
theorem built_read : built.pkt.readBlock 0 built.pktLen = some (packetBytes []) := Memory.readBlock_writeBlock _ _ _
theorem built_idle : built.streamBusy = false := rfl

@[irreducible] def emptyWave : List Byte × Osc := (synthesize Config.hw (packetBytes [])).getD ([], Osc.start)

theorem emptyWave_eq : synthesize Config.hw (packetBytes []) = some (emptyWave.1, emptyWave.2) := by
  obtain ⟨b, o, h⟩ := synthesize_hw [] (Nat.zero_le 255)
  unfold emptyWave; rw [h]; rfl

theorem emptyWave_length : emptyWave.1.length = 1378000 := by
  rw [synthesize_length emptyWave_eq, pairs_hw, packetBytes_length]; rfl

def waved : State := built.synthesized emptyWave.1 emptyWave.2

theorem waved_inv : waved.Inv := 
  built_inv.synthesized built_idle (payload := []) (Nat.zero_le 255) emptyWave_eq
    (waveform_fits (payload := []) (Nat.zero_le 255) emptyWave_eq).2
theorem waved_len : waved.wlen = 1378000 := emptyWave_length
theorem waved_idle : waved.fifoState = .idle := rfl

theorem built_run : exec .synRun built = .next waved :=
  synRunSteps_ok built_idle rfl (by rw [built_len]; exact capacity_hw (n := 0) (Nat.zero_le 255)) built_read emptyWave_eq

def armed : State := ((waved.setCursor 0 waved.wlen).setArmed).ctlOk

theorem armed_inv : armed.Inv := waved_inv.arm rfl
theorem armed_rem : armed.rem = 1378000 := congrArg Nat.cast waved_len
theorem armed_streaming : armed.fifoState = .streaming :=
  State.fifoState_eq_streaming.mpr ⟨rfl, by rw [armed_rem]; decide⟩
theorem armed_busy : armed.streamBusy = true := State.streamBusy_iff.mpr ⟨rfl, by rw [armed_rem]; decide⟩

def drained : State :=
  armed.setCursor (armed.pos + min 1378000 armed.rem.toNat) (armed.rem - (min 1378000 armed.rem.toNat : Nat))

theorem drained_inv : drained.Inv := armed_inv.advance armed_streaming 1378000
theorem drained_draining : drained.fifoState = .draining :=
  State.fifoState_eq_draining.mpr ⟨rfl, by
    show armed.rem - ((min 1378000 armed.rem.toNat : Nat) : Int) = 0
    rw [armed_rem]; rfl⟩

def finished : State := drained.setCursor drained.pos (-1)

theorem finished_inv : finished.Inv := drained_inv.sentinel drained_draining
theorem finished_done : finished.fifoState = .done := State.fifoState_eq_done.mpr ⟨rfl, by decide⟩

/-- A state in which every payload byte has been written. -/
def filled : State := { State.reset with pay := cellsFrom 0 (List.replicate 255 0x41#8) }

theorem filled_payW : ∀ i < 255, filled.payW i = true := by decide +kernel

/-- A valid configuration whose synthesis raises AmplitudeOverflow: the deviation rounds to infinity, so that the phase
leaves the finite numbers after the first sample, and R152 says nothing of the cosine there. -/
def overflowing : Cfg where
  bitrate := 16
  sps := 2
  devHz := 2 ^ 1024
  invert := false
  centerFreqHz := 0
  coef := setB
  waveCap := 5458000
  cos64 x := if x.isFinite then F64.one else .nan
  sin64 _ := F64.posZero
  srMin := 0
  cos_bound x hx := by rw [if_pos hx]; decide +kernel
  sin_bound _ _ := by decide +kernel
  cos_zero := rfl
  sin_zero := rfl

theorem overflowing_valid : overflowing.Valid := by decide +kernel

theorem overflowing_none : synthesize overflowing (packetBytes []) = none := by decide +kernel

/-- This hardware with a waveform memory one byte too small for the empty payload. -/
def small : Cfg := { Config.hw with waveCap := 1377999 }

theorem small_valid : small.Valid := hw_valid

theorem small_pairs : 2 * small.pairs 8 = 1378000 := congrArg (2 * ·) (pairs_hw 8)

theorem witness_CrcLoadLoadsItsOperand :
    (0x02010000#32).extractLsb' 24 8 = 0x02#8 ∧ (0x02010000#32).extractLsb' 16 8 ≠ 0#8 := by decide

theorem witness_CrcUpdateFoldsOneByte :
    (0x03000100#32).extractLsb' 24 8 = 0x03#8 ∧ (0x03000100#32).extractLsb' 8 16 ≠ 0#16 := by decide

theorem witness_FramedPacketsVerify : built.Inv ∧ built.pktValid = true ∧ built.pktLen = 8 + 0 ∧
    built.pkt.readBlock 0 built.pktLen = some (packetBytes []) ∧ built.pkt.read (6 + 0) = some 0x33#8 ∧
    built.pkt.read (7 + 0) = some 0x63#8 :=
  ⟨built_inv, rfl, built_len, built_read, by decide +kernel, by decide +kernel⟩

theorem witness_PacketResidueIsConstant :
    built.Inv ∧ built.pktValid = true ∧ built.pkt.readBlock 0 built.pktLen = some (packetBytes []) :=
  ⟨built_inv, rfl, built_read⟩

theorem witness_PayloadWriteStoresOneByte : (254 : Nat) ≤ 254 ∧ 1 ≠ 254 ∧ 254 < 255 := by decide

theorem witness_FrameBuildMakesThePacket :
    (255 ≤ 255 ∧ ∀ i < 255, filled.payW i = true) ∧ (0 ≤ 255 ∧ ∀ i < 0, State.reset.payW i = true) ∧ 255 < 256 ∧
    (255 ≤ 255 ∧ 254 < 255 ∧ State.reset.payW 254 = false) :=
  ⟨⟨le_refl _, filled_payW⟩, ⟨Nat.zero_le _, fun i h => by omega⟩, by decide, by decide, by decide, rfl⟩

theorem witness_PacketReadReturnsOneByte :
    (built.Inv ∧ built.pktValid = true ∧ 7 < built.pktLen) ∧ State.reset.pktValid = false ∧
    (built.pktValid = true ∧ built.pktLen ≤ 8) :=
  ⟨⟨built_inv, rfl, by rw [built_len]; decide⟩, rfl, rfl, built_len.le⟩

theorem witness_ArithmeticRoundsToNearestEven :
    (F64.fin false 1023 0#52).units + (F64.fin false 1022 0#52).units ≠ 0 ∧
    (F64.fin false 1023 0#52).units - (F64.fin false 1022 0#52).units ≠ 0 ∧ F64.mag 0 1#52 ≠ 0 := by decide +kernel

theorem witness_ArithmeticSpecialValues :
    (F64.fin true 1023 0#52).units + (F64.fin false 1023 0#52).units = 0 ∧
    (F64.fin true 1023 0#52).units - (F64.fin true 1023 0#52).units = 0 ∧ F64.mag 0 0#52 = 0 := by decide +kernel

theorem witness_FilterImpulseResponse : ∀ k : Fin 8, setC[k].isFinite = true := by decide +kernel

theorem witness_FilterOutputIsQuantizable : coefNormalized setA = true ∧
    (∀ k : Fin 16, (Vector.replicate 16 F64.one)[k].absLeOne = true) ∧ F64.one.absLeOne = true := by decide +kernel

/-- NaN; the products 127.0 of 1.0 (the largest that fits) and 128.003 of 1.0079 (V-Q8-10). -/
theorem witness_QuantizerTruncatesTowardZero :
    F64.fmul .nan (f64 0x405FC00000000000#64) = .nan ∧
    (F64.fmul F64.one (f64 0x405FC00000000000#64) = .fin false 1029 0xFC00000000000#52 ∧
      127 * 2 ^ 1074 ≤ F64.mag 1029 0xFC00000000000#52 ∧ F64.mag 1029 0xFC00000000000#52 < (127 + 1) * 2 ^ 1074) ∧
    F64.fmul (f64 0x3FF0205BC01A36E3#64) (f64 0x405FC00000000000#64) = .fin false 1030 0x0001B089A0275#52 ∧
    128 * 2 ^ 1074 ≤ F64.mag 1030 0x0001B089A0275#52 ∧ F64.mag 1030 0x0001B089A0275#52 < (128 + 1) * 2 ^ 1074 := by
  decide +kernel

theorem witness_PhaseStepAndSilenceLengths :
    (Config.hw.Valid ∧ Config.hw.devHz < 2 ^ 53 ∧ Config.hw.sr < 2 ^ 53) ∧
    Cfg.Valid { Config.hw with devHz := 0 } ∧ Cfg.devHz { Config.hw with devHz := 0 } = 0 :=
  ⟨⟨hw_valid, by decide, by decide⟩, hw_valid, rfl⟩

theorem witness_WaveformLengthIsExact :
    synthesize Config.hw (packetBytes []) = some (emptyWave.1, emptyWave.2) ∧
    synRunWith Config.hw built = .next waved ∧ waved.lastErr = 0x00#8 :=
  ⟨emptyWave_eq, (guardConfig_valid hw_valid _).trans built_run, rfl⟩

theorem witness_SynRunSynthesizesThePacket : built.Inv ∧ built.streamBusy = false ∧ built.pktValid = true ∧
    built.pkt.readBlock 0 built.pktLen = some (packetBytes []) := ⟨built_inv, rfl, rfl, built_read⟩

theorem witness_SynthesisWritesEverySample :
    1 ≤ Config.hw.sps ∧ synthesize Config.hw (packetBytes []) = some (emptyWave.1, emptyWave.2) :=
  ⟨by decide, emptyWave_eq⟩

theorem witness_SynRunRaisesBeforeWriting : Config.hw.Valid ∧ small.Valid ∧ ¬invalidSC.Valid ∧ armed.streamBusy = true ∧
    ((start []).streamBusy = false ∧ (start []).pktValid = false) ∧
    (built.streamBusy = false ∧ built.pktValid = true ∧ small.waveCap < 2 * small.pairs built.pktLen) :=
  ⟨hw_valid, small_valid, invalidSC_not, armed_busy, ⟨rfl, rfl⟩, rfl, rfl, by rw [built_len, small_pairs]; decide⟩

theorem witness_CapacityCheckOnlyForOtherConfigurations :
    (small.Valid ∧ built.streamBusy = false ∧ built.pktValid = true ∧
      small.waveCap < 2 * (small.bitrate * small.sps / 16 + 8 * built.pktLen * small.sps + small.bitrate * small.sps / 4)) ∧
    built.Inv ∧ exec .synRun built = .next waved :=
  ⟨⟨small_valid, rfl, rfl, by rw [built_len]; exact small_pairs ▸ (by decide : 1377999 < 1378000)⟩, built_inv, built_run⟩

theorem witness_AmplitudeOverflowDropsTheWaveform :
    (overflowing.Valid ∧ built.streamBusy = false ∧ built.pktValid = true ∧ 2 * overflowing.pairs built.pktLen ≤ overflowing.waveCap ∧
      built.pkt.readBlock 0 built.pktLen = some (packetBytes []) ∧ synthesize overflowing (packetBytes []) = none) ∧
    built.Inv ∧ exec .synRun built = .next waved :=
  ⟨⟨overflowing_valid, rfl, rfl, by rw [built_len]; decide, built_read, overflowing_none⟩, built_inv, built_run⟩

theorem witness_WaveformBytesAreSamples : waved.Inv ∧ waved.wavValid = true ∧ 0 < waved.wlen ∧ 1377999 < waved.wlen := by
  refine ⟨waved_inv, rfl, ?_, ?_⟩ <;> rw [waved_len] <;> decide

theorem witness_WaveformDependsOnPacketOnly :
    (built.Inv ∧ (built.setAcc 0#16).Inv ∧ built.streamBusy = false ∧ (built.setAcc 0#16).streamBusy = false ∧
      built.pktValid = true ∧ (built.setAcc 0#16).pktValid = true ∧ built.pktLen = (built.setAcc 0#16).pktLen ∧
      ∀ j < built.pktLen, built.pkt.read j = (built.setAcc 0#16).pkt.read j) ∧
    (∃ t, exec (.payWr 0 0x41#8) waved = .next t) ∧ ∃ t, exec (.frmBuild 0) waved = .next t :=
  ⟨⟨built_inv, built_inv.setAcc _, rfl, rfl, rfl, rfl, rfl, fun _ _ => rfl⟩, exec_total waved_inv _,
    exec_total waved_inv _⟩

theorem witness_FilterStateIsUnobservable : exec .synRun built = .next waved := built_run

theorem witness_WaveReadReturnsOneByte : (waved.Inv ∧ waved.wavValid = true ∧ 1377999 < waved.wlen) ∧
    (start []).wavValid = false ∧ waved.wavValid = true ∧ waved.wlen ≤ 1378000 :=
  ⟨⟨waved_inv, rfl, by rw [waved_len]; decide⟩, rfl, rfl, waved_len.le⟩

theorem witness_FifoArmStartsAStream : (waved.fifoState = .idle ∧ waved.wavValid = true) ∧
    (finished.fifoState = .done ∧ finished.wavValid = true) ∧ armed.fifoState = .streaming ∧
    drained.fifoState = .draining ∧ (start []).fifoState = .idle ∧ (start []).wavValid = false :=
  ⟨⟨rfl, rfl⟩, ⟨finished_done, rfl⟩, armed_streaming, drained_draining, rfl, rfl⟩

/-- The last byte that is there, and the first that is padding. -/
theorem witness_FillStreamingDeliversBytesInOrder : armed.Inv ∧ armed.fifoState = .streaming ∧
    (1377999 < 1378001 ∧ ((1377999 : Nat) : Int) < armed.rem) ∧ (1378000 < 1378001 ∧ armed.rem ≤ (1378000 : Nat)) := by
  refine ⟨armed_inv, armed_streaming, ⟨by decide, ?_⟩, by decide, ?_⟩ <;> rw [armed_rem] <;> decide

theorem witness_FillOutsideStreaming : (drained.Inv ∧ drained.fifoState = .draining) ∧ finished.fifoState = .done ∧
    (start []).fifoState = .idle := ⟨⟨drained_inv, drained_draining⟩, finished_done, rfl⟩

theorem witness_FifoTransitionsAreExactlyThese :
    (start [.reset]).Inv ∧ (waved.Inv ∧ exec .fifoArm waved = .next armed ∧ armed.lastErr = 0x00#8) ∧
    (armed.Inv ∧ armed.fifoState = .streaming) ∧ (drained.Inv ∧ drained.fifoState = .draining) ∧
    (finished.Inv ∧ finished.fifoState = .done) ∧ (start []).fifoState = .idle ∧
    exec .synRun built = .next waved ∧ (∀ n, Instr.synRun ≠ .fifoFill n) ∧
    ∃ t, exec .fifoArm (start []) = .next t ∧ t.lastErr ≠ 0x00#8 :=
  ⟨start_inv _, ⟨waved_inv, execFifoArm_ok rfl rfl, rfl⟩, ⟨armed_inv, armed_streaming⟩, ⟨drained_inv, drained_draining⟩,
    ⟨finished_inv, finished_done⟩, rfl, built_run, by simp, _, rfl, by decide⟩

/-- The request that passes the end: at its last byte, and one byte beyond. -/
theorem witness_StreamDeliversTheWaveform : waved.Inv ∧ waved.streamBusy = false ∧ waved.wavValid = true ∧
    [100, 377900].sum < waved.wlen ∧ waved.wlen ≤ [100, 377900].sum + 1000000 ∧
    waved.wlen ≤ [100, 377900].sum + 1000001 := by
  refine ⟨waved_inv, rfl, rfl, ?_, ?_, ?_⟩ <;> rw [waved_len] <;> decide

theorem witness_DecodeInvertsEncode : (Instr.payWr 255 0xFF#8).WellFormed ∧ (Instr.fifoFill 16777215).WellFormed ∧
    Port.sink ≠ (Instr.payWr 255 0xFF#8).port ∧ Port.control ≠ (Instr.fifoFill 16777215).port := by decide

theorem witness_EncodeInvertsDecode : decode .control 0x21FFFFFF#32 = .ok (.wavRd 16777215) ∧
    decode .sink 0x31FFFFFF#32 = .ok (.fifoFill 16777215) := by decide

theorem witness_ReservedOpcodesAreIllegal :
    let ops := [0x01#8, 0x02#8, 0x03#8, 0x04#8, 0x05#8, 0x10#8, 0x11#8, 0x12#8, 0x20#8, 0x21#8, 0x30#8, 0x31#8]
    (0x00000000#32).extractLsb' 24 8 ∉ ops ∧ (0x06000000#32).extractLsb' 24 8 ∉ ops ∧
    (0x32000000#32).extractLsb' 24 8 ∉ ops ∧ (0xFFFFFFFF#32).extractLsb' 24 8 ∉ ops := by decide

theorem witness_ReservedBitsAreIllegal :
    ((0x20000001#32).extractLsb' 24 8 ∈ [0x01#8, 0x04#8, 0x05#8, 0x20#8, 0x30#8] ∧
      (0x20000001#32).extractLsb' 0 24 ≠ 0#24) ∧
    ((0x03000100#32).extractLsb' 24 8 = 0x03#8 ∧ (0x03000100#32).extractLsb' 8 16 ≠ 0#16) ∧
    ((0x10010041#32).extractLsb' 24 8 ∈ [0x02#8, 0x10#8, 0x11#8, 0x12#8] ∧ (0x10010041#32).extractLsb' 16 8 ≠ 0#8) := by
  decide

theorem witness_WrongPortHasNoOtherEffect : (0x31FFFFFF#32).extractLsb' 24 8 = 0x31#8 ∧
    (0x20000001#32).extractLsb' 24 8 ∈
      [0x01#8, 0x02#8, 0x03#8, 0x04#8, 0x05#8, 0x10#8, 0x11#8, 0x12#8, 0x20#8, 0x21#8, 0x30#8] := by decide

theorem witness_FirstErrorIsReported_decode : rowOf ((0x00000001#32).extractLsb' 24 8) = none ∧
    (∃ r, rowOf ((0x20000001#32).extractLsb' 24 8) = some r ∧ r.port ≠ .sink) ∧
    ∃ r, rowOf ((0x20000001#32).extractLsb' 24 8) = some r ∧ r.port = .control ∧ 0x20000001#32 &&& r.mask ≠ r.pattern :=
  ⟨by decide, ⟨_, rfl, by decide⟩, _, rfl, by decide, by decide⟩

/-- Each clause with the later errors of the command present too, where the state allows it. -/
theorem witness_FirstErrorIsReported_exec :
    (∃ t, exec (.frmBuild 256) State.reset = .next t) ∧
    (∃ t, exec (.frmBuild 255) State.reset = .next t ∧ ∃ i < 255, State.reset.payW i = false) ∧
    (∃ t, exec (.pktRd 65535) State.reset = .next t ∧ State.reset.pktValid = false) ∧
    (∃ t, exec (.pktRd 8) built = .next t ∧ built.pktValid = true ∧ built.pktLen ≤ 8) ∧
    (∃ s t : State, synRunWith Config.hw s = .next t ∧ s.streamBusy = true ∧ s.pktValid = false) ∧
    (∃ t, synRunWith Config.hw State.reset = .next t ∧ State.reset.streamBusy = false ∧ State.reset.pktValid = false) ∧
    (∃ t, synRunWith small built = .next t ∧ small.waveCap < 2 * small.pairs built.pktLen) ∧
    (∃ t, synRunWith overflowing built = .next t ∧ 2 * overflowing.pairs built.pktLen ≤ overflowing.waveCap) ∧
    (∃ t, exec (.wavRd 16777215) State.reset = .next t ∧ State.reset.wavValid = false) ∧
    (∃ t, exec (.wavRd 1378000) waved = .next t ∧ waved.wavValid = true ∧ waved.wlen ≤ 1378000) ∧
    (∃ s t : State, exec .fifoArm s = .next t ∧ s.streamBusy = true ∧ s.wavValid = false) ∧
    ∃ t, exec .fifoArm State.reset = .next t ∧ State.reset.streamBusy = false ∧ State.reset.wavValid = false := by
  have hs : small.waveCap < 2 * small.pairs built.pktLen := by rw [built_len, small_pairs]; decide
  have ho : 2 * overflowing.pairs built.pktLen ≤ overflowing.waveCap := by rw [built_len]; decide
  exact ⟨⟨_, rfl⟩, ⟨_, rfl, 0, by decide, rfl⟩, ⟨_, rfl, rfl⟩, ⟨_, execPktRd_range rfl built_len.le, rfl, built_len.le⟩,
    ⟨{ State.reset with armed := true }, _, guardConfig_valid hw_valid _, rfl, rfl⟩,
    ⟨_, guardConfig_valid hw_valid _, rfl, rfl⟩,
    ⟨_, (guardConfig_valid small_valid _).trans (synRunSteps_exhausted built_idle rfl hs), hs⟩,
    ⟨_, (guardConfig_valid overflowing_valid _).trans (synRunSteps_overflow built_idle rfl ho built_read overflowing_none), ho⟩,
    ⟨_, rfl, rfl⟩, ⟨_, execWavRd_range rfl waved_len.le, rfl, waved_len.le⟩,
    ⟨{ State.reset with armed := true }, _, rfl, rfl, rfl⟩, _, rfl, rfl, rfl⟩

theorem witness_AssemblerFollowsItsTable : assemble "PAY.WR" [255, 255] = some (.payWr 255 0xFF#8) ∧
    65535 ≤ 0xFFFF ∧ (255 ≤ 0xFF ∧ 255 ≤ 0xFF) ∧ 16777215 ≤ 0xFFFFFF ∧
    ("CRC.SEED" ∈ ["CRC.SEED", "CRC.RD", "CRC.RDC", "SYN.RUN", "FIFO.ARM"] ∧ [0].length ≠ 0) ∧
    ("FIFO.FILL" ∈ ["CRC.LOAD", "CRC.UPD", "FRM.BUILD", "PKT.RD", "WAV.RD", "FIFO.FILL"] ∧ ([] : List Nat).length ≠ 1) ∧
    [0].length ≠ 2 := by decide

theorem witness_SendStartsATransmission : (start []).Inv ∧ (start []).streamBusy = false ∧
    (finished.Inv ∧ finished.streamBusy = false) ∧ (List.replicate 255 0x41#8).length ≤ 255 :=
  ⟨start_inv _, rfl, ⟨finished_inv, by simp [State.streamBusy, finished_done]⟩, List.length_replicate.le⟩

theorem witness_StepRunsTheDecodedCommand :
    ((start [.ctlWrite 0x0 4 0x03000001#32]).inputs = [.ctlWrite 0x0 4 0x03000001#32] ∧
      decode .control 0x03000001#32 = .ok (.crcUpd 0x01#8)) ∧
    ((start [.sinkRequest 0x31000010#32]).inputs = [.sinkRequest 0x31000010#32] ∧
      decode .sink 0x31000010#32 = .ok (.fifoFill 16)) ∧ (start []).inputs = [] ∧ Instr.crcSeed ≠ .synRun := by decide

theorem witness_StepRunsTheDecodedCommand_valid : SC.Valid ∧ ¬invalidSC.Valid := ⟨SC_valid, invalidSC_not⟩

theorem witness_StepRunsTheDecodedCommand_config : ∀ w rest,
    (start [.ctlWrite 0x0 4 0x03000001#32]).inputs = .ctlWrite 0x0 4 w :: rest → decode .control w ≠ .ok .synRun := by
  intro w rest h
  cases h
  decide

theorem witness_ControlPortWindow : decode .control 0x20000000#32 = .ok .synRun := by decide

theorem witness_OnlyNonTransactionsAreRefused :
    (start [.ctlRead 0x0 4]).inputs = [.ctlRead 0x0 4] ∧ (start [.ctlRead 0x8 4]).inputs = [.ctlRead 0x8 4] := by decide

theorem witness_ResetPutsEveryRegisterToItsValue : (start [.reset]).inputs = [.reset] := rfl

/-- A command that succeeds, one that faults, and one that AmplitudeOverflow does not concern. -/
theorem witness_ControlFaultWritesOnlyItsCode :
    (∃ t, step (start [.ctlWrite 0x0 4 0x04000000#32]) = .next t ∧ t.lastErr = 0x00#8) ∧
    ∃ t, step (start [.ctlWrite 0x0 4 0x20000000#32]) = .next t ∧ t.lastErr ≠ 0x00#8 ∧ t.lastErr ≠ 0x08#8 :=
  ⟨⟨_, rfl, rfl⟩, _, rfl, by decide, by decide⟩

theorem witness_SinkNeverTouchesTheControlSide :
    (∃ t, step { State.reset with armed := true, inputs := [.sinkRequest 0x31000010#32] } = .next t ∧ t.sinkErr = 0x00#8) ∧
    ∃ t, step (start [.sinkRequest 0x31000010#32]) = .next t ∧ t.sinkErr ≠ 0x00#8 :=
  ⟨⟨_, rfl, rfl⟩, _, rfl, by decide⟩

theorem witness_StickyRecordsEveryFault : (∃ t, step (start [.ctlWrite 0x0 4 0x00000000#32]) = .next t) ∧
    (∃ t, step (start [.sinkRequest 0x00000000#32]) = .next t) ∧ (∃ t, step (start [.ctlRead 0x8 4]) = .next t) ∧
    ∃ t, step (start [.reset]) = .next t := ⟨⟨_, rfl⟩, ⟨_, rfl⟩, ⟨_, rfl⟩, _, rfl⟩

theorem witness_OnlyValueCommandsWriteResult :
    (∃ t, exec .crcSeed State.reset = .next t ∧ ∀ len j n, Instr.crcSeed ≠ .crcRd ∧ Instr.crcSeed ≠ .crcRdc ∧
      Instr.crcSeed ≠ .frmBuild len ∧ Instr.crcSeed ≠ .pktRd j ∧ Instr.crcSeed ≠ .synRun ∧ Instr.crcSeed ≠ .wavRd n) ∧
    ∃ t, exec .synRun State.reset = .next t ∧ t.lastErr ≠ 0x00#8 := ⟨⟨_, rfl, by simp⟩, _, rfl, by decide⟩

theorem witness_OnlyCrcCommandsUseTheAccumulator : exec .synRun built = .next waved ∧ ∀ imm b,
    Instr.synRun ≠ .crcSeed ∧ Instr.synRun ≠ .crcLoad imm ∧ Instr.synRun ≠ .crcUpd b ∧ Instr.synRun ≠ .crcRd ∧
      Instr.synRun ≠ .crcRdc := ⟨built_run, by simp⟩

theorem witness_OnlyFrameBuildChangesThePacket :
    (exec .synRun built = .next waved ∧ ∀ len, Instr.synRun = .frmBuild len → waved.lastErr ≠ 0x00#8) ∧
    ∃ t, exec (.frmBuild 256) built = .next t ∧ ∀ len, Instr.frmBuild 256 = .frmBuild len → t.lastErr ≠ 0x00#8 :=
  ⟨⟨built_run, by simp⟩, _, rfl, fun _ _ => by decide⟩

theorem witness_EveryRegisterHasItsOwner :
    exec .synRun built = .next waved ∧ (∃ t, exec (.fifoFill 16) armed = .next t) ∧ exec .fifoArm waved = .next armed :=
  ⟨built_run, exec_total armed_inv _, execFifoArm_ok rfl rfl⟩

theorem witness_BusyStreamIsFrozen : let s := { armed with inputs := [.ctlRead 0x8 4] }
    State.streamBusy s = true ∧ (∃ t, step s = .next t) ∧ (∀ rest, s.inputs ≠ .reset :: rest) ∧
    ∀ w rest, s.inputs ≠ .sinkRequest w :: rest :=
  ⟨(State.streamBusy_congr rfl rfl).trans armed_busy, ⟨_, rfl⟩, fun _ h => by simp at h, fun _ _ h => by simp at h⟩

theorem witness_StepKeepsTheInvariant :
    (start [.ctlWrite 0x0 4 0x20000000#32]).Inv ∧ (start [.ctlWrite 0x0 4 0x20000000#32]).InvWith SC ∧
    (∃ t, step (start [.ctlWrite 0x0 4 0x20000000#32]) = .next t) ∧
    ∃ t, stepWith SC (start [.ctlWrite 0x0 4 0x20000000#32]) = .next t :=
  ⟨start_inv _, start_inv _, ⟨_, rfl⟩, exists_next (by decide +kernel)⟩

theorem witness_EveryTransactionCompletes : (start [.ctlRead 0x8 4]).Inv ∧ (start []).Inv ∧
    (SC.Valid ∧ (start [.ctlRead 0x8 4]).InvWith SC) ∧
    ∀ ev rest, (start [.ctlRead 0x8 4]).inputs = ev :: rest → ev.isTransaction = true :=
  ⟨start_inv _, start_inv _, ⟨SC_valid, start_inv _⟩, fun ev rest h => by cases h; rfl⟩

end Sys2Proof.Tests
end

section
/-! PROOFS. The status fields, STICKY and the CRC accumulator (10_state.md R23, R32, R34, R37). -/

namespace Sys2Proof.Machine

/-! The fields of STATUS (R34). -/

theorem statusWord_lastErr (s : State) : s.statusWord.extractLsb' 0 8 = s.lastErr :=
  BitVec.extractLsb'_append_eq_right

theorem statusWord_sinkErr (s : State) : s.statusWord.extractLsb' 8 8 = s.sinkErr := by
  rw [State.statusWord, BitVec.extractLsb'_append_eq_of_le (by decide)]
  exact BitVec.extractLsb'_append_eq_right

theorem statusWord_sticky (s : State) : s.statusWord.getLsbD 16 = s.sticky := by
  simp only [State.statusWord, BitVec.getLsbD_append]
  simp

theorem statusWord_fifoState (s : State) : s.statusWord.extractLsb' 17 2 = s.fifoState.code := by
  rw [State.statusWord, BitVec.extractLsb'_append_eq_of_le (by decide),
    BitVec.extractLsb'_append_eq_of_le (by decide), BitVec.extractLsb'_append_eq_of_le (by decide)]
  exact BitVec.extractLsb'_append_eq_right

theorem statusWord_pktValid (s : State) : s.statusWord.getLsbD 19 = s.pktValid := by
  simp only [State.statusWord, BitVec.getLsbD_append]
  simp

theorem statusWord_wavValid (s : State) : s.statusWord.getLsbD 20 = s.wavValid := by
  simp only [State.statusWord, BitVec.getLsbD_append]
  simp

theorem statusWord_reserved (s : State) : s.statusWord.extractLsb' 21 11 = 0#11 := by
  unfold State.statusWord
  iterate 6 rw [BitVec.extractLsb'_append_eq_of_le (by decide)]
  exact BitVec.extractLsb'_eq_self

/-- Settles O47: each field of STATUS is read where it was appended, and the FIFO state is the table's function of ARMED
and REM. -/
theorem statusFieldsAreAssembled : Obligations.StatusFieldsAreAssembled := fun s =>
  ⟨statusWord_lastErr s, statusWord_sinkErr s, statusWord_sticky s, statusWord_fifoState s, State.fifoState_eq_idle,
    State.fifoState_eq_streaming, State.fifoState_eq_draining, State.fifoState_eq_done, statusWord_pktValid s,
    statusWord_wavValid s, statusWord_reserved s⟩

/-! STICKY (R37): the code a command leaves on its own port says whether it raised an error. -/

/-- The error code of a port: LAST_ERR (R35) or SINK_ERR (R36). -/
def State.errCode (s : State) : Port → BitVec 8
  | .control => s.lastErr
  | .sink => s.sinkErr

@[simp] theorem State.errCode_control (s : State) : s.errCode .control = s.lastErr := rfl
@[simp] theorem State.errCode_sink (s : State) : s.errCode .sink = s.sinkErr := rfl

@[simp] theorem State.raise_errCode (p : Port) (e : ErrorCode) (s : State) : (s.raise p e).errCode p = e.code := by
  cases p <;> rfl

theorem State.raise_records (p : Port) (e : ErrorCode) (s : State) :
    (s.raise p e).sticky = (s.sticky || (s.raise p e).errCode p != 0x00#8) := by
  simp [e.code_ne_zero]

theorem decode_port {p : Port} {w : Word} {i : Instr} (h : decode p w = .ok i) : i.port = p := by
  cases p with
  | control =>
    cases i with
    | fifoFill n => exact absurd rfl (decode_control_ne h n)
    | _ => rfl
  | sink => obtain ⟨n, rfl⟩ := decode_sink_eq h; rfl

/-- A command sets STICKY exactly when it leaves an error code on its own port, and never clears it. -/
theorem exec_sticky {i : Instr} {s t : State} (he : exec i s = .next t) :
    t.sticky = (s.sticky || t.errCode i.port != 0x00#8) := by
  cases hp : i.port with
  | control =>
    rcases exec_control hp he with ⟨hl, hs⟩ | ⟨e, -, rfl⟩ | ⟨-, rfl, -⟩
    · simp [hl, hs]
    · exact State.raise_records .control e s
    · exact State.raise_records .control _ s.dropWave
  | sink =>
    cases i with
    | fifoFill n =>
      rcases execFifoFill_next he with ⟨-, rfl⟩ | ⟨-, _, -, rfl⟩ | ⟨-, rfl⟩ | ⟨-, rfl⟩
      · exact State.raise_records .sink _ s
      all_goals simp
    | _ => cases hp

/-- Settles O52, by what a step can do: a decode error or a command on a port, a read, or reset. -/
theorem stickyRecordsEveryFault : Obligations.StickyRecordsEveryFault := by
  intro s t ev rest hin he
  obtain ⟨hnil, -⟩ | ⟨_, rest', hev, hcase⟩ := stepBy_next he
  · simp [hin] at hnil
  obtain ⟨rfl, rfl⟩ : ev = _ ∧ rest = rest' := by simpa [hin] using hev
  obtain ⟨p, w, rfl, hcmd⟩ | ⟨_, _, _, rfl, -, rfl⟩ | ⟨rfl, rfl⟩ := hcase
  · have hport : t.sticky = (s.sticky || t.errCode p != 0x00#8) := by
      obtain ⟨e, -, rfl⟩ | ⟨i, hd, hi⟩ := hcmd
      · exact State.raise_records p _ (s.begin rest)
      · simpa [decode_port hd] using exec_sticky hi
    cases p <;> exact hport
  · rfl
  · rfl

/-! The accumulator (R23). -/

/-- Only CRC.SEED, CRC.LOAD and CRC.UPD write ACC. -/
theorem exec_acc {i : Instr} {s t : State} (hi : ∀ imm b, i ≠ .crcSeed ∧ i ≠ .crcLoad imm ∧ i ≠ .crcUpd b)
    (he : exec i s = .next t) : t.acc = s.acc := by
  cases i with
  | crcSeed => simp at hi
  | crcLoad imm => simp at hi
  | crcUpd b => simp at hi
  | crcRd => rw [← next_inj he]; simp
  | crcRdc => rw [← next_inj he]; simp
  | payWr idx b => rcases execPayWr_next he with ⟨-, rfl⟩ | ⟨-, rfl⟩ <;> simp
  | frmBuild len => rcases execFrmBuild_next he with ⟨-, rfl⟩ | ⟨-, -, rfl⟩ | ⟨-, p, -, -, rfl⟩ <;> simp
  | pktRd j => rcases execPktRd_next he with ⟨-, rfl⟩ | ⟨-, -, rfl⟩ | ⟨-, -, b, -, rfl⟩ <;> simp
  | synRun =>
    rcases synRunSteps_next he with ⟨-, rfl⟩ | ⟨-, -, rfl⟩ | ⟨-, -, -, rfl⟩ |
      ⟨-, -, -, p, -, ⟨-, rfl⟩ | ⟨bytes, o, -, rfl⟩⟩ <;> simp [State.synthesized]
  | wavRd j => rcases execWavRd_next he with ⟨-, rfl⟩ | ⟨-, -, rfl⟩ | ⟨-, -, b, -, rfl⟩ <;> simp
  | fifoArm => rcases execFifoArm_next he with ⟨-, rfl⟩ | ⟨-, -, rfl⟩ | ⟨-, -, rfl⟩ <;> simp
  | fifoFill n => rcases execFifoFill_next he with ⟨-, rfl⟩ | ⟨-, b, -, rfl⟩ | ⟨-, rfl⟩ | ⟨-, rfl⟩ <;> simp

/-- Any other command takes the same branch under another ACC, since no condition of a branch and no value it writes
reads ACC: it commutes with `setAcc`. -/
theorem exec_setAcc {i : Instr} {s t : State}
    (hi : ∀ imm b, i ≠ .crcSeed ∧ i ≠ .crcLoad imm ∧ i ≠ .crcUpd b ∧ i ≠ .crcRd ∧ i ≠ .crcRdc)
    (he : exec i s = .next t) (v : Half) : exec i (s.setAcc v) = .next (t.setAcc v) := by
  cases i with
  | crcSeed => simp at hi
  | crcLoad imm => simp at hi
  | crcUpd b => simp at hi
  | crcRd => simp at hi
  | crcRdc => simp at hi
  | payWr idx b =>
    rcases execPayWr_next he with ⟨hx, rfl⟩ | ⟨hx, rfl⟩
    · exact execPayWr_range hx b _
    · exact execPayWr_ok hx b _
  | frmBuild len =>
    rcases execFrmBuild_next he with ⟨hl, rfl⟩ | ⟨hl, ⟨k, hk, hw⟩, rfl⟩ | ⟨hl, p, hp, -, rfl⟩
    · exact execFrmBuild_large hl _
    · have hn : s.pay.readBlock 0 len = none :=
        Memory.readBlock_eq_none.mpr ⟨k, hk, by simpa using payW_eq_false.mp hw⟩
      exact execFrmBuild_unwritten (s := s.setAcc v) hl hn
    · exact execFrmBuild_ok (s := s.setAcc v) hl hp
  | pktRd j =>
    rcases execPktRd_next he with ⟨hv, rfl⟩ | ⟨hv, hj, rfl⟩ | ⟨hv, hj, b, hb, rfl⟩
    · exact execPktRd_noPacket (s := s.setAcc v) hv j
    · exact execPktRd_range (s := s.setAcc v) hv hj
    · exact execPktRd_ok (s := s.setAcc v) hv hj hb
  | synRun =>
    rcases synRunSteps_next he with ⟨hb, rfl⟩ | ⟨hb, hv, rfl⟩ | ⟨hb, hv, hc, rfl⟩ |
      ⟨hb, hv, hc, p, hp, ⟨hs, rfl⟩ | ⟨bytes, o, hs, rfl⟩⟩
    · exact synRunSteps_frozen (s := s.setAcc v) hb _
    · exact synRunSteps_noPacket (s := s.setAcc v) hb hv _
    · exact synRunSteps_exhausted (s := s.setAcc v) hb hv hc
    · exact synRunSteps_overflow (s := s.setAcc v) hb hv hc hp hs
    · exact synRunSteps_ok (s := s.setAcc v) hb hv hc hp hs
  | wavRd j =>
    rcases execWavRd_next he with ⟨hv, rfl⟩ | ⟨hv, hj, rfl⟩ | ⟨hv, hj, b, hb, rfl⟩
    · exact execWavRd_noWaveform (s := s.setAcc v) hv j
    · exact execWavRd_range (s := s.setAcc v) hv hj
    · exact execWavRd_ok (s := s.setAcc v) hv hj hb
  | fifoArm =>
    rcases execFifoArm_next he with ⟨hb, rfl⟩ | ⟨hb, hv, rfl⟩ | ⟨hb, hv, rfl⟩
    · exact execFifoArm_busy (s := s.setAcc v) hb
    · exact execFifoArm_noWaveform (s := s.setAcc v) hb hv
    · exact execFifoArm_ok (s := s.setAcc v) hb hv
  | fifoFill n =>
    rcases execFifoFill_next he with ⟨hf, rfl⟩ | ⟨hf, bytes, hb, rfl⟩ | ⟨hf, rfl⟩ | ⟨hf, rfl⟩
    · exact execFifoFill_idle (s := s.setAcc v) hf n
    · exact execFifoFill_streaming (s := s.setAcc v) hf hb
    · exact execFifoFill_draining (s := s.setAcc v) hf n
    · exact execFifoFill_done (s := s.setAcc v) hf n

theorem xor_crcXorOut (v : Half) : v ^^^ Config.crcXorOut = ~~~v := BitVec.xor_allOnes

theorem execCrcRdc_eq (s : State) : execCrcRdc s = .next (s.setResult ((~~~s.acc).setWidth 32)).ctlOk := by
  rw [execCrcRdc, xor_crcXorOut, zext32]

/-- Settles O54: the five CRC commands by their equations, every other command by `exec_acc` and `exec_setAcc`. -/
theorem onlyCrcCommandsUseTheAccumulator : Obligations.OnlyCrcCommandsUseTheAccumulator := by
  refine ⟨fun s v b => ⟨⟨_, rfl, rfl⟩, ⟨_, rfl, rfl⟩, ⟨_, rfl, rfl⟩, ⟨_, rfl, rfl, rfl⟩, ⟨_, execCrcRdc_eq s, rfl, rfl⟩⟩,
    fun i s t v he hi => ⟨exec_acc (fun imm b => ?_) he, exec_setAcc hi he v⟩, rfl⟩
  obtain ⟨hseed, hload, hupd, -⟩ := hi imm b
  exact ⟨hseed, hload, hupd⟩

end Sys2Proof.Machine
end

section
/-! PROOFS. The control port window (20_memory.md R55, R56, R57). -/

namespace Sys2Proof.Machine

/-! What the two accessors of the window answer. -/

theorem isCommandWrite_iff {offset bytes : Nat} : isCommandWrite offset bytes = true ↔ offset = 0x0 ∧ bytes = 4 := by
  simp [isCommandWrite]

@[simp] theorem portRead_result (s : State) : s.portRead 0x4 4 = some s.result := rfl
@[simp] theorem portRead_status (s : State) : s.portRead 0x8 4 = some s.statusWord := rfl

theorem portRead_eq_none {s : State} {offset bytes : Nat} :
    s.portRead offset bytes = none ↔ ¬((offset = 0x4 ∨ offset = 0x8) ∧ bytes = 4) := by
  by_cases hb : bytes = 4
  · by_cases hr : offset = 0x4
    · simp [hb, hr]
    · by_cases hs : offset = 0x8 <;> simp [State.portRead, hb, hr, hs]
  · simp [State.portRead, hb]

/-- STATUS is assembled from registers that taking an event leaves as they are (R34). -/
@[simp] theorem statusWord_begin (rest : List PortEvent) (s : State) : (s.begin rest).statusWord = s.statusWord := rfl

theorem PortEvent.isTransaction_eq_false {ev : PortEvent} :
    ev.isTransaction = false ↔
      (∃ offset bytes w, ev = .ctlWrite offset bytes w ∧ ¬(offset = 0x0 ∧ bytes = 4)) ∨
      ∃ offset bytes, ev = .ctlRead offset bytes ∧ ¬((offset = 0x4 ∨ offset = 0x8) ∧ bytes = 4) := by
  cases ev <;> simp [PortEvent.isTransaction]

/-! One event, by its kind. -/

theorem step_event {s : State} {ev : PortEvent} {rest : List PortEvent} (h : s.inputs = ev :: rest) :
    step s = portStep exec ev (s.begin rest) := by
  simp [step, stepBy, h]

theorem commandStep_ok {p : Port} {w : Word} {i : Instr} (h : decode p w = .ok i) (run : Instr → State → Result)
    (s : State) : commandStep run p w s = run i s := by
  simp [commandStep, h]

theorem portStep_command (run : Instr → State → Result) (p : Port) (w : Word) (s : State) :
    portStep run (commandEvent p w) s = commandStep run p w s := by
  cases p <;> rfl

theorem portStep_read {s : State} {offset bytes : Nat} {v : Word} (h : s.portRead offset bytes = some v)
    (run : Instr → State → Result) :
    portStep run (.ctlRead offset bytes) s = .next { s with answer := some (.value v) } := by
  simp [portStep, h]

/-- Settles O46: the word's command by `commandStep_ok`, the two reads by what the window answers. -/
theorem controlPortWindow : Obligations.ControlPortWindow := by
  intro s rest
  refine ⟨fun w i hd => ?_, ?_, ?_⟩
  · rw [step_event rfl]
    exact (portStep_command exec .control w _).trans (commandStep_ok hd exec _)
  · rw [step_event rfl]
    exact portStep_read (portRead_result _) exec
  · rw [step_event rfl]
    exact portStep_read (portRead_status _) exec

/-! Which events are refused (R56): a word on a port never is, since it raises a decode error or runs a command. -/

theorem commandStep_ne_refused {run : Instr → State → Result} (hrun : ∀ i s r, run i s ≠ .refused r) (p : Port) (w : Word)
    (s : State) (r : Refusal) : commandStep run p w s ≠ .refused r := by
  cases hd : decode p w with
  | error e => simp [commandStep, hd]
  | ok i => simpa [commandStep_ok hd] using hrun i s r

/-- Over commands that never refuse, a port refuses exactly the events that are no transaction. -/
theorem portStep_refused_iff {run : Instr → State → Result} (hrun : ∀ i s r, run i s ≠ .refused r) (ev : PortEvent)
    (s : State) : (∃ r, portStep run ev s = .refused r) ↔ ev.isTransaction = false := by
  cases ev with
  | ctlWrite offset bytes w =>
    by_cases h : offset = 0x0 ∧ bytes = 4
    · simp [portStep, PortEvent.isTransaction, isCommandWrite_iff, h, commandStep_ne_refused hrun]
    · simp [portStep, PortEvent.isTransaction, isCommandWrite_iff, h]
  | ctlRead offset bytes =>
    cases hv : s.portRead offset bytes with
    | none => simpa [portStep, PortEvent.isTransaction, hv] using portRead_eq_none.mp hv
    | some v =>
      have h : (offset = 0x4 ∨ offset = 0x8) ∧ bytes = 4 := by
        by_contra h
        simp [portRead_eq_none.mpr h] at hv
      rw [portStep_read hv]
      simp [PortEvent.isTransaction, h]
  | sinkRequest w => simp [portStep, PortEvent.isTransaction, commandStep_ne_refused hrun]
  | reset => simp [portStep, PortEvent.isTransaction]

/-- Settles O48: no command refuses, so the refused events are those that are no transaction. -/
theorem onlyNonTransactionsAreRefused : Obligations.OnlyNonTransactionsAreRefused := by
  intro s ev rest hin
  rw [step_event hin, portStep_refused_iff exec_ne_refused]
  exact PortEvent.isTransaction_eq_false

end Sys2Proof.Machine
end

section
/-! PROOFS. Decoding (30_encoding.md R77, R78, R79): match and mask, reserved opcodes, reserved operand bits. -/

namespace Sys2Proof.Machine

/-! The rows of the opcode map (R77). -/

theorem opTable_ops : opTable.map OpRow.op =
    [0x01#8, 0x02#8, 0x03#8, 0x04#8, 0x05#8, 0x10#8, 0x11#8, 0x12#8, 0x20#8, 0x21#8, 0x30#8, 0x31#8] := rfl

/-- Every mask covers the opcode (R70). -/
theorem opOf_mask : ∀ r ∈ opTable, opOf r.mask = 0xFF#8 := by decide

theorem place_op : ∀ r ∈ opTable, place r.op 24 = r.pattern := by decide

/-- A word that meets a row's match and mask has the row's opcode. -/
theorem op_eq_of_match {r : OpRow} (hm : r ∈ opTable) {w : Word} (hw : w &&& r.mask = r.pattern) : r.op = opOf w :=
  calc r.op = opOf (place r.op 24) := (extract_place_self r.op 24 (by omega)).symm
    _ = opOf (w &&& r.mask) := by rw [place_op r hm, hw]
    _ = opOf w &&& opOf r.mask := BitVec.extractLsb'_and
    _ = opOf w := by rw [opOf_mask r hm]; exact BitVec.and_allOnes

/-- The command a row spells is one of the row's opcode. -/
theorem opOf_encode_read {r : OpRow} (hm : r ∈ opTable) (w : Word) : opOf (encode (r.read w)) = r.op := by
  simp only [opTable, List.mem_cons, List.not_mem_nil, or_false] at hm
  rcases hm with rfl | rfl | rfl | rfl | rfl | rfl | rfl | rfl | rfl | rfl | rfl | rfl <;>
    simp only [encode, opOf_encodeN, opOf_encodeB8, opOf_encodeI16, opOf_encodeIB, opOf_encodeU24]

theorem row_eq_of_op {r r' : OpRow} (hm : r ∈ opTable) (hm' : r' ∈ opTable) (ho : r.op = r'.op) : r = r' :=
  Option.some.inj ((rowOf_mem hm).symm.trans (ho ▸ rowOf_mem hm'))

/-- No two rows spell one command. -/
theorem row_eq_of_read {r r' : OpRow} (hm : r ∈ opTable) (hm' : r' ∈ opTable) {w w' : Word}
    (h : r.read w = r'.read w') : r = r' :=
  row_eq_of_op hm hm' (by rw [← opOf_encode_read hm w, h, opOf_encode_read hm' w'])

/-- A word decodes to a row's command, with the fields of the word, exactly when it meets the row's match and mask. -/
theorem decode_eq_read_iff (w : Word) :
    ∀ r ∈ opTable, (decode r.port w = .ok (r.read w) ↔ w &&& r.mask = r.pattern) := by
  intro r hm
  rw [decode_eq_ok]
  constructor
  · rintro ⟨r', hm', -, -, hw, hread⟩
    obtain rfl := row_eq_of_read hm' hm hread
    exact hw
  · intro hw
    exact ⟨r, hm, op_eq_of_match hm hw, rfl, hw, rfl⟩

/-- Settles O35: `decode_eq_read_iff` at each of the twelve rows. -/
theorem matchAndMaskSelectTheCommand : Obligations.MatchAndMaskSelectTheCommand := by
  intro w
  have h := decode_eq_read_iff w
  simp only [opTable, List.forall_mem_cons] at h
  obtain ⟨seed, load, upd, rd, rdc, payWr, build, pktRd, run, wavRd, arm, fill, -⟩ := h
  exact ⟨seed, load, upd, rd, rdc, payWr, build, pktRd, run, wavRd, arm, fill⟩

/-! A word that does not decode: the step raises the decode error on the word's port, and nothing else. -/

theorem commandStep_error {p : Port} {w : Word} {e : DecodeError} (h : decode p w = .error e)
    (run : Instr → State → Result) (s : State) : commandStep run p w s = .next (s.raise p (decodeErrorCode e)) := by
  simp [commandStep, h]

theorem step_decodeError {p : Port} {w : Word} {e : DecodeError} (h : decode p w = .error e) (s : State)
    (rest : List PortEvent) :
    step { s with inputs := commandEvent p w :: rest } = .next ((s.begin rest).raise p (decodeErrorCode e)) := by
  rw [step_event rfl, portStep_command, commandStep_error h]
  rfl

/-- Settles O39: a reserved opcode is that of no row, so the word is illegal on both ports. -/
theorem reservedOpcodesAreIllegal : Obligations.ReservedOpcodesAreIllegal := by
  intro w s rest hop
  have hd (p : Port) : decode p w = .error .illegalCommand :=
    decode_reserved fun r hm ho => hop (opTable_ops ▸ List.mem_map.mpr ⟨r, hm, ho⟩)
  exact ⟨step_decodeError (hd .control) s rest, step_decodeError (hd .sink) s rest⟩

/-! The rows of the formats with reserved operand bits (R71 to R74), by their masks. -/

theorem rows_formatN : ∀ op ∈ [0x01#8, 0x04#8, 0x05#8, 0x20#8, 0x30#8],
    ∃ r ∈ opTable, r.op = op ∧ r.port = .control ∧ r.mask = 0xFFFFFFFF#32 := by decide

theorem rows_formatB8 : ∃ r ∈ opTable, r.op = 0x03#8 ∧ r.port = .control ∧ r.mask = 0xFFFFFF00#32 := by decide

theorem rows_formatI16_IB : ∀ op ∈ [0x02#8, 0x10#8, 0x11#8, 0x12#8],
    ∃ r ∈ opTable, r.op = op ∧ r.port = .control ∧ r.mask = 0xFFFF0000#32 := by decide

/-- Where the mask covers exactly the bits from `k` up, a word with a bit set from bit `k` to bit 23 is illegal. -/
theorem decode_illegal_of_reserved {w mask : Word} {p : Port} (k : Nat)
    (hrow : ∃ r ∈ opTable, r.op = opOf w ∧ r.port = p ∧ r.mask = mask) (hk : k ≤ 24)
    (hmask : ∀ i < 32, mask.getLsbD i = decide (k ≤ i)) (hw : w.extractLsb' k (24 - k) ≠ 0#(24 - k)) :
    decode p w = .error .illegalCommand := by
  obtain ⟨r, hm, ho, rfl, rfl⟩ := hrow
  refine decode_reservedBits hm ho fun hmatch => ?_
  rw [← place_op r hm] at hmatch
  exact hw ((and_mask_eq w r.op k hk r.mask hmask).mp hmatch).2

/-- Settles O40: in each format the row's mask covers the reserved bits. -/
theorem reservedBitsAreIllegal : Obligations.ReservedBitsAreIllegal := by
  intro w s rest hw
  have hd : decode .control w = .error .illegalCommand := by
    obtain ⟨hop, hbits⟩ | ⟨hop, hbits⟩ | ⟨hop, hbits⟩ := hw
    · exact decode_illegal_of_reserved 0 (rows_formatN _ hop) (by omega) (by decide) hbits
    · exact decode_illegal_of_reserved 8 (hop ▸ rows_formatB8) (by omega) (by decide) hbits
    · exact decode_illegal_of_reserved 16 (rows_formatI16_IB _ hop) (by omega) (by decide) hbits
  exact step_decodeError hd s rest

end Sys2Proof.Machine
end

section
/-! PROOFS. The CRC accumulator commands (40_crc.md R102 to R106): their words, their effects and their illegal words. -/

namespace Sys2Proof.Machine

/-- A row's pattern with an operand in exactly the bits that its mask leaves free (R77) decodes to the row's command, as
the row reads it from the opcode and the operand. -/
theorem decode_pattern_or_operand {r : OpRow} (hm : r ∈ opTable) {k : Nat} (hk : k ≤ 24)
    (hmask : ∀ i < 32, r.mask.getLsbD i = decide (k ≤ i)) {v : BitVec k} {i : Instr}
    (hread : r.read (place r.op 24 ||| place v 0) = i) : decode r.port (r.pattern ||| v.setWidth 32) = .ok i := by
  have hword : r.pattern ||| v.setWidth 32 = place r.op 24 ||| place v 0 := by
    rw [place_op r hm, place, BitVec.shiftLeft_zero]
  have hop : (place r.op 24 ||| place v 0).extractLsb' 24 8 = r.op := by
    rw [extract_or, extract_place_self r.op 24 (by omega), extract_place_other v 0 24 8 (by omega), BitVec.or_zero]
  rw [hword, ← hread, decode_eq_read_iff _ r hm, ← place_op r hm]
  exact (and_mask_eq _ r.op k hk r.mask hmask).mpr ⟨hop, reserved_zero v hk⟩

theorem decode_crcLoad (v : Half) : decode .control (0x02000000#32 ||| v.setWidth 32) = .ok (.crcLoad v) :=
  decode_pattern_or_operand
    (r := ⟨0x02#8, .control, 0x02000000#32, 0xFFFF0000#32, fun w => .crcLoad (fieldImm16 w)⟩)
    (by simp [opTable]) (by omega) (by decide) (congrArg Instr.crcLoad (fieldImm16_encodeI16 0x02#8 v))

theorem decode_crcUpd (b : Byte) : decode .control (0x03000000#32 ||| b.setWidth 32) = .ok (.crcUpd b) :=
  decode_pattern_or_operand
    (r := ⟨0x03#8, .control, 0x03000000#32, 0xFFFFFF00#32, fun w => .crcUpd (fieldB w)⟩)
    (by simp [opTable]) (by omega) (by decide) (congrArg Instr.crcUpd (fieldB_encodeB8 0x03#8 b))

/-! The words of the two opcodes that are illegal (R79). -/

theorem decode_crcLoad_reserved {w : Word} (hop : w.extractLsb' 24 8 = 0x02#8) (hbits : w.extractLsb' 16 8 ≠ 0#8) :
    decode .control w = .error .illegalCommand :=
  decode_illegal_of_reserved 16 (hop ▸ rows_formatI16_IB 0x02#8 (by decide)) (by omega) (by decide) hbits

theorem decode_crcUpd_reserved {w : Word} (hop : w.extractLsb' 24 8 = 0x03#8) (hbits : w.extractLsb' 8 16 ≠ 0#16) :
    decode .control w = .error .illegalCommand :=
  decode_illegal_of_reserved 8 (hop ▸ rows_formatB8) (by omega) (by decide) hbits

theorem zext32_eq_append (v : Half) : zext32 v = 0#16 ++ v := BitVec.setWidth_eq_append (by omega)

/-- Settles O1: the word is computed, and the effect is the command's definition. -/
theorem crcSeedLoadsTheSeed : Obligations.CrcSeedLoadsTheSeed :=
  ⟨by decide, fun _ => rfl⟩

/-- Settles O2: the words of the opcode by its row of R77, the effect by the command's definition. -/
theorem crcLoadLoadsItsOperand : Obligations.CrcLoadLoadsItsOperand :=
  ⟨fun v _ => ⟨decode_crcLoad v, rfl⟩, fun _ => decode_crcLoad_reserved⟩

/-- Settles O3: the words of the opcode by its row of R77, the effect by the command's definition; the rule's four values
are computed. -/
theorem crcUpdateFoldsOneByte : Obligations.CrcUpdateFoldsOneByte :=
  ⟨fun b _ => ⟨decode_crcUpd b, rfl⟩, by decide, by decide, by decide, by decide, fun _ => decode_crcUpd_reserved⟩

/-- Settles O4: the two words are computed, and both commands write a zero-extended half into RESULT. -/
theorem crcReadsReturnTheAccumulator : Obligations.CrcReadsReturnTheAccumulator := by
  refine ⟨by decide, by decide, fun s => ?_⟩
  rw [← zext32_eq_append, ← zext32_eq_append]
  exact ⟨rfl, rfl⟩

end Sys2Proof.Machine
end

section
/-! PROOFS. The packet framer commands (41_framer.md R120 to R130): their words, the layout of the packet, and who changes
it. -/

namespace Sys2Proof.Machine

/-! The words of the three commands (R77). -/

theorem encodeIB_payWr (idx b : Byte) :
    encodeIB 0x10#8 idx b = 0x10000000#32 ||| (idx.setWidth 32 <<< 8) ||| b.setWidth 32 := by
  rw [encodeIB, place, place, place, BitVec.shiftLeft_zero]
  rfl

/-- Unlike the other two words, PAY.WR's holds two operands (format IB, R74). -/
theorem decode_payWr (idx b : Byte) :
    decode .control (0x10000000#32 ||| (idx.setWidth 32 <<< 8) ||| b.setWidth 32) = .ok (.payWr idx.toNat b) := by
  rw [← encodeIB_payWr]
  have hrow := decode_eq_read_iff (encodeIB 0x10#8 idx b)
    ⟨0x10#8, .control, 0x10000000#32, 0xFFFF0000#32, fun w => .payWr (fieldIdx w).toNat (fieldB w)⟩ (by simp [opTable])
  have hmatch := (mask_payWr _).mpr ⟨opOf_encodeIB 0x10#8 idx b, reserved_zero_IB b⟩
  simpa only [fieldIdx_encodeIB, fieldB_encodeIB] using hrow.mpr hmatch

theorem decode_frmBuild (len : Half) : decode .control (0x11000000#32 ||| len.setWidth 32) = .ok (.frmBuild len.toNat) :=
  decode_pattern_or_operand
    (r := ⟨0x11#8, .control, 0x11000000#32, 0xFFFF0000#32, fun w => .frmBuild (fieldImm16 w).toNat⟩)
    (by simp [opTable]) (by omega) (by decide)
    (congrArg (fun v : Half => Instr.frmBuild v.toNat) (fieldImm16_encodeI16 0x11#8 len))

theorem decode_pktRd (j : Half) : decode .control (0x12000000#32 ||| j.setWidth 32) = .ok (.pktRd j.toNat) :=
  decode_pattern_or_operand
    (r := ⟨0x12#8, .control, 0x12000000#32, 0xFFFF0000#32, fun w => .pktRd (fieldImm16 w).toNat⟩)
    (by simp [opTable]) (by omega) (by decide)
    (congrArg (fun v : Half => Instr.pktRd v.toNat) (fieldImm16_encodeI16 0x12#8 j))

/-! The payload memory after PAY.WR (R123). -/

theorem payW_eq_true {s : State} {i : Nat} : s.payW i = true ↔ (s.pay.read i).isSome := Iff.rfl

theorem State.writePay_payW_self (idx : Nat) (b : Byte) (s : State) : (s.writePay idx b).payW idx = true :=
  payW_eq_true.mpr (by simp)

theorem State.writePay_read_other {idx a : Nat} (h : a ≠ idx) (b : Byte) (s : State) :
    (s.writePay idx b).pay.read a = s.pay.read a := Memory.read_write_other s.pay b h

theorem State.writePay_payW_other {idx a : Nat} (h : a ≠ idx) (b : Byte) (s : State) :
    (s.writePay idx b).payW a = s.payW a := congrArg Option.isSome (s.writePay_read_other h b)

/-- Settles O9: the two branches of PAY.WR, and what its one store leaves. -/
theorem payloadWriteStoresOneByte : Obligations.PayloadWriteStoresOneByte := by
  refine ⟨decode_payWr, fun idx b s hidx => ?_, fun idx b s hidx => execPayWr_range hidx b s⟩
  exact ⟨(s.writePay idx b).ctlOk, execPayWr_ok hidx b s, Memory.read_write_self s.pay idx b, s.writePay_payW_self idx b,
    fun a ha => ⟨s.writePay_read_other ha b, s.writePay_payW_other ha b⟩, rfl⟩

/-! PKT.RD (R130). -/

/-- Settles O11: the three branches of PKT.RD; under the invariant every byte of a packet can be read. -/
theorem packetReadReturnsOneByte : Obligations.PacketReadReturnsOneByte := by
  refine ⟨decode_pktRd, fun j s hinv hv hj => ?_, fun j s hv => execPktRd_noPacket hv j,
    fun j s hv hj => execPktRd_range hv hj⟩
  obtain ⟨b, hb⟩ := hinv.read_packet hv hj
  exact ⟨b, hb, execPktRd_ok hv hj hb⟩

/-! The layout of a packet (R120): the payload starts at byte 6, and the CRC follows it. -/

theorem packetBytes_payload (payload : List Byte) {i : Nat} (h : i < payload.length) :
    (packetBytes payload)[6 + i]? = payload[i]? := by
  have hsplit : packetBytes payload = (Config.preamble ++ Config.sync ++ [lengthByte payload.length]) ++
      (payload ++ [highByte (frameCrc payload), lowByte (frameCrc payload)]) := List.append_assoc ..
  rw [hsplit, List.getElem?_append_right (Nat.le_add_right 6 i),
    show 6 + i - List.length (Config.preamble ++ Config.sync ++ [lengthByte payload.length]) = i from
      Nat.add_sub_cancel_left 6 i, List.getElem?_append_left h]

/-- The `k`-th byte of the CRC field, the high byte being the first (R58). -/
theorem packetBytes_crc (payload : List Byte) (k : Nat) : (packetBytes payload)[6 + payload.length + k]? =
    [highByte (frameCrc payload), lowByte (frameCrc payload)][k]? := by
  have hlen : (Config.preamble ++ Config.sync ++ [lengthByte payload.length] ++ payload).length = 6 + payload.length :=
    List.length_append
  rw [packetBytes, List.getElem?_append_right (hlen ▸ Nat.le_add_right _ k), hlen, Nat.add_sub_cancel_left]

/-! The packet memory after a build (R124). -/

theorem State.putPacket_read_lt {bs : List Byte} {a : Nat} (h : a < bs.length) (s : State) :
    (s.putPacket bs).pkt.read a = bs[a]? := by
  rw [State.putPacket_pkt, Memory.read_writeBlock, if_pos (by omega), Nat.sub_zero]

theorem State.putPacket_read_ge {bs : List Byte} {a : Nat} (h : bs.length ≤ a) (s : State) :
    (s.putPacket bs).pkt.read a = s.pkt.read a := by
  rw [State.putPacket_pkt, Memory.read_writeBlock, if_neg (by omega)]

/-- A payload whose bytes have all been written can be read (R25). -/
theorem readBlock_of_payW {len : Nat} {s : State} (h : ∀ i < len, s.payW i = true) :
    ∃ payload, s.pay.readBlock 0 len = some payload :=
  Memory.readBlock_isSome.mpr fun i hi => by simpa using payW_eq_true.mp (h i hi)

theorem readBlock_of_unwritten {len i : Nat} {s : State} (hi : i < len) (h : s.payW i = false) :
    s.pay.readBlock 0 len = none :=
  Memory.readBlock_eq_none.mpr ⟨i, hi, by simpa using payW_eq_false.mp h⟩

/-- Settles O10: the packet memory holds `packetBytes` of the bytes read from PAY, byte by byte from the layout; the two
errors are the branches that build nothing. -/
theorem frameBuildMakesThePacket : Obligations.FrameBuildMakesThePacket := by
  refine ⟨decode_frmBuild, fun len s hlen hw => ?_, fun len s hlen => execFrmBuild_large hlen s,
    fun len i s hlen hi hw => execFrmBuild_unwritten hlen (readBlock_of_unwritten hi hw), by decide⟩
  obtain ⟨payload, hp⟩ := readBlock_of_payW hw
  obtain ⟨rfl, hread⟩ := Memory.readBlock_eq_some.mp hp
  have hpay : ∀ i < payload.length, s.pay.read i = payload[i]? := by simpa using hread
  have hsize : (packetBytes payload).length = 8 + payload.length := packetBytes_length payload
  have hbyte (a : Nat) (ha : a < 8 + payload.length) :
      (s.putPacket (packetBytes payload)).pkt.read a = (packetBytes payload)[a]? :=
    s.putPacket_read_lt (hsize.symm ▸ ha)
  refine ⟨((s.putPacket (packetBytes payload)).setResult (natToWord (8 + payload.length))).ctlOk, payload,
    frameCrc payload, execFrmBuild_ok hlen hp, rfl, hpay, rfl, hbyte 0 (by omega), hbyte 1 (by omega),
    hbyte 2 (by omega), hbyte 3 (by omega), hbyte 4 (by omega), hbyte 5 (by omega), fun i hi => ?payload, ?high, ?low,
    fun a ha => s.putPacket_read_ge (hsize.trans_le ha), ?frame⟩
  case payload => exact (hbyte (6 + i) (by omega)).trans ((packetBytes_payload payload hi).trans (hpay i hi).symm)
  case high => exact (hbyte (6 + payload.length) (by omega)).trans (packetBytes_crc payload 0)
  case low =>
    rw [show 7 + payload.length = 6 + payload.length + 1 by omega]
    exact (hbyte _ (by omega)).trans (packetBytes_crc payload 1)
  case frame => rw [← hsize]; rfl

/-! Who changes the packet (R126). -/

/-- No other command than FRM.BUILD touches the packet. -/
theorem exec_packet {i : Instr} {s t : State} (hi : ∀ len, i ≠ .frmBuild len) (he : exec i s = .next t) :
    t.pkt = s.pkt ∧ t.pktLen = s.pktLen ∧ t.pktValid = s.pktValid := by
  cases i with
  | frmBuild len => exact absurd rfl (hi len)
  | crcSeed => rw [← next_inj he]; simp
  | crcLoad v => rw [← next_inj he]; simp
  | crcUpd b => rw [← next_inj he]; simp
  | crcRd => rw [← next_inj he]; simp
  | crcRdc => rw [← next_inj he]; simp
  | payWr idx b => rcases execPayWr_next he with ⟨-, rfl⟩ | ⟨-, rfl⟩ <;> simp
  | pktRd j => rcases execPktRd_next he with ⟨-, rfl⟩ | ⟨-, -, rfl⟩ | ⟨-, -, b, -, rfl⟩ <;> simp
  | synRun =>
    rcases synRunSteps_next he with ⟨-, rfl⟩ | ⟨-, -, rfl⟩ | ⟨-, -, -, rfl⟩ |
      ⟨-, -, -, p, -, ⟨-, rfl⟩ | ⟨bytes, o, -, rfl⟩⟩ <;> simp [State.synthesized]
  | wavRd j => rcases execWavRd_next he with ⟨-, rfl⟩ | ⟨-, -, rfl⟩ | ⟨-, -, b, -, rfl⟩ <;> simp
  | fifoArm => rcases execFifoArm_next he with ⟨-, rfl⟩ | ⟨-, -, rfl⟩ | ⟨-, -, rfl⟩ <;> simp
  | fifoFill n => rcases execFifoFill_next he with ⟨-, rfl⟩ | ⟨-, b, -, rfl⟩ | ⟨-, rfl⟩ | ⟨-, rfl⟩ <;> simp

/-- A FRM.BUILD that leaves an error code has done nothing but raise the error (R125). -/
theorem exec_frmBuild_failed {len : Nat} {s t : State} (he : exec (.frmBuild len) s = .next t)
    (herr : t.lastErr ≠ 0x00#8) : ∃ e, t = s.raise .control e := by
  obtain ⟨hok, -⟩ | ⟨e, -, ht⟩ | ⟨hsyn, -⟩ := exec_control rfl he
  · exact absurd hok herr
  · exact ⟨e, ht⟩
  · cases hsyn

/-- Settles O55: a FRM.BUILD that fails only raises its error, and every other command leaves the packet alone. -/
theorem onlyFrameBuildChangesThePacket : Obligations.OnlyFrameBuildChangesThePacket := by
  intro i s t he herr
  by_cases hi : ∃ len, i = .frmBuild len
  · obtain ⟨len, rfl⟩ := hi
    obtain ⟨e, rfl⟩ := exec_frmBuild_failed he (herr len rfl)
    simp
  · exact exec_packet (fun len h => hi ⟨len, h⟩) he

end Sys2Proof.Machine
end

section
/-! PROOFS. The filter step (42_fir.md R141, R142). -/

namespace Sys2Proof.Machine

/-- The weighted sum multiplies and accumulates the sixteen pairs of slot and weight, in ascending slot order (R142). -/
theorem firSum_eq_foldl_pairs (coef : Vector F64 8) (hist : Vector F64 16) :
    firSum coef hist = ((List.finRange 16).map fun k => (hist[k], firWeight coef k)).foldl
      (fun y p => F64.fadd y (F64.fmul p.1 p.2)) F64.posZero := by
  rw [firSum, List.foldl_map]

/-- Settles O14: the history is the shifted one, and the sum is taken over the shifted history; its pairs, read by
`firShift_get`, are those the statement lists. -/
theorem filterShiftsThenSums : Obligations.FilterShiftsThenSums := by
  intro coef hist x
  constructor
  · intro k
    rw [firStep_snd, firShift_get]
  · rw [firStep_fst, firSum_eq_foldl_pairs]
    refine congrArg (List.foldl _ _) ?_
    simp only [firShift_get]
    rfl

end Sys2Proof.Machine
end

section
/-! PROOFS. The quantizer, the length and the capacity of a waveform, and WAV.RD (43_synth.md R155, R156, R159, R163). -/

namespace Sys2Proof.Machine

/-! The quantizer (R159). -/

/-- The quantizer's scale as the datum that the rule writes. -/
theorem ofNat_amp : F64.ofNat Config.amp = F64.ofBits 0x405FC00000000000#64 := by decide +kernel

/-- Truncation toward zero keeps the integer part of the magnitude, and the sign (R11). -/
theorem trunc_fin (s : Bool) {e : Fin 2047} {f : BitVec 52} {t : Nat} (hlo : t * F64.one1074 ≤ F64.mag e f)
    (hhi : F64.mag e f < (t + 1) * F64.one1074) :
    F64.trunc (.fin s e f) = some (if s then -(t : Int) else t) := by
  have hdiv : (F64.mag e f : Int).tdiv F64.one1074 = t := by
    rw [← Int.ofNat_tdiv, Nat.div_eq_of_lt_le hlo hhi]
  cases s with
  | false => exact congrArg some hdiv
  | true => exact congrArg some (by rw [F64.units_fin, if_pos rfl, Int.neg_tdiv, hdiv, if_pos rfl])

theorem q8_of_trunc_none {y : F64} (h : F64.trunc (F64.fmul y (F64.ofNat Config.amp)) = none) : q8 y = none := by
  unfold q8
  rw [h]

theorem q8_of_trunc_some {y : F64} {t : Int} (h : F64.trunc (F64.fmul y (F64.ofNat Config.amp)) = some t) :
    q8 y = if t < -127 ∨ 127 < t then none else some t := by
  unfold q8
  rw [h]

/-- The quantizer's range check is one on the magnitude, since the range is symmetric. -/
theorem signed_outside_iff (s : Bool) (t : Nat) :
    ((if s then -(t : Int) else t) < -127 ∨ 127 < (if s then -(t : Int) else t)) ↔ ¬t ≤ 127 := by
  cases s <;> simp

/-- Settles O18: a NaN product has no integer part, a finite one has its magnitude's with the sign, and the range check
is one on that magnitude; the rule's examples are computed. -/
theorem quantizerTruncatesTowardZero : Obligations.QuantizerTruncatesTowardZero := by
  refine ⟨fun y hy => ?nan, fun y s e f t hy hlo hhi => ?fin, by decide +kernel⟩
  case nan =>
    rw [← ofNat_amp] at hy
    exact q8_of_trunc_none (congrArg F64.trunc hy)
  case fin =>
    rw [← ofNat_amp] at hy
    rw [q8_of_trunc_some ((congrArg F64.trunc hy).trans (trunc_fin s hlo hhi)), if_congr (signed_outside_iff s t) rfl rfl,
      ite_not]

/-! The length of a waveform (R155) and the capacity check (R156). -/

theorem State.raise_control_lastErr_ne_zero (s : State) (e : ErrorCode) : (s.raise .control e).lastErr ≠ 0x00#8 :=
  e.code_ne_zero

/-- A SYN.RUN that leaves no error code has read a packet and synthesized it. -/
theorem synRunSteps_succeeded {c : Cfg} {s t : State} (h : synRunSteps c s = .next t) (herr : t.lastErr = 0x00#8) :
    ∃ packet bytes o, s.pkt.readBlock 0 s.pktLen = some packet ∧ synthesize c packet = some (bytes, o) ∧
      t = s.synthesized bytes o := by
  obtain ⟨-, rfl⟩ | ⟨-, -, rfl⟩ | ⟨-, -, -, rfl⟩ | ⟨-, -, -, packet, hp, ⟨-, rfl⟩ | ⟨bytes, o, hs, rfl⟩⟩ :=
    synRunSteps_next h
  · exact absurd herr (s.raise_control_lastErr_ne_zero _)
  · exact absurd herr (s.raise_control_lastErr_ne_zero _)
  · exact absurd herr (s.raise_control_lastErr_ne_zero _)
  · exact absurd herr (s.dropWave.raise_control_lastErr_ne_zero _)
  · exact ⟨packet, bytes, o, hp, hs, rfl⟩

/-- Settles O20: the length of a synthesis, which a SYN.RUN that succeeds writes into WLEN. -/
theorem waveformLengthIsExact : Obligations.WaveformLengthIsExact := by
  refine ⟨fun c packet bytes o => synthesize_length, fun c s t h herr => ?_⟩
  obtain ⟨-, hrun⟩ := guardConfig_next h
  obtain ⟨packet, bytes, o, hp, hs, rfl⟩ := synRunSteps_succeeded hrun herr
  obtain ⟨hlen, -⟩ := Memory.readBlock_eq_some.mp hp
  exact hlen ▸ synthesize_length hs

/-- Every packet of the invariant has a waveform that fits this hardware's memory (R156). -/
theorem State.InvWith.capacity {s : State} (h : s.Inv) (hv : s.pktValid = true) :
    2 * Config.hw.pairs s.pktLen ≤ Config.hw.waveCap := by
  obtain ⟨payload, hp, hlen, -⟩ := h.packet_sound hv
  exact hlen ▸ capacity_hw hp

/-- Settles O24: the check raises before anything is written, and every packet of the invariant passes it on this
hardware. -/
theorem capacityCheckOnlyForOtherConfigurations : Obligations.CapacityCheckOnlyForOtherConfigurations := by
  refine ⟨fun c s hc hb hv hcap => ?_, fun s t hinv he => ?_⟩
  · exact (guardConfig_valid hc _).trans (synRunSteps_exhausted hb hv hcap)
  · obtain ⟨-, rfl⟩ | ⟨-, -, rfl⟩ | ⟨-, hv, hcap, -⟩ | ⟨-, -, -, packet, -, ⟨-, rfl⟩ | ⟨bytes, o, -, rfl⟩⟩ :=
      synRunSteps_next he
    · exact (by decide : ErrorCode.waveformFrozen.code ≠ 0x07#8)
    · exact (by decide : ErrorCode.noPacket.code ≠ 0x07#8)
    · exact absurd (hinv.capacity hv) (Nat.not_le.mpr hcap)
    · exact (by decide : ErrorCode.amplitudeOverflow.code ≠ 0x07#8)
    · exact (by decide : 0x00#8 ≠ 0x07#8)

/-! WAV.RD (R163). -/

theorem decode_wavRd (i : BitVec 24) : decode .control (0x21000000#32 ||| i.setWidth 32) = .ok (.wavRd i.toNat) :=
  decode_pattern_or_operand
    (r := ⟨0x21#8, .control, 0x21000000#32, 0xFF000000#32, fun w => .wavRd (fieldU24 w).toNat⟩)
    (by simp [opTable]) (by omega) (by decide)
    (congrArg (fun v : BitVec 24 => Instr.wavRd v.toNat) (fieldU24_encodeU24 0x21#8 i))

/-- Settles O29: the three branches of WAV.RD; under the invariant every byte of a waveform can be read. -/
theorem waveReadReturnsOneByte : Obligations.WaveReadReturnsOneByte := by
  refine ⟨decode_wavRd, fun i s hinv hv hi => ?_, fun i s hv => execWavRd_noWaveform hv i,
    fun i s hv hi => execWavRd_range hv hi⟩
  obtain ⟨b, hb⟩ := hinv.read_wave hv hi
  exact ⟨b, hb, execWavRd_ok hv hi hb⟩

end Sys2Proof.Machine
end

section
/-! PROOFS. The sample FIFO (44_fifo.md R180 to R189): its transitions, FIFO.ARM, and FIFO.FILL in each state. -/

namespace Sys2Proof.Machine

/-! The FIFO state (R32) under the operations that leave ARMED and REM alone. -/

@[simp] theorem State.raise_fifoState (p : Port) (e : ErrorCode) (s : State) : (s.raise p e).fifoState = s.fifoState :=
  State.fifoState_congr (by simp) (by simp)

@[simp] theorem State.sinkOk_fifoState (r : FillResult) (d : Option (List Byte)) (s : State) :
    (s.sinkOk r d).fifoState = s.fifoState := State.fifoState_congr rfl rfl

theorem State.streamBusy_iff_fifoState {s : State} :
    s.streamBusy = true ↔ s.fifoState = .streaming ∨ s.fifoState = .draining := by
  cases hf : s.fifoState <;> simp [State.streamBusy, hf]

theorem State.not_streamBusy_iff_fifoState {s : State} :
    s.streamBusy = false ↔ s.fifoState = .idle ∨ s.fifoState = .done := by
  cases hf : s.fifoState <;> simp [State.streamBusy, hf]

/-- Only FIFO.ARM and FIFO.FILL move the stream. -/
theorem exec_cursor {i : Instr} {s t : State} (harm : i ≠ .fifoArm) (hfill : ∀ n, i ≠ .fifoFill n)
    (he : exec i s = .next t) : t.armed = s.armed ∧ t.pos = s.pos ∧ t.rem = s.rem := by
  cases i with
  | fifoArm => exact absurd rfl harm
  | fifoFill n => exact absurd rfl (hfill n)
  | crcSeed => rw [← next_inj he]; simp
  | crcLoad v => rw [← next_inj he]; simp
  | crcUpd b => rw [← next_inj he]; simp
  | crcRd => rw [← next_inj he]; simp
  | crcRdc => rw [← next_inj he]; simp
  | payWr idx b => rcases execPayWr_next he with ⟨-, rfl⟩ | ⟨-, rfl⟩ <;> simp
  | frmBuild len => rcases execFrmBuild_next he with ⟨-, rfl⟩ | ⟨-, -, rfl⟩ | ⟨-, p, -, -, rfl⟩ <;> simp
  | pktRd j => rcases execPktRd_next he with ⟨-, rfl⟩ | ⟨-, -, rfl⟩ | ⟨-, -, b, -, rfl⟩ <;> simp
  | synRun =>
    rcases synRunSteps_next he with ⟨-, rfl⟩ | ⟨-, -, rfl⟩ | ⟨-, -, -, rfl⟩ |
      ⟨-, -, -, p, -, ⟨-, rfl⟩ | ⟨bytes, o, -, rfl⟩⟩ <;> simp [State.synthesized]
  | wavRd j => rcases execWavRd_next he with ⟨-, rfl⟩ | ⟨-, -, rfl⟩ | ⟨-, -, b, -, rfl⟩ <;> simp

/-! FIFO.ARM. -/

/-- A waveform is never empty on this hardware, so a stream that starts has bytes to send. -/
theorem State.InvWith.wlen_pos {s : State} (h : s.Inv) (hv : s.wavValid = true) : 0 < s.wlen := by
  obtain ⟨payload, bytes, o, hp, hs, hlen, -⟩ := h.wave_sound hv
  exact hlen ▸ (waveform_fits hp hs).1

/-- A FIFO.ARM either raises an error, or has found the stream not busy and starts Streaming. -/
theorem execFifoArm_fifoState {s t : State} (hinv : s.Inv) (he : execFifoArm s = .next t) :
    (t.lastErr ≠ 0x00#8 ∧ t.fifoState = s.fifoState) ∨
    (t.lastErr = 0x00#8 ∧ (s.fifoState = .idle ∨ s.fifoState = .done) ∧ t.fifoState = .streaming) := by
  obtain ⟨-, rfl⟩ | ⟨-, -, rfl⟩ | ⟨hb, hv, rfl⟩ := execFifoArm_next he
  · exact .inl ⟨s.raise_control_lastErr_ne_zero _, s.raise_fifoState _ _⟩
  · exact .inl ⟨s.raise_control_lastErr_ne_zero _, s.raise_fifoState _ _⟩
  · have hrem : (0 : Int) < s.wlen := Int.natCast_pos.mpr (hinv.wlen_pos hv)
    exact .inr ⟨rfl, State.not_streamBusy_iff_fifoState.mp hb, State.fifoState_eq_streaming.mpr ⟨rfl, hrem⟩⟩

/-! FIFO.FILL. -/

/-- Where FIFO.FILL leads from each state of the FIFO. -/
theorem execFifoFill_fifoState {n : Nat} {s t : State} (he : execFifoFill n s = .next t) :
    (s.fifoState = .idle ∧ t.fifoState = .idle ∧ t.sinkErr = 0x0C#8) ∨
    (s.fifoState = .streaming ∧ t.armed = true ∧ 0 ≤ t.rem) ∨
    (s.fifoState = .draining ∧ t.fifoState = .done) ∨ (s.fifoState = .done ∧ t.fifoState = .done) := by
  obtain ⟨hf, rfl⟩ | ⟨hf, bytes, -, rfl⟩ | ⟨hf, rfl⟩ | ⟨hf, rfl⟩ := execFifoFill_next he
  · exact .inl ⟨hf, (s.raise_fifoState _ _).trans hf, rfl⟩
  · obtain ⟨ha, hr⟩ := State.fifoState_eq_streaming.mp hf
    refine .inr (.inl ⟨hf, ha, ?_⟩)
    simp only [State.sinkOk_rem, State.setCursor_rem]
    omega
  · obtain ⟨ha, -⟩ := State.fifoState_eq_draining.mp hf
    exact .inr (.inr (.inl ⟨hf, State.fifoState_eq_done.mpr ⟨ha, by simp⟩⟩))
  · exact .inr (.inr (.inr ⟨hf, (s.sinkOk_fifoState _ _).trans hf⟩))

/-- Settles O33, by the three lemmas on what moves the stream: FIFO.ARM, FIFO.FILL, and no other command. -/
theorem fifoTransitionsAreExactlyThese : Obligations.FifoTransitionsAreExactlyThese := by
  intro s hinv
  refine ⟨fun rest hin => ⟨_, step_event hin, rfl⟩, fun t he hok => ?arm, fun n => ?fill,
    fun i t he hfill herr => ?other⟩
  case arm =>
    obtain ⟨herr, -⟩ | ⟨-, hfrom, hto⟩ := execFifoArm_fifoState hinv he
    · exact absurd hok herr
    · exact ⟨hfrom, hto⟩
  case fill =>
    obtain ⟨t, he⟩ := exec_total hinv (.fifoFill n)
    refine ⟨t, he, ?_⟩
    obtain ⟨hf, hidle⟩ | ⟨hf, ha, hr⟩ | ⟨hf, hdone⟩ | ⟨hf, hdone⟩ := execFifoFill_fifoState he
    · simp [hf, hidle]
    · simp [hf, State.fifoState_eq_streaming, State.fifoState_eq_draining, ha, hr]
    · simp [hf, hdone]
    · simp [hf, hdone]
  case other =>
    by_cases harm : i = .fifoArm
    · subst harm
      obtain ⟨-, hkeep⟩ | ⟨hok, -⟩ := execFifoArm_fifoState hinv he
      · exact hkeep
      · exact absurd hok (herr rfl)
    · obtain ⟨ha, -, hr⟩ := exec_cursor harm hfill he
      exact State.fifoState_congr ha hr

/-- The bytes of a request that passes the end: those there are, then zeros (R186). -/
theorem getElem?_append_zeros {bytes : List Byte} {n j : Nat} (hj : j < n) :
    (bytes ++ zeros (n - bytes.length))[j]? = if j < bytes.length then bytes[j]? else some 0x00#8 := by
  split
  · next h => exact List.getElem?_append_left h
  · next h =>
    rw [List.getElem?_append_right (by omega), zeros, List.getElem?_replicate, if_pos (by omega)]

/-- Settles O31: the data are the block that FIFO.FILL reads at the cursor, `min(n, REM)` bytes long, and zeros. -/
theorem fillStreamingDeliversBytesInOrder : Obligations.FillStreamingDeliversBytesInOrder := by
  intro n s hinv hf
  obtain ⟨-, -, hrem, -⟩ := hinv.armed_of_streaming hf
  obtain ⟨bytes, hb⟩ := hinv.read_stream hf n
  obtain ⟨hlen, hread⟩ := Memory.readBlock_eq_some.mp hb
  have he := execFifoFill_streaming hf hb
  rw [← hlen] at hread he
  have hmin : min (n : Int) s.rem = bytes.length := by omega
  have hpad : bytes.length < n ↔ s.rem < n := by omega
  refine ⟨bytes ++ zeros (n - bytes.length), ?length, fun j hj hjr => ?wave, fun j hj hjr => ?padding, ?state⟩
  case length =>
    rw [List.length_append, zeros, List.length_replicate]
    omega
  case wave =>
    have hlt : j < bytes.length := by omega
    rw [getElem?_append_zeros hj, if_pos hlt, hread j hlt]
  case padding => rw [getElem?_append_zeros hj, if_neg (by omega)]
  case state =>
    have hstop : (if s.rem < n then FillResult.filledWithPadding else .filled).stop = false := by split <;> rfl
    rw [hmin, Int.toNat_natCast, ← hstop, ← if_congr hpad rfl rfl]
    exact he

theorem decode_fifoArm : decode .control 0x30000000#32 = .ok .fifoArm := by decide

theorem decode_fifoArm_sink : decode .sink 0x30000000#32 = .error .wrongPort := by decide

/-- Settles O30: the two words are computed; the three branches of FIFO.ARM are told apart by whether the stream is
busy and by WAV_VALID. -/
theorem fifoArmStartsAStream : Obligations.FifoArmStartsAStream :=
  ⟨decode_fifoArm, decode_fifoArm_sink,
    fun _ hf hv => execFifoArm_ok (State.not_streamBusy_iff_fifoState.mpr hf) hv,
    fun _ hf => execFifoArm_busy (State.streamBusy_iff_fifoState.mpr hf),
    fun _ hf hv => execFifoArm_noWaveform (State.not_streamBusy_iff_fifoState.mpr hf) hv⟩

/-- In Draining nothing is left to send: the cursor stands at the end of the waveform (R186). -/
theorem State.InvWith.pos_of_draining {c : Cfg} {s : State} (h : s.InvWith c) (hf : s.fifoState = .draining) :
    s.pos = s.wlen := by
  obtain ⟨ha, hr⟩ := State.fifoState_eq_draining.mp hf
  obtain ⟨-, hcursor⟩ := h.cursor_live ha (by omega)
  omega

/-- Settles O32: the three branches of FIFO.FILL outside Streaming. -/
theorem fillOutsideStreaming : Obligations.FillOutsideStreaming := fun n _ =>
  ⟨fun hf => execFifoFill_draining hf n, fun hf => execFifoFill_done hf n, fun hf => execFifoFill_idle hf n,
    fun hinv hf => hinv.pos_of_draining hf⟩

end Sys2Proof.Machine
end

section
/-! PROOFS. Errors (60_exceptions.md R203, R204, R206, R210): the word on the other port, the order of the checks, and
what a command that faults writes on either port. -/

namespace Sys2Proof.Machine

/-! The wrong port (R210). -/

theorem row_fifoFill : ∃ r ∈ opTable, r.op = 0x31#8 ∧ r.port ≠ .control := by decide

theorem rows_control : ∀ op ∈ [0x01#8, 0x02#8, 0x03#8, 0x04#8, 0x05#8, 0x10#8, 0x11#8, 0x12#8, 0x20#8, 0x21#8, 0x30#8],
    ∃ r ∈ opTable, r.op = op ∧ r.port ≠ .sink := by decide

/-- A word with the opcode of a row of the other port raises WrongPort on the port it arrives on, whatever its operand
bits. -/
theorem step_wrongPort {p : Port} {w : Word} (h : ∃ r ∈ opTable, r.op = opOf w ∧ r.port ≠ p) (s : State)
    (rest : List PortEvent) :
    step { s with inputs := commandEvent p w :: rest } = .next ((s.begin rest).raise p .wrongPort) := by
  obtain ⟨r, hm, ho, hp⟩ := h
  exact step_decodeError (decode_wrongPort hm ho hp) s rest

/-- Settles O41: on each port, the opcodes named are those of rows of the other port. -/
theorem wrongPortHasNoOtherEffect : Obligations.WrongPortHasNoOtherEffect := fun w s rest =>
  ⟨fun hop => step_wrongPort (p := .control) (w := w) (by rw [opOf, hop]; exact row_fifoFill) s rest,
    fun hop => step_wrongPort (p := .sink) (rows_control _ hop) s rest⟩

/-! The order of the checks (R206). -/

/-- A run whose branch raises an error leaves that error's code. -/
theorem lastErr_of_raise {r : Result} {s t : State} {e : ErrorCode} (hr : r = .next (s.raise .control e))
    (h : r = .next t) : t.lastErr = e.code := by
  rw [← next_inj (hr.symm.trans h), State.raise_control_lastErr]

/-- Under a configuration, SYN.RUN answers a next state only if the configuration is valid; then it leaves the code of
the branch that raises. -/
theorem synRunWith_lastErr {c : Cfg} {s u t : State} {e : ErrorCode}
    (hr : synRunSteps c s = .next (u.raise .control e)) (h : synRunWith c s = .next t) : t.lastErr = e.code := by
  obtain ⟨-, hrun⟩ := guardConfig_next h
  exact lastErr_of_raise hr hrun

/-- Settles O42: the decoder's three errors, then each command's checks by the equation of the branch that raises, whose
conditions say that the earlier checks pass and nothing of the later ones. -/
theorem firstErrorIsReported : Obligations.FirstErrorIsReported := by
  refine ⟨fun p w hrow => ?reserved, fun p w r hrow hp => ?wrongPort, fun p w r hrow hp hbits => ?bits, fun s t =>
    ⟨fun len he hlen => lastErr_of_raise (execFrmBuild_large hlen s) he, fun len he hlen hw => ?unwritten,
      fun j he hv => lastErr_of_raise (execPktRd_noPacket hv j) he,
      fun j he hv hj => lastErr_of_raise (execPktRd_range hv hj) he,
      fun c he hb => synRunWith_lastErr (synRunSteps_frozen hb c) he,
      fun c he hb hv => synRunWith_lastErr (synRunSteps_noPacket hb hv c) he,
      fun c he hb hv hcap => synRunWith_lastErr (synRunSteps_exhausted hb hv hcap) he,
      fun c packet he hb hv hcap hp hs => synRunWith_lastErr (synRunSteps_overflow hb hv hcap hp hs) he,
      fun i he hv => lastErr_of_raise (execWavRd_noWaveform hv i) he,
      fun i he hv hi => lastErr_of_raise (execWavRd_range hv hi) he,
      fun he hb => lastErr_of_raise (execFifoArm_busy hb) he,
      fun he hb hv => lastErr_of_raise (execFifoArm_noWaveform hb hv) he⟩⟩
  case reserved => exact decode_reserved (rowOf_eq_none.mp hrow)
  case wrongPort =>
    obtain ⟨hm, ho⟩ := rowOf_eq_some.mp hrow
    exact decode_wrongPort hm ho hp
  case bits =>
    obtain ⟨hm, ho⟩ := rowOf_eq_some.mp hrow
    exact hp ▸ decode_reservedBits hm ho hbits
  case unwritten =>
    obtain ⟨i, hi, hunw⟩ := hw
    exact lastErr_of_raise (execFrmBuild_unwritten hlen (readBlock_of_unwritten hi hunw)) he

/-! What a word on a port does: on the control port (R203) and on the sink port (R204). -/

/-- A word on a port raises its decode error, or runs the command that it spells. -/
theorem step_command_next {p : Port} {w : Word} {rest : List PortEvent} {s t : State}
    (hin : s.inputs = commandEvent p w :: rest) (he : step s = .next t) :
    (∃ e, t = (s.begin rest).raise p (decodeErrorCode e)) ∨
      ∃ i, decode p w = .ok i ∧ exec i (s.begin rest) = .next t := by
  rw [step_event hin, portStep_command] at he
  cases hd : decode p w with
  | error e => exact .inl ⟨e, (next_inj ((commandStep_error hd exec _).symm.trans he)).symm⟩
  | ok i => exact .inr ⟨i, rfl, (commandStep_ok hd exec _).symm.trans he⟩

/-- A word on the control port succeeds, raises an error and writes nothing else, or is the SYN.RUN that
AmplitudeOverflow aborts. -/
theorem step_control_next {w : Word} {rest : List PortEvent} {s t : State} (hin : s.inputs = .ctlWrite 0x0 4 w :: rest)
    (he : step s = .next t) :
    (t.lastErr = 0x00#8 ∧ t.sticky = s.sticky) ∨
    (∃ e : ErrorCode, t = (s.begin rest).raise .control e) ∨
    t = (s.begin rest).dropWave.raise .control .amplitudeOverflow := by
  obtain ⟨e, rfl⟩ | ⟨i, hd, hi⟩ := step_command_next (p := .control) hin he
  · exact .inr (.inl ⟨_, rfl⟩)
  · obtain hok | ⟨e, -, rfl⟩ | ⟨-, rfl, -⟩ := exec_control (decode_port hd) hi
    · exact .inl hok
    · exact .inr (.inl ⟨e, rfl⟩)
    · exact .inr (.inr rfl)

/-- Settles O50: a success leaves STICKY, an error writes its code and STICKY, and only AmplitudeOverflow drops the
waveform besides. -/
theorem controlFaultWritesOnlyItsCode : Obligations.ControlFaultWritesOnlyItsCode := by
  intro s t w rest hin he
  obtain ⟨hok, hsticky⟩ | ⟨e, rfl⟩ | rfl := step_control_next hin he
  · exact ⟨fun _ => hsticky, fun herr => absurd hok herr, fun herr => absurd hok herr⟩
  · exact ⟨fun h0 => absurd h0 (State.raise_control_lastErr_ne_zero _ e), fun _ => ⟨rfl, rfl⟩, fun _ _ => rfl⟩
  · exact ⟨fun h0 => absurd h0 (State.raise_control_lastErr_ne_zero _ _), fun _ => ⟨rfl, rfl⟩,
      fun _ h8 => absurd rfl h8⟩

/-- FIFO.FILL raises StreamNotArmed, or moves at most the cursor and responds. -/
theorem execFifoFill_writes {n : Nat} {s t : State} (he : execFifoFill n s = .next t) :
    t = s.raise .sink .streamNotArmed ∨ ∃ pos rem r data, t = (s.setCursor pos rem).sinkOk r data := by
  obtain ⟨-, ht⟩ | ⟨-, bytes, -, ht⟩ | ⟨-, ht⟩ | ⟨-, ht⟩ := execFifoFill_next he
  · exact .inl ht
  · exact .inr ⟨_, _, _, _, ht⟩
  · exact .inr ⟨_, _, _, _, ht⟩
  · exact .inr ⟨s.pos, s.rem, _, _, ht⟩

/-- A word on the sink port raises an error and writes nothing else, or moves at most the cursor and responds. -/
theorem step_sink_next {w : Word} {rest : List PortEvent} {s t : State} (hin : s.inputs = .sinkRequest w :: rest)
    (he : step s = .next t) :
    (∃ e : ErrorCode, t = (s.begin rest).raise .sink e) ∨
      ∃ pos rem r data, t = ((s.begin rest).setCursor pos rem).sinkOk r data := by
  obtain ⟨e, rfl⟩ | ⟨i, hd, hi⟩ := step_command_next (p := .sink) hin he
  · exact .inl ⟨_, rfl⟩
  · obtain ⟨n, rfl⟩ := decode_sink_eq hd
    exact (execFifoFill_writes hi).imp_left fun ht => ⟨_, ht⟩

/-- Settles O51: an error writes its code, STICKY and the fault response; a success writes the cursor, SINK_ERR 0x00 and
the response. -/
theorem sinkNeverTouchesTheControlSide : Obligations.SinkNeverTouchesTheControlSide := by
  intro s t w rest hin he
  obtain ⟨e, rfl⟩ | ⟨pos, rem, r, data, rfl⟩ := step_sink_next hin he
  · exact ⟨rfl, fun h0 => absurd h0 e.code_ne_zero, fun _ => rfl⟩
  · exact ⟨rfl, fun _ => rfl, fun herr => absurd rfl herr⟩

end Sys2Proof.Machine
end

section
/-! PROOFS. Reset (70_reset_and_hazards.md R230) and the values it sets (10_state.md R40). -/

namespace Sys2Proof.Machine

/-- The reset event is a hard reset of the state in which it is taken. -/
theorem step_reset {s : State} {rest : List PortEvent} (hin : s.inputs = .reset :: rest) :
    step s = .next (s.begin rest).hardReset := step_event hin

theorem State.reset_payW (i : Nat) : State.reset.payW i = false := rfl

theorem State.reset_histI (k : Fin 16) : State.reset.histI[k] = F64.posZero := Vector.getElem_replicate k.isLt

theorem State.reset_histQ (k : Fin 16) : State.reset.histQ[k] = F64.posZero := Vector.getElem_replicate k.isLt

/-- Settles O49: a reset event is a hard reset, which keeps of the old state only `inputs` and `freeCount`; the scalars
of the table are the fields of the reset state, no address of PAY is written, and each history is a vector of +0.0. -/
theorem resetPutsEveryRegisterToItsValue : Obligations.ResetPutsEveryRegisterToItsValue :=
  ⟨fun _ _ hin => ⟨_, step_reset hin, rfl⟩, rfl, State.reset_payW, rfl, rfl, State.reset_histI, State.reset_histQ, rfl,
    rfl, rfl, rfl, rfl, rfl, rfl, rfl, rfl, rfl⟩

end Sys2Proof.Machine
end

section
/-! PROOFS. Decoding and encoding are inverse (30_encoding.md sections 1, 3 to 5), and the assembler (R81). -/

namespace Sys2Proof

/-! The word of a command, read by the command's row of the opcode map (R77). -/

/-- The rows of the opcode map meet the words of all commands. -/
theorem pattern_encode : ∀ i : Instr, Laws.Pattern.Statement i
  | .crcSeed => Laws.Pattern.crcSeed
  | .crcLoad v => Laws.Pattern.crcLoad v
  | .crcUpd b => Laws.Pattern.crcUpd b
  | .crcRd => Laws.Pattern.crcRd
  | .crcRdc => Laws.Pattern.crcRdc
  | .payWr idx b => Laws.Pattern.payWr idx b
  | .frmBuild len => Laws.Pattern.frmBuild len
  | .pktRd j => Laws.Pattern.pktRd j
  | .synRun => Laws.Pattern.synRun
  | .wavRd i => Laws.Pattern.wavRd i
  | .fifoArm => Laws.Pattern.fifoArm
  | .fifoFill n => Laws.Pattern.fifoFill n

/-- An operand that fits its field is read back from the field. -/
theorem toNat_ofNat_of_le {w n max : Nat} (h : n ≤ max) (hmax : max < 2 ^ w) : (BitVec.ofNat w n).toNat = n :=
  (BitVec.toNat_ofNat n w).trans (Nat.mod_eq_of_lt (h.trans_lt hmax))

/-- Some row reads every operand of a well-formed command back from the command's word. -/
theorem read_encode {i : Instr} (h : i.WellFormed) : ∃ r ∈ opTable, r.read (encode i) = i := by
  cases i with
  | crcSeed => exact ⟨opTable[0], List.getElem_mem _, rfl⟩
  | crcLoad v => exact ⟨opTable[1], List.getElem_mem _, congrArg Instr.crcLoad (fieldImm16_encodeI16 _ v)⟩
  | crcUpd b => exact ⟨opTable[2], List.getElem_mem _, congrArg Instr.crcUpd (fieldB_encodeB8 _ b)⟩
  | crcRd => exact ⟨opTable[3], List.getElem_mem _, rfl⟩
  | crcRdc => exact ⟨opTable[4], List.getElem_mem _, rfl⟩
  | payWr idx b =>
    refine ⟨opTable[5], List.getElem_mem _, congrArg₂ Instr.payWr ?_ (fieldB_encodeIB _ _ b)⟩
    exact (congrArg BitVec.toNat (fieldIdx_encodeIB _ _ b)).trans (toNat_ofNat_of_le (of_decide_eq_true h) (by decide))
  | frmBuild len =>
    refine ⟨opTable[6], List.getElem_mem _, congrArg Instr.frmBuild ?_⟩
    exact (congrArg BitVec.toNat (fieldImm16_encodeI16 _ _)).trans (toNat_ofNat_of_le (of_decide_eq_true h) (by decide))
  | pktRd j =>
    refine ⟨opTable[7], List.getElem_mem _, congrArg Instr.pktRd ?_⟩
    exact (congrArg BitVec.toNat (fieldImm16_encodeI16 _ _)).trans (toNat_ofNat_of_le (of_decide_eq_true h) (by decide))
  | synRun => exact ⟨opTable[8], List.getElem_mem _, rfl⟩
  | wavRd j =>
    refine ⟨opTable[9], List.getElem_mem _, congrArg Instr.wavRd ?_⟩
    exact (congrArg BitVec.toNat (fieldU24_encodeU24 _ _)).trans (toNat_ofNat_of_le (of_decide_eq_true h) (by decide))
  | fifoArm => exact ⟨opTable[10], List.getElem_mem _, rfl⟩
  | fifoFill n =>
    refine ⟨opTable[11], List.getElem_mem _, congrArg Instr.fifoFill ?_⟩
    exact (congrArg BitVec.toNat (fieldU24_encodeU24 _ _)).trans (toNat_ofNat_of_le (of_decide_eq_true h) (by decide))

/-- The row that reads a command's operands is the row of the command's opcode, port, match and mask. -/
theorem row_of_encode {i : Instr} (h : i.WellFormed) :
    ∃ r ∈ opTable, r.port = i.port ∧ opOf (encode i) = r.op ∧ encode i &&& r.mask = r.pattern ∧
      r.read (encode i) = i := by
  obtain ⟨r, hm, hport, hop, hmatch⟩ := pattern_encode i h
  obtain ⟨r', hm', hread⟩ := read_encode h
  have hop' : opOf (encode i) = r'.op := hread ▸ Machine.opOf_encode_read hm' (encode i)
  obtain rfl := Machine.row_eq_of_op hm hm' (hop.symm.trans hop')
  exact ⟨r, hm, hport, hop, hmatch, hread⟩

/-- Settles O36: the command's row reads its word back on its own port, and raises WrongPort on the other. -/
theorem decodeInvertsEncode : Obligations.DecodeInvertsEncode := by
  intro i h
  obtain ⟨r, hm, hport, hop, hmatch, hread⟩ := row_of_encode h
  exact ⟨decode_eq_ok.mpr ⟨r, hm, hop.symm, hport, hmatch, hread⟩,
    fun p hp => decode_wrongPort hm hop.symm (hport.trans_ne hp.symm)⟩

/-! The command that a row reads from a word, written as a word again. -/

/-- A word that meets a row's match and mask is the row's opcode with the bits that the mask leaves free. -/
theorem word_of_match {r : OpRow} (hm : r ∈ opTable) (k : Nat) (hk : k ≤ 24)
    (hmask : ∀ i < 32, r.mask.getLsbD i = decide (k ≤ i)) {w : Word} (hw : w &&& r.mask = r.pattern) :
    place r.op 24 ||| place (w.extractLsb' 0 k) 0 = w := by
  rw [← Machine.place_op r hm] at hw
  obtain ⟨hop, hbits⟩ := (and_mask_eq w r.op k hk r.mask hmask).mp hw
  rw [← hop]
  exact place_extract w k hk hbits

/-- A word of a format without operands is its pattern. -/
theorem encodeN_of_match {op : BitVec 8} {w : Word} (hw : w &&& 0xFFFFFFFF#32 = place op 24) : encodeN op = w :=
  hw.symm.trans BitVec.and_allOnes

/-- The two operand bytes of format IB (R74) make up its low half. -/
theorem encodeIB_fields (op : BitVec 8) (w : Word) :
    encodeIB op (fieldIdx w) (fieldB w) = place op 24 ||| place (w.extractLsb' 0 16) 0 := by
  rw [encodeIB, BitVec.or_assoc]
  congr 1
  apply BitVec.eq_of_getLsbD_eq
  intro i hi
  simp only [BitVec.getLsbD_or, getLsbD_place, fieldIdx, fieldB, BitVec.getLsbD_extractLsb']
  by_cases h : 8 ≤ i
  · have h8 : 8 + (i - 8) = i := by omega
    have h16 : i - 8 < 8 ↔ i < 16 := by omega
    simp [hi, h, h8, h16]
  · have h8 : i < 8 := by omega
    have h16 : i < 16 := by omega
    simp [hi, h, h8, h16]

/-- No bit of a word that meets a row's match and mask is dropped by reading it. -/
theorem encode_read {r : OpRow} (hm : r ∈ opTable) {w : Word} (hw : w &&& r.mask = r.pattern) :
    encode (r.read w) = w := by
  have hword := fun k hk hmask => word_of_match hm k hk hmask hw
  simp only [opTable, List.mem_cons, List.not_mem_nil, or_false] at hm
  obtain rfl | rfl | rfl | rfl | rfl | rfl | rfl | rfl | rfl | rfl | rfl | rfl := hm
  · exact encodeN_of_match hw
  · exact hword 16 (by omega) (by decide)
  · exact hword 8 (by omega) (by decide)
  · exact encodeN_of_match hw
  · exact encodeN_of_match hw
  · simp only [encode, BitVec.ofNat_toNat, BitVec.setWidth_eq]
    exact (encodeIB_fields _ w).trans (hword 16 (by omega) (by decide))
  · simp only [encode, BitVec.ofNat_toNat, BitVec.setWidth_eq]
    exact hword 16 (by omega) (by decide)
  · simp only [encode, BitVec.ofNat_toNat, BitVec.setWidth_eq]
    exact hword 16 (by omega) (by decide)
  · exact encodeN_of_match hw
  · simp only [encode, BitVec.ofNat_toNat, BitVec.setWidth_eq]
    exact hword 24 (by omega) (by decide)
  · exact encodeN_of_match hw
  · simp only [encode, BitVec.ofNat_toNat, BitVec.setWidth_eq]
    exact hword 24 (by omega) (by decide)

theorem toNat_le_of_two_pow_le {w max : Nat} (v : BitVec w) (h : 2 ^ w ≤ max + 1) : v.toNat ≤ max :=
  Nat.le_of_lt_succ (v.isLt.trans_le h)

/-- A field has no value beyond its range. -/
theorem wellFormed_read {r : OpRow} (hm : r ∈ opTable) (w : Word) : (r.read w).WellFormed := by
  simp only [opTable, List.mem_cons, List.not_mem_nil, or_false] at hm
  obtain rfl | rfl | rfl | rfl | rfl | rfl | rfl | rfl | rfl | rfl | rfl | rfl := hm
  · rfl
  · rfl
  · rfl
  · rfl
  · rfl
  · exact decide_eq_true (toNat_le_of_two_pow_le (fieldIdx w) (by decide))
  · exact decide_eq_true (toNat_le_of_two_pow_le (fieldImm16 w) (by decide))
  · exact decide_eq_true (toNat_le_of_two_pow_le (fieldImm16 w) (by decide))
  · rfl
  · exact decide_eq_true (toNat_le_of_two_pow_le (fieldU24 w) (by decide))
  · rfl
  · exact decide_eq_true (toNat_le_of_two_pow_le (fieldU24 w) (by decide))

/-- Settles O37: the row that decodes a word drops none of its bits. -/
theorem encodeInvertsDecode : Obligations.EncodeInvertsDecode := by
  intro p w i hd
  obtain ⟨r, hm, -, -, hmatch, rfl⟩ := decode_eq_ok.mp hd
  exact ⟨wellFormed_read hm w, Machine.decode_port hd, encode_read hm hmatch⟩

/-- Settles O38: the ten words are decoded. -/
theorem exampleWordsDecode : Obligations.ExampleWordsDecode := by
  unfold Obligations.ExampleWordsDecode
  decide

/-! The assembler (R81). -/

/-- A mnemonic without operands takes none. -/
theorem assemble_nullary {m : String} (hm : m ∈ ["CRC.SEED", "CRC.RD", "CRC.RDC", "SYN.RUN", "FIFO.ARM"])
    {ns : List Nat} (h : ns.length ≠ 0) : assemble m ns = none := by
  obtain ⟨n, ns, rfl⟩ := List.exists_cons_of_length_pos (Nat.pos_of_ne_zero h)
  simp only [List.mem_cons, List.not_mem_nil, or_false] at hm
  obtain rfl | rfl | rfl | rfl | rfl := hm <;> rfl

/-- A mnemonic with one operand takes no other number of operands. -/
theorem assemble_unary {m : String}
    (hm : m ∈ ["CRC.LOAD", "CRC.UPD", "FRM.BUILD", "PKT.RD", "WAV.RD", "FIFO.FILL"]) {ns : List Nat}
    (h : ns.length ≠ 1) : assemble m ns = none := by
  simp only [List.mem_cons, List.not_mem_nil, or_false] at hm
  match ns, h with
  | [], _ => obtain rfl | rfl | rfl | rfl | rfl | rfl := hm <;> rfl
  | [n], h => exact absurd rfl h
  | n :: k :: ns, _ => obtain rfl | rfl | rfl | rfl | rfl | rfl := hm <;> rfl

theorem assemble_payWr_arity {ns : List Nat} (h : ns.length ≠ 2) : assemble "PAY.WR" ns = none :=
  match ns, h with
  | [], _ => rfl
  | [_], _ => rfl
  | [_, _], h => absurd rfl h
  | _ :: _ :: _ :: _, _ => rfl

/-- PAY.WR is refused when either operand is out of its field's range. -/
theorem assemble_payWr (k n : Nat) :
    assemble "PAY.WR" [k, n] = if k ≤ 0xFF ∧ n ≤ 0xFF then some (.payWr k (BitVec.ofNat 8 n)) else none := by
  show (if k ≤ 0xFF then some (Instr.payWr k (BitVec.ofNat 8 n)) else none).bind
    (fun i => if n ≤ 0xFF then some i else none) = _
  by_cases hk : k ≤ 0xFF <;> simp [hk]

/-- An operand is accepted exactly when it fits. -/
theorem fits_eq_some {limit n : Nat} {i j : Instr} (h : (if n ≤ limit then some i else none) = some j) :
    n ≤ limit ∧ i = j :=
  (Option.ite_none_right_eq_some.mp h).imp_right Option.some.inj

theorem assemble_wellFormed {m : String} {ns : List Nat} {i : Instr} (h : assemble m ns = some i) : i.WellFormed := by
  unfold assemble at h
  simp only at h
  split at h
  case h_1 | h_4 | h_5 | h_9 | h_11 => cases h; rfl
  case h_2 | h_3 =>
    obtain ⟨-, rfl⟩ := fits_eq_some h
    rfl
  case h_6 =>
    obtain ⟨i', hi', hb⟩ := Option.bind_eq_some_iff.mp h
    obtain ⟨hk, rfl⟩ := fits_eq_some hi'
    obtain ⟨-, rfl⟩ := fits_eq_some hb
    exact decide_eq_true hk
  case h_7 | h_8 | h_10 | h_12 =>
    obtain ⟨hn, rfl⟩ := fits_eq_some h
    exact decide_eq_true hn
  case h_13 => cases h

/-! The words as numbers, by the formulas of R81's table. -/

theorem toNat_place {n : Nat} (v : BitVec n) (lo : Nat) (h : n + lo ≤ 32) : (place v lo).toNat = v.toNat <<< lo := by
  have hv : v.toNat < 2 ^ n := v.isLt
  have hshift : v.toNat <<< lo < 2 ^ 32 := by
    rw [Nat.shiftLeft_eq]
    calc v.toNat * 2 ^ lo < 2 ^ n * 2 ^ lo := Nat.mul_lt_mul_of_pos_right hv (by positivity)
      _ = 2 ^ (n + lo) := (pow_add ..).symm
      _ ≤ 2 ^ 32 := Nat.pow_le_pow_right (by norm_num) h
  have hn : v.toNat < 2 ^ 32 := hv.trans_le (Nat.pow_le_pow_right (by norm_num) (by omega))
  rw [place, BitVec.toNat_shiftLeft, BitVec.toNat_setWidth, Nat.mod_eq_of_lt hn, Nat.mod_eq_of_lt hshift]

/-- The word of an opcode and one operand of the `w` low bits. -/
theorem toNat_place_or_place (op : BitVec 8) {w n max : Nat} (hn : n ≤ max) (hmax : max < 2 ^ w) (hw : w ≤ 24) :
    (place op 24 ||| place (BitVec.ofNat w n) 0).toNat = (op.toNat <<< 24) ||| n := by
  rw [BitVec.toNat_or, toNat_place op 24 (by omega), toNat_place _ 0 (by omega), toNat_ofNat_of_le hn hmax,
    Nat.shiftLeft_zero]

theorem toNat_encodeIB (op : BitVec 8) {k n : Nat} (hk : k ≤ 0xFF) (hn : n ≤ 0xFF) :
    (encodeIB op (BitVec.ofNat 8 k) (BitVec.ofNat 8 n)).toNat = (op.toNat <<< 24) ||| (k <<< 8) ||| n := by
  rw [encodeIB, BitVec.toNat_or, BitVec.toNat_or, toNat_place op 24 (by omega), toNat_place _ 8 (by omega),
    toNat_place _ 0 (by omega), toNat_ofNat_of_le hk (by decide), toNat_ofNat_of_le hn (by decide), Nat.shiftLeft_zero]

/-- Settles O43: the rows of the assembler's table are its branches, and the words are sums of placed fields. -/
theorem assemblerFollowsItsTable : Obligations.AssemblerFollowsItsTable :=
  ⟨rfl, rfl, rfl, rfl, rfl, fun _ hm _ h => assemble_nullary hm h, fun _ hm _ h => assemble_unary hm h,
    fun _ h => assemble_payWr_arity h, fun _ => rfl, fun _ => rfl, assemble_payWr, fun _ => rfl, fun _ => rfl,
    fun _ => rfl, fun _ => rfl, fun _ _ _ h => assemble_wellFormed h,
    fun _ hn => ⟨toNat_place_or_place 0x02#8 hn (by decide) (by decide),
      toNat_place_or_place 0x11#8 hn (by decide) (by decide), toNat_place_or_place 0x12#8 hn (by decide) (by decide)⟩,
    fun _ _ hk hn => ⟨toNat_place_or_place 0x03#8 hn (by decide) (by decide), toNat_encodeIB 0x10#8 hk hn⟩,
    fun _ hn => ⟨toNat_place_or_place 0x21#8 hn (by decide) (by decide),
      toNat_place_or_place 0x31#8 hn (by decide) (by decide)⟩,
    by decide, by decide, by decide, by decide, by decide⟩

end Sys2Proof
end

section
/-! PROOFS. The invariant (State.InvWith), the step relation (20_memory.md R61) and its configuration (10_state.md
R39). -/

namespace Sys2Proof.Machine

/-! The invariant. -/

/-- Reset empties the memories and clears the cursor, the valid bits and the codes (R40). -/
theorem State.hardReset_inv (s : State) (c : Cfg) : s.hardReset.InvWith c where
  pay_wf := Memory.wf_nil
  pkt_wf := Memory.wf_nil
  wave_wf := Memory.wf_nil
  pay_space := List.forall_mem_nil _
  pkt_space := List.forall_mem_nil _
  wave_space := List.forall_mem_nil _
  packet_sound h := absurd h (by simp)
  packet_none _ := rfl
  wave_sound h := absurd h (by simp)
  wave_fits := Nat.zero_le _
  wave_none _ := rfl
  cursor_idle _ := ⟨rfl, rfl⟩
  cursor_live h := absurd h (by simp)
  cursor_done := ⟨by simp, Nat.zero_le _⟩
  codes_known := by simp
  sticky_clear _ := ⟨rfl, rfl⟩

/-- Settles O58: the reset state is a hard reset of itself. -/
theorem resetHasTheInvariant : Obligations.ResetHasTheInvariant := State.reset.hardReset_inv

/-- A step keeps the invariant if the commands that it can run do. -/
theorem stepBy_inv {c : Cfg} {run : Instr → State → Result}
    (hrun : ∀ i s t, s.InvWith c → run i s = .next t → t.InvWith c) {s t : State} (h : s.InvWith c)
    (he : stepBy run s = .next t) : t.InvWith c := by
  obtain ⟨-, rfl⟩ | ⟨ev, rest, -, ⟨p, w, -, ⟨e, -, rfl⟩ | ⟨i, -, hi⟩⟩ | ⟨_, _, v, -, -, rfl⟩ | ⟨-, rfl⟩⟩ :=
    stepBy_next he
  · exact h.begin []
  · exact (h.begin rest).raise p _
  · exact hrun i _ _ (h.begin rest) hi
  · exact (h.begin rest).answer _
  · exact State.hardReset_inv _ c

/-- Settles O59: every command keeps the invariant, and so does a decode error, a read, reset and an idle step. -/
theorem stepKeepsTheInvariant : Obligations.StepKeepsTheInvariant :=
  ⟨fun _ _ _ h he => stepBy_inv (fun _ _ _ => execWith_inv) h (guardConfig_next he).2,
    fun _ _ h he => stepBy_inv (fun _ _ _ => exec_inv) h he⟩

/-! Which steps complete. -/

theorem stepBy_idle {s : State} (h : s.inputs = []) (run : Instr → State → Result) :
    stepBy run s = .next (s.begin []) := by
  rw [stepBy, h]
  rfl

theorem stepBy_event {s : State} {ev : PortEvent} {rest : List PortEvent} (h : s.inputs = ev :: rest)
    (run : Instr → State → Result) : stepBy run s = portStep run ev (s.begin rest) := by
  rw [stepBy, h]

/-- A word on a port completes if every command does: a word that does not decode raises an error (R80). -/
theorem commandStep_total {run : Instr → State → Result} {s : State} (hrun : ∀ i, ∃ t, run i s = .next t) (p : Port)
    (w : Word) : ∃ t, commandStep run p w s = .next t := by
  cases hd : decode p w with
  | error e => exact ⟨_, commandStep_error hd run s⟩
  | ok i => exact commandStep_ok hd run s ▸ hrun i

theorem portStep_total {run : Instr → State → Result} {s : State} (hrun : ∀ i, ∃ t, run i s = .next t) {ev : PortEvent}
    (hev : ev.isTransaction = true) : ∃ t, portStep run ev s = .next t := by
  cases ev with
  | ctlWrite offset bytes w =>
    obtain ⟨rfl, rfl⟩ := of_decide_eq_true hev
    exact commandStep_total hrun .control w
  | ctlRead offset bytes =>
    cases hv : s.portRead offset bytes with
    | none => exact absurd (of_decide_eq_true hev) (portRead_eq_none.mp hv)
    | some v => exact ⟨_, portStep_read hv run⟩
  | sinkRequest w => exact commandStep_total hrun .sink w
  | reset => exact ⟨_, rfl⟩

/-- A step whose event, if it has one, is a transaction completes, if every command completes where the invariant
holds. -/
theorem stepBy_total {c : Cfg} {run : Instr → State → Result}
    (hrun : ∀ s, s.InvWith c → ∀ i, ∃ t, run i s = .next t) {s : State} (h : s.InvWith c)
    (hev : ∀ ev rest, s.inputs = ev :: rest → ev.isTransaction = true) : ∃ t, stepBy run s = .next t := by
  cases hin : s.inputs with
  | nil => exact ⟨_, stepBy_idle hin run⟩
  | cons ev rest => exact stepBy_event hin run ▸ portStep_total (hrun _ (h.begin rest)) (hev ev rest hin)

/-- Settles O60: in states of the invariant every command completes. -/
theorem everyTransactionCompletes : Obligations.EveryTransactionCompletes := by
  refine ⟨fun c s hc h hev => ?_, fun s h hev => stepBy_total (fun _ => exec_total) h hev⟩
  rw [stepWith, guardConfig_valid hc]
  exact stepBy_total (fun _ => execWith_total hc) h hev

/-! The command that a step runs, and where the configuration is read. -/

theorem stepBy_command {p : Port} {w : Word} {i : Instr} {s : State} {rest : List PortEvent}
    (hin : s.inputs = commandEvent p w :: rest) (hd : decode p w = .ok i) (run : Instr → State → Result) :
    stepBy run s = run i (s.begin rest) := by
  rw [stepBy_event hin, portStep_command, commandStep_ok hd]

theorem stepWith_command {c : Cfg} (hc : c.Valid) {p : Port} {w : Word} {i : Instr} {s : State} {rest : List PortEvent}
    (hin : s.inputs = commandEvent p w :: rest) (hd : decode p w = .ok i) :
    stepWith c s = execWith c i (s.begin rest) := by
  rw [stepWith, guardConfig_valid hc, stepBy_command hin hd]

theorem commandStep_congr {run run' : Instr → State → Result} {p : Port} {w : Word} {s : State}
    (h : ∀ i, decode p w = .ok i → run i s = run' i s) : commandStep run p w s = commandStep run' p w s := by
  cases hd : decode p w with
  | error e => rw [commandStep_error hd, commandStep_error hd]
  | ok i => rw [commandStep_ok hd, commandStep_ok hd, h i hd]

/-- An event is acted on alike under two meanings that agree on the command it issues, if it issues one. -/
theorem portStep_congr {run run' : Instr → State → Result} {ev : PortEvent} {s : State}
    (h : ∀ p w i, ev = commandEvent p w → decode p w = .ok i → run i s = run' i s) :
    portStep run ev s = portStep run' ev s := by
  cases ev with
  | ctlWrite offset bytes w =>
    by_cases hw : offset = 0x0 ∧ bytes = 4
    · obtain ⟨rfl, rfl⟩ := hw
      exact commandStep_congr fun i => h .control w i rfl
    · simp [portStep, isCommandWrite_iff, hw]
  | ctlRead offset bytes => rfl
  | sinkRequest w => exact commandStep_congr fun i => h .sink w i rfl
  | reset => rfl

/-- A step that issues no SYN.RUN is the same under every valid configuration. -/
theorem stepWith_eq_step {c : Cfg} (hc : c.Valid) {s : State}
    (h : ∀ w rest, s.inputs = .ctlWrite 0x0 4 w :: rest → decode .control w ≠ .ok .synRun) : stepWith c s = step s := by
  rw [stepWith, guardConfig_valid hc, step]
  cases hin : s.inputs with
  | nil => rw [stepBy_idle hin, stepBy_idle hin]
  | cons ev rest =>
    rw [stepBy_event hin, stepBy_event hin]
    refine portStep_congr fun p w i hev hd => execWith_exec hc ?_ _
    rintro rfl
    obtain rfl : Port.control = p := decode_port hd
    exact h w rest (hin.trans (hev ▸ rfl)) hd

/-- Settles O45: a step runs the command that its word decodes to; of the commands SYN.RUN alone reads the
configuration; and what an invalid configuration guards is refused. -/
theorem stepRunsTheDecodedCommand : Obligations.StepRunsTheDecodedCommand :=
  ⟨fun _ _ _ _ _ hc => ⟨stepWith_command (p := .control) hc, stepWith_command (p := .sink) hc⟩,
    fun _ s hc => ⟨rfl, fun _ hi => execWith_exec hc hi s, stepWith_eq_step hc⟩,
    fun _ i s hc => ⟨guardConfig_invalid hc _, execWith_invalid hc i s⟩, hw_valid, stepWith_hw, execWith_hw,
    fun _ _ _ _ => ⟨fun hin hd => stepBy_command (p := .control) hin hd exec,
      fun hin hd => stepBy_command (p := .sink) hin hd exec⟩,
    fun s hin => (stepBy_idle hin exec).trans (by rw [State.begin, hin])⟩

/-! While the stream is busy. -/

/-- Settles O57: while the stream is busy a command leaves the waveform, and only FIFO.FILL moves the cursor, which does
not decode on the control port. -/
theorem busyStreamIsFrozen : Obligations.BusyStreamIsFrozen := by
  intro s t hb he
  obtain ⟨-, rfl⟩ | ⟨ev, rest, hin, ⟨p, w, rfl, ⟨e, -, rfl⟩ | ⟨i, hd, hi⟩⟩ | ⟨_, _, v, -, -, rfl⟩ | ⟨rfl, -⟩⟩ :=
    stepBy_next he
  · simp
  · simp
  · obtain ⟨hwave, hlen, hvalid, hcursor⟩ := exec_busy (s := s.begin rest) hb hi
    refine ⟨fun _ => ⟨hwave, hlen, hvalid⟩, fun _ hsink => hcursor ?_⟩
    cases p with
    | control => exact decode_control_ne hd
    | sink => exact absurd hin (hsink w rest)
  · exact ⟨fun _ => ⟨rfl, rfl, rfl⟩, fun _ _ => ⟨rfl, rfl, rfl⟩⟩
  · exact ⟨fun h => absurd hin (h rest), fun h => absurd hin (h rest)⟩

end Sys2Proof.Machine
end

section
/-! PROOFS. Which command writes what (10_state.md R23 to R37), and that none reads the filter's registers (R41). -/

namespace Sys2Proof.Machine

/-! The writes of every command. -/

/-- `t` is `s` after one of the writes that the command can make: an error on its port, or the registers it owns. -/
inductive Writes (s : State) : Instr → State → Prop where
  | error {i : Instr} (e : ErrorCode) : i.port = .control → Writes s i (s.raise .control e)
  | acc {i : Instr} (v : Half) :
      (i = .crcSeed ∨ (∃ imm, i = .crcLoad imm) ∨ ∃ b, i = .crcUpd b) → Writes s i (s.setAcc v).ctlOk
  | result {i : Instr} (v : Word) :
      (i = .crcRd ∨ i = .crcRdc ∨ (∃ j, i = .pktRd j) ∨ ∃ n, i = .wavRd n) → Writes s i (s.setResult v).ctlOk
  | payload (idx : Nat) (b : Byte) : Writes s (.payWr idx b) (s.writePay idx b).ctlOk
  | packet (len : Nat) (bytes : List Byte) (v : Word) :
      Writes s (.frmBuild len) ((s.putPacket bytes).setResult v).ctlOk
  | waveform (bytes : List Byte) (o : Osc) : Writes s .synRun (s.synthesized bytes o)
  | overflow : Writes s .synRun (s.dropWave.raise .control .amplitudeOverflow)
  | arm : Writes s .fifoArm ((s.setCursor 0 s.wlen).setArmed).ctlOk
  | sinkError (n : Nat) (e : ErrorCode) : Writes s (.fifoFill n) (s.raise .sink e)
  | fill (n pos : Nat) (rem : Int) (r : FillResult) (data : Option (List Byte)) :
      Writes s (.fifoFill n) ((s.setCursor pos rem).sinkOk r data)

/-- Every command makes one of its writes. -/
theorem exec_writes {i : Instr} {s t : State} (he : exec i s = .next t) : Writes s i t := by
  cases i with
  | crcSeed => exact next_inj he ▸ .acc _ (.inl rfl)
  | crcLoad v => exact next_inj he ▸ .acc _ (.inr (.inl ⟨v, rfl⟩))
  | crcUpd b => exact next_inj he ▸ .acc _ (.inr (.inr ⟨b, rfl⟩))
  | crcRd => exact next_inj he ▸ .result _ (.inl rfl)
  | crcRdc => exact next_inj he ▸ .result _ (.inr (.inl rfl))
  | payWr idx b =>
    obtain ⟨-, rfl⟩ | ⟨-, rfl⟩ := execPayWr_next he
    · exact .error _ rfl
    · exact .payload idx b
  | frmBuild len =>
    obtain ⟨-, rfl⟩ | ⟨-, -, rfl⟩ | ⟨-, payload, -, -, rfl⟩ := execFrmBuild_next he
    · exact .error _ rfl
    · exact .error _ rfl
    · exact .packet len _ _
  | pktRd j =>
    obtain ⟨-, rfl⟩ | ⟨-, -, rfl⟩ | ⟨-, -, b, -, rfl⟩ := execPktRd_next he
    · exact .error _ rfl
    · exact .error _ rfl
    · exact .result _ (.inr (.inr (.inl ⟨j, rfl⟩)))
  | synRun =>
    obtain ⟨-, rfl⟩ | ⟨-, -, rfl⟩ | ⟨-, -, -, rfl⟩ | ⟨-, -, -, packet, -, ⟨-, rfl⟩ | ⟨bytes, o, -, rfl⟩⟩ :=
      synRunSteps_next he
    · exact .error _ rfl
    · exact .error _ rfl
    · exact .error _ rfl
    · exact .overflow
    · exact .waveform bytes o
  | wavRd n =>
    obtain ⟨-, rfl⟩ | ⟨-, -, rfl⟩ | ⟨-, -, b, -, rfl⟩ := execWavRd_next he
    · exact .error _ rfl
    · exact .error _ rfl
    · exact .result _ (.inr (.inr (.inr ⟨n, rfl⟩)))
  | fifoArm =>
    obtain ⟨-, rfl⟩ | ⟨-, -, rfl⟩ | ⟨-, -, rfl⟩ := execFifoArm_next he
    · exact .error _ rfl
    · exact .error _ rfl
    · exact .arm
  | fifoFill n =>
    obtain rfl | ⟨pos, rem, r, data, rfl⟩ := execFifoFill_writes he
    · exact .sinkError n _
    · exact .fill n pos rem r data

/-! The owners of the registers. -/

theorem Writes.pay_eq {i : Instr} {s t : State} (h : Writes s i t) (hi : ∀ idx b, i ≠ .payWr idx b) :
    t.pay = s.pay := by
  cases h with
  | payload idx b => exact absurd rfl (hi idx b)
  | _ => simp [State.synthesized]

/-- SYN.RUN alone writes the filter's registers, the waveform and the count of free values. -/
theorem Writes.waveform_eq {i : Instr} {s t : State} (h : Writes s i t) (hi : i ≠ .synRun) :
    t.histI = s.histI ∧ t.histQ = s.histQ ∧ t.phase = s.phase ∧ t.wave = s.wave ∧ t.wlen = s.wlen ∧
      t.wavValid = s.wavValid ∧ t.freeCount = s.freeCount := by
  cases h with
  | waveform bytes o => exact absurd rfl hi
  | overflow => exact absurd rfl hi
  | _ => simp

theorem Writes.armed_eq {i : Instr} {s t : State} (h : Writes s i t) (hi : i ≠ .fifoArm) : t.armed = s.armed := by
  cases h with
  | arm => exact absurd rfl hi
  | _ => simp [State.synthesized]

/-- Only the value commands write RESULT, and only when they succeed (R33). -/
theorem Writes.result_eq {i : Instr} {s t : State} (h : Writes s i t)
    (hi : (∀ len j n, i ≠ .crcRd ∧ i ≠ .crcRdc ∧ i ≠ .frmBuild len ∧ i ≠ .pktRd j ∧ i ≠ .synRun ∧ i ≠ .wavRd n) ∨
      t.lastErr ≠ 0x00#8) : t.result = s.result := by
  cases h with
  | result v hv => obtain rfl | rfl | ⟨j, rfl⟩ | ⟨n, rfl⟩ := hv <;> simp at hi
  | packet len bytes v => simp at hi
  | waveform bytes o => simp [State.synthesized] at hi
  | _ => simp

/-- Only FIFO.FILL writes SINK_ERR and drives a response. -/
theorem Writes.sink_eq {i : Instr} {s t : State} (h : Writes s i t) (hi : ∀ n, i ≠ .fifoFill n) :
    t.sinkErr = s.sinkErr ∧ t.answer = s.answer := by
  cases h with
  | sinkError n e => exact absurd rfl (hi n)
  | fill n pos rem r data => exact absurd rfl (hi n)
  | _ => simp [State.synthesized]

theorem Writes.fill_lastErr_eq {n : Nat} {s t : State} (h : Writes s (.fifoFill n) t) : t.lastErr = s.lastErr := by
  cases h with
  | error e hp => cases hp
  | acc v hi => simp at hi
  | result v hi => simp at hi
  | sinkError e => rfl
  | fill pos rem r data => rfl

theorem Writes.inputs_eq {i : Instr} {s t : State} (h : Writes s i t) : t.inputs = s.inputs := by
  cases h <;> simp [State.synthesized]

theorem port_control {i : Instr} (hi : ∀ n, i ≠ .fifoFill n) : i.port = .control := by
  cases i with
  | fifoFill n => exact absurd rfl (hi n)
  | _ => rfl

/-- Settles O53: a command that writes RESULT is a value command that leaves no error code. -/
theorem onlyValueCommandsWriteResult : Obligations.OnlyValueCommandsWriteResult :=
  fun _ _ _ he hi => (exec_writes he).result_eq hi

/-- Settles O56: each clause by what the commands other than the owner write; STICKY by `exec_sticky`. -/
theorem everyRegisterHasItsOwner : Obligations.EveryRegisterHasItsOwner := by
  intro i s t he
  have hw := exec_writes he
  have hsticky := exec_sticky he
  refine ⟨fun hi => exec_acc hi he, hw.pay_eq, fun hi => exec_packet hi he, hw.waveform_eq, hw.armed_eq,
    fun harm hfill => (exec_cursor harm hfill he).2, fun hi => hw.result_eq (.inl hi), fun hi => ?control, ?sink,
    hw.inputs_eq⟩
  case control =>
    obtain ⟨herr, hans⟩ := hw.sink_eq hi
    rw [port_control hi] at hsticky
    exact ⟨herr, hans, hsticky⟩
  case sink =>
    rintro n rfl
    exact ⟨hw.fill_lastErr_eq, hsticky⟩

/-! HIST_I, HIST_Q and PHASE are read by no command (R41): SYN.RUN starts from its own values. -/

/-- Any command takes the same branch under other filter registers, and writes the same but to them. -/
theorem exec_setOsc {i : Instr} {s t : State} (he : exec i s = .next t) (hi hq : Vector F64 16) (ph : F64) :
    ∃ hi' hq' ph', exec i (s.setOsc hi hq ph) = .next (t.setOsc hi' hq' ph') := by
  cases i with
  | synRun =>
    obtain ⟨hb, rfl⟩ | ⟨hb, hv, rfl⟩ | ⟨hb, hv, hc, rfl⟩ | ⟨hb, hv, hc, p, hp, ⟨hs, rfl⟩ | ⟨bytes, o, hs, rfl⟩⟩ :=
      synRunSteps_next he
    · exact ⟨hi, hq, ph, synRunSteps_frozen (s := s.setOsc hi hq ph) hb _⟩
    · exact ⟨hi, hq, ph, synRunSteps_noPacket (s := s.setOsc hi hq ph) hb hv _⟩
    · exact ⟨hi, hq, ph, synRunSteps_exhausted (s := s.setOsc hi hq ph) hb hv hc⟩
    · exact ⟨_, _, _, synRunSteps_overflow (s := s.setOsc hi hq ph) hb hv hc hp hs⟩
    · exact ⟨_, _, _, synRunSteps_ok (s := s.setOsc hi hq ph) hb hv hc hp hs⟩
  | crcSeed => exact ⟨hi, hq, ph, by rw [← next_inj he]; rfl⟩
  | crcLoad v => exact ⟨hi, hq, ph, by rw [← next_inj he]; rfl⟩
  | crcUpd b => exact ⟨hi, hq, ph, by rw [← next_inj he]; rfl⟩
  | crcRd => exact ⟨hi, hq, ph, by rw [← next_inj he]; rfl⟩
  | crcRdc => exact ⟨hi, hq, ph, by rw [← next_inj he]; rfl⟩
  | payWr idx b =>
    obtain ⟨hx, rfl⟩ | ⟨hx, rfl⟩ := execPayWr_next he
    · exact ⟨hi, hq, ph, execPayWr_range hx b _⟩
    · exact ⟨hi, hq, ph, execPayWr_ok hx b _⟩
  | frmBuild len =>
    obtain ⟨hl, rfl⟩ | ⟨hl, ⟨k, hk, hw⟩, rfl⟩ | ⟨hl, p, hp, -, rfl⟩ := execFrmBuild_next he
    · exact ⟨hi, hq, ph, execFrmBuild_large hl _⟩
    · exact ⟨hi, hq, ph, execFrmBuild_unwritten (s := s.setOsc hi hq ph) hl (readBlock_of_unwritten (s := s) hk hw)⟩
    · exact ⟨hi, hq, ph, execFrmBuild_ok (s := s.setOsc hi hq ph) hl hp⟩
  | pktRd j =>
    obtain ⟨hv, rfl⟩ | ⟨hv, hj, rfl⟩ | ⟨hv, hj, b, hb, rfl⟩ := execPktRd_next he
    · exact ⟨hi, hq, ph, execPktRd_noPacket (s := s.setOsc hi hq ph) hv j⟩
    · exact ⟨hi, hq, ph, execPktRd_range (s := s.setOsc hi hq ph) hv hj⟩
    · exact ⟨hi, hq, ph, execPktRd_ok (s := s.setOsc hi hq ph) hv hj hb⟩
  | wavRd j =>
    obtain ⟨hv, rfl⟩ | ⟨hv, hj, rfl⟩ | ⟨hv, hj, b, hb, rfl⟩ := execWavRd_next he
    · exact ⟨hi, hq, ph, execWavRd_noWaveform (s := s.setOsc hi hq ph) hv j⟩
    · exact ⟨hi, hq, ph, execWavRd_range (s := s.setOsc hi hq ph) hv hj⟩
    · exact ⟨hi, hq, ph, execWavRd_ok (s := s.setOsc hi hq ph) hv hj hb⟩
  | fifoArm =>
    obtain ⟨hb, rfl⟩ | ⟨hb, hv, rfl⟩ | ⟨hb, hv, rfl⟩ := execFifoArm_next he
    · exact ⟨hi, hq, ph, execFifoArm_busy (s := s.setOsc hi hq ph) hb⟩
    · exact ⟨hi, hq, ph, execFifoArm_noWaveform (s := s.setOsc hi hq ph) hb hv⟩
    · exact ⟨hi, hq, ph, execFifoArm_ok (s := s.setOsc hi hq ph) hb hv⟩
  | fifoFill n =>
    obtain ⟨hf, rfl⟩ | ⟨hf, bytes, hb, rfl⟩ | ⟨hf, rfl⟩ | ⟨hf, rfl⟩ := execFifoFill_next he
    · exact ⟨hi, hq, ph, execFifoFill_idle (s := s.setOsc hi hq ph) hf n⟩
    · exact ⟨hi, hq, ph, execFifoFill_streaming (s := s.setOsc hi hq ph) hf hb⟩
    · exact ⟨hi, hq, ph, execFifoFill_draining (s := s.setOsc hi hq ph) hf n⟩
    · exact ⟨hi, hq, ph, execFifoFill_done (s := s.setOsc hi hq ph) hf n⟩

/-- Settles O28: other filter registers are a `setOsc` before the command, and one after it. -/
theorem filterStateIsUnobservable : Obligations.FilterStateIsUnobservable :=
  fun _ _ _ hi hq ph he => exec_setOsc he hi hq ph

end Sys2Proof.Machine
end

section
/-! PROOFS. The CRC accumulator (40_crc.md): linearity (R101), the polynomial (R2, R100), whole packets (R107, R108). -/

namespace Sys2Proof.Machine

/-! Linearity over GF(2) (R101). -/

/-- The feedback of a round: the polynomial exactly when bit 15 is 1. -/
def crcFeedback (c : Half) : Half := if c.getLsbD 15 then Config.crcPoly else 0#16

theorem crcRound_eq (c : Half) : crcRound c = (c <<< 1) ^^^ crcFeedback c := by
  unfold crcRound crcFeedback
  split
  · rfl
  · rw [BitVec.xor_zero]

theorem crcFeedback_xor (a b : Half) : crcFeedback (a ^^^ b) = crcFeedback a ^^^ crcFeedback b := by
  unfold crcFeedback
  rw [BitVec.getLsbD_xor]
  cases a.getLsbD 15 <;> cases b.getLsbD 15 <;> simp

theorem crcRound_xor (a b : Half) : crcRound (a ^^^ b) = crcRound a ^^^ crcRound b := by
  rw [crcRound_eq, crcRound_eq, crcRound_eq, crcFeedback_xor, BitVec.shiftLeft_xor_distrib]
  ac_rfl

theorem crcRounds_xor (n : Nat) (a b : Half) : crcRound^[n] (a ^^^ b) = crcRound^[n] a ^^^ crcRound^[n] b := by
  induction n generalizing a b with
  | zero => rfl
  | succ n ih => rw [Function.iterate_succ_apply, crcRound_xor, ih]; rfl

theorem zext16_xor (x y : Byte) : zext16 (x ^^^ y) = zext16 x ^^^ zext16 y := BitVec.setWidth_xor

theorem crcUpdate_xor (a b : Half) (x y : Byte) : crcUpdate (a ^^^ b) (x ^^^ y) = crcUpdate a x ^^^ crcUpdate b y := by
  unfold crcUpdate
  rw [← crcRounds_xor, zext16_xor, BitVec.shiftLeft_xor_distrib]
  congr 1
  ac_rfl

/-- Settles O5: a round is linear, being a shift and a feedback that depends on one bit. -/
theorem crcUpdateIsLinear : Obligations.CrcUpdateIsLinear := ⟨crcUpdate_xor, by decide⟩

/-! The polynomial (R2, R100). -/

/-- The polynomial over GF(2) with the bits of `v` as its coefficients. -/
noncomputable def bitPoly {n : Nat} (v : BitVec n) : Polynomial (ZMod 2) :=
  ∑ i ∈ Finset.range n, if v.getLsbD i then Polynomial.X ^ i else 0

/-- The polynomial that R2 and R100 write 0x1021. -/
noncomputable def crcModulus : Polynomial (ZMod 2) :=
  Polynomial.X ^ 16 + Polynomial.X ^ 12 + Polynomial.X ^ 5 + 1

theorem bitPoly_xor {n : Nat} (a b : BitVec n) : bitPoly (a ^^^ b) = bitPoly a + bitPoly b := by
  unfold bitPoly
  rw [← Finset.sum_add_distrib]
  refine Finset.sum_congr rfl fun i _ => ?_
  rw [BitVec.getLsbD_xor]
  cases a.getLsbD i <;> cases b.getLsbD i <;> simp [CharTwo.add_self_eq_zero]

/-- A shift by one bit multiplies by x, and drops the top power. -/
theorem bitPoly_mul_X {n : Nat} (v : BitVec (n + 1)) :
    bitPoly v * Polynomial.X = bitPoly (v <<< 1) + if v.getLsbD n then Polynomial.X ^ (n + 1) else 0 := by
  have htop : (if v.getLsbD n then Polynomial.X ^ n else 0) * Polynomial.X =
      if v.getLsbD n then (Polynomial.X : Polynomial (ZMod 2)) ^ (n + 1) else 0 := by
    rw [ite_mul, zero_mul, pow_succ]
  have hlow : (v <<< 1).getLsbD 0 = false := by simp
  unfold bitPoly
  rw [Finset.sum_range_succ, Finset.sum_range_succ' _ n, add_mul, Finset.sum_mul, htop, hlow,
    if_neg Bool.false_ne_true, add_zero, add_left_inj]
  refine Finset.sum_congr rfl fun i hi => ?_
  have hi : i + 1 < n + 1 := by simpa using Finset.mem_range.mp hi
  rw [BitVec.getLsbD_shiftLeft, ite_mul, zero_mul, pow_succ]
  simp [hi]

theorem bitPoly_crcPoly : bitPoly Config.crcPoly = 1 + Polynomial.X ^ 5 + Polynomial.X ^ 12 := by
  simp [bitPoly, Config.crcPoly, Finset.sum_range_succ]

/-- The power that a shift drops and the feedback it causes make up the modulus. -/
theorem bitPoly_crcFeedback (c : Half) : bitPoly (crcFeedback c) + (if c.getLsbD 15 then Polynomial.X ^ 16 else 0) =
    (if c.getLsbD 15 then 1 else 0) * crcModulus := by
  unfold crcFeedback
  cases c.getLsbD 15 with
  | false => simp [bitPoly]
  | true =>
    rw [if_pos rfl, if_pos rfl, if_pos rfl, bitPoly_crcPoly, crcModulus]
    ring

/-- A round multiplies by x, modulo the polynomial. -/
theorem bitPoly_crcRound (c : Half) :
    bitPoly c * Polynomial.X = (if c.getLsbD 15 then 1 else 0) * crcModulus + bitPoly (crcRound c) := by
  have hshift : c <<< 1 = crcRound c ^^^ crcFeedback c := by
    rw [crcRound_eq, BitVec.xor_assoc, BitVec.xor_self, BitVec.xor_zero]
  rw [bitPoly_mul_X, hshift, bitPoly_xor, add_assoc, bitPoly_crcFeedback, add_comm]

theorem bitPoly_crcRounds (n : Nat) (c : Half) :
    ∃ q, bitPoly c * Polynomial.X ^ n = q * crcModulus + bitPoly (crcRound^[n] c) := by
  induction n generalizing c with
  | zero => exact ⟨0, by simp⟩
  | succ n ih =>
    obtain ⟨q, hq⟩ := ih (crcRound c)
    refine ⟨(if c.getLsbD 15 then 1 else 0) * Polynomial.X ^ n + q, ?_⟩
    calc bitPoly c * Polynomial.X ^ (n + 1) = bitPoly c * Polynomial.X * Polynomial.X ^ n := by ring
      _ = (if c.getLsbD 15 then 1 else 0) * Polynomial.X ^ n * crcModulus +
            bitPoly (crcRound c) * Polynomial.X ^ n := by
          rw [bitPoly_crcRound]; ring
      _ = _ := by rw [hq, Function.iterate_succ_apply]; ring

/-- Bits placed `k` places up stand for the polynomial times x^k. -/
theorem bitPoly_setWidth_shiftLeft {n : Nat} (v : BitVec n) (k : Nat) :
    bitPoly (v.setWidth (k + n) <<< k) = bitPoly v * Polynomial.X ^ k := by
  unfold bitPoly
  have hlow : ∀ i ∈ Finset.range k,
      (if (v.setWidth (k + n) <<< k).getLsbD i then (Polynomial.X : Polynomial (ZMod 2)) ^ i else 0) = 0 := by
    intro i hi
    have hi : i < k := Finset.mem_range.mp hi
    simp [hi]
  rw [Finset.sum_range_add, Finset.sum_eq_zero hlow, zero_add, Finset.sum_mul]
  refine Finset.sum_congr rfl fun i hi => ?_
  have hi : i < n := Finset.mem_range.mp hi
  simp [pow_add, mul_comm, hi]

/-- Settles O6: eight rounds multiply by x^8 modulo the polynomial, and the byte was added as byte * x^8 before them. -/
theorem crcUpdateIsPolynomialRemainder : Obligations.CrcUpdateIsPolynomialRemainder := by
  intro crc b
  obtain ⟨q, hq⟩ := bitPoly_crcRounds 8 (crc ^^^ (zext16 b <<< 8))
  rw [bitPoly_xor, zext16, bitPoly_setWidth_shiftLeft b 8] at hq
  exact ⟨q, Eq.trans (by unfold bitPoly; ring) hq⟩

/-! Whole packets (R107, R108). -/

/-- While no 1 reaches bit 15, a round is a shift. -/
theorem crcRounds_eq_shiftLeft (n : Nat) {c : Half} (h : ∀ i, 16 - n ≤ i → c.getLsbD i = false) :
    crcRound^[n] c = c <<< n := by
  induction n generalizing c with
  | zero => simp
  | succ n ih =>
    have hround : crcRound c = c <<< 1 := if_neg (by rw [h 15 (by omega)]; exact Bool.false_ne_true)
    have hbits : ∀ i, 16 - n ≤ i → (c <<< 1).getLsbD i = false := by
      intro i hi
      rw [BitVec.getLsbD_shiftLeft, h (i - 1) (by omega), Bool.and_false]
    rw [Function.iterate_succ_apply, hround, ih hbits, ← BitVec.shiftLeft_add, Nat.add_comm]

/-- The accumulator without its high byte. -/
theorem xor_highByte (v : Half) : v ^^^ (zext16 (highByte v) <<< 8) = zext16 (lowByte v) := by
  apply BitVec.eq_of_getLsbD_eq
  intro i hi
  simp only [zext16, highByte, lowByte, BitVec.getLsbD_xor, BitVec.getLsbD_shiftLeft, BitVec.getLsbD_setWidth,
    BitVec.getLsbD_extractLsb']
  by_cases h : i < 8
  · simp [h, hi]
  · have h8 : 8 + (i - 8) = i := by omega
    have hlt : i - 8 < 8 := by omega
    have hlt16 : i - 8 < 16 := by omega
    simp [h, hi, h8, hlt, hlt16]

/-- Folding the accumulator's own high byte shifts it out. -/
theorem crcUpdate_highByte (v : Half) : crcUpdate v (highByte v) = zext16 (lowByte v) <<< 8 := by
  rw [crcUpdate, xor_highByte]
  refine crcRounds_eq_shiftLeft 8 fun i hi => ?_
  rw [zext16, BitVec.getLsbD_setWidth, BitVec.getLsbD_of_ge _ _ hi, Bool.and_false]

/-- Folding both of its own bytes clears the accumulator. -/
theorem crcUpdate_ownBytes (v : Half) : crcUpdate (crcUpdate v (highByte v)) (lowByte v) = 0#16 := by
  rw [crcUpdate_highByte, crcUpdate, BitVec.xor_self]
  decide

/-- Folding the complement's bytes leaves the seed: by linearity, what 0xFFFF leaves after two zero bytes. -/
theorem crcFold_complement (v : Half) :
    crcFold v [highByte (v ^^^ Config.crcXorOut), lowByte (v ^^^ Config.crcXorOut)] = Config.crcInit := by
  obtain ⟨u, hu⟩ : ∃ u, u = v ^^^ Config.crcXorOut := ⟨_, rfl⟩
  have hv : v = u ^^^ Config.crcXorOut := by rw [hu, BitVec.xor_assoc, BitVec.xor_self, BitVec.xor_zero]
  have hzero (x c : Half) (b : Byte) : crcUpdate (x ^^^ c) b = crcUpdate x b ^^^ crcUpdate c 0#8 := by
    rw [← crcUpdate_xor, BitVec.xor_zero]
  rw [← hu, hv]
  calc crcUpdate (crcUpdate (u ^^^ Config.crcXorOut) (highByte u)) (lowByte u)
      = crcUpdate (crcUpdate u (highByte u)) (lowByte u) ^^^ crcUpdate (crcUpdate Config.crcXorOut 0#8) 0#8 := by
        rw [hzero u, hzero (crcUpdate u (highByte u))]
    _ = 0#16 ^^^ Config.crcInit := by rw [crcUpdate_ownBytes]; decide +kernel
    _ = Config.crcInit := BitVec.zero_xor

/-- The bytes of a packet from the length byte on (R120). -/
theorem packetBytes_drop (payload : List Byte) : (packetBytes payload).drop 5 =
    (lengthByte payload.length :: payload) ++ [highByte (frameCrc payload), lowByte (frameCrc payload)] := rfl

/-! Runs of commands. -/

theorem runCommands_cons {i : Instr} {s t : State} (he : exec i s = .next t) (is : List Instr) :
    runCommands (i :: is) s = runCommands is t := by
  rw [runCommands, he]

theorem runCommands_append {is : List Instr} {s t : State} (h : runCommands is s = .next t) (js : List Instr) :
    runCommands (is ++ js) s = runCommands js t := by
  induction is generalizing s with
  | nil => rw [← next_inj h]; rfl
  | cons i is ih =>
    rw [runCommands] at h
    split at h
    · next u hu => rw [List.cons_append, runCommands_cons hu, ih h]
    · cases h
    · cases h

theorem runCommands_crcUpd (bs : List Byte) (v : Half) (s : State) :
    runCommands (bs.map .crcUpd) (s.setAcc v).ctlOk = .next (s.setAcc (crcFold v bs)).ctlOk := by
  induction bs generalizing v with
  | nil => rfl
  | cons b bs ih => exact (runCommands_cons rfl _).trans (ih (crcUpdate v b))

/-- CRC.SEED and one CRC.UPD a byte fold the bytes from the seed. -/
theorem runCommands_crcSeed_crcUpd (bs : List Byte) (s : State) :
    runCommands ([.crcSeed] ++ bs.map .crcUpd) s = .next (s.setAcc (crcFold Config.crcInit bs)).ctlOk :=
  (runCommands_cons rfl _).trans (runCommands_crcUpd bs Config.crcInit s)

theorem zext32_eq_bytes (v : Half) : zext32 v = ((highByte v).setWidth 32 <<< 8) ||| (lowByte v).setWidth 32 := by
  apply BitVec.eq_of_getLsbD_eq
  intro i hi
  simp only [zext32, highByte, lowByte, BitVec.getLsbD_or, BitVec.getLsbD_shiftLeft, BitVec.getLsbD_setWidth,
    BitVec.getLsbD_extractLsb']
  by_cases h : i < 8
  · simp [h, hi]
  · have h8 : 8 + (i - 8) = i := by omega
    by_cases h16 : i < 16
    · have hlt : i - 8 < 8 := by omega
      have hlt32 : i - 8 < 32 := by omega
      simp [h, hi, h8, hlt, hlt32]
    · have hge : ¬i - 8 < 8 := by omega
      simp [h, hi, hge, BitVec.getLsbD_of_ge v i (by omega)]

/-- Settles O7: CRC.RDC returns the complement of the CRC folded, which is what the packet carries. -/
theorem framedPacketsVerify : Obligations.FramedPacketsVerify := by
  intro s packet len hi lo hinv hv hlen hp hhi hlo
  obtain ⟨payload, -, hplen, rfl⟩ := hinv.packet hv hp
  obtain rfl : len = payload.length := by omega
  obtain ⟨hsize, hread⟩ := Memory.readBlock_eq_some.mp hp
  have hcrc (k : Nat) (hk : 6 + payload.length + k < s.pktLen) : s.pkt.read (6 + payload.length + k) =
      [highByte (frameCrc payload), lowByte (frameCrc payload)][k]? := by
    rw [← packetBytes_crc, ← hread _ hk, Nat.zero_add]
  have hhi' : highByte (frameCrc payload) = hi := Option.some.inj ((hcrc 0 (by omega)).symm.trans hhi)
  have hlo' : lowByte (frameCrc payload) = lo := by
    refine Option.some.inj ((hcrc 1 (by omega)).symm.trans (Eq.trans ?_ hlo))
    congr 1
    omega
  have htake : ((packetBytes payload).drop 5).take (1 + payload.length) = lengthByte payload.length :: payload := by
    rw [packetBytes_drop]
    exact List.take_left' (Nat.add_comm ..)
  rw [htake, runCommands_append (runCommands_crcSeed_crcUpd _ s)]
  refine ⟨_, runCommands_cons rfl _, ?_⟩
  rw [← hhi', ← hlo', ← zext32_eq_bytes]
  rfl

/-- Settles O8: the packet ends with the complement's bytes, which leave the seed. -/
theorem packetResidueIsConstant : Obligations.PacketResidueIsConstant := by
  intro s packet hinv hv hp
  obtain ⟨payload, -, -, rfl⟩ := hinv.packet hv hp
  have hfold : crcFold Config.crcInit ((packetBytes payload).drop 5) = Config.crcInit := by
    rw [packetBytes_drop, crcFold, List.foldl_append]
    exact crcFold_complement _
  rw [runCommands_crcSeed_crcUpd, hfold]
  rfl

end Sys2Proof.Machine
end

section
/-! PROOFS. Binary64 arithmetic (43_synth.md R150). -/

namespace Sys2Proof.Machine

/-! Rounding of the exact results. -/

theorem fdiv_fin {t : Bool} {e' : Fin 2047} {f' : BitVec 52} (h : F64.mag e' f' ≠ 0) (s : Bool) (e : Fin 2047)
    (f : BitVec 52) : F64.fdiv (.fin s e f) (.fin t e' f') =
      F64.round (s ^^ t) (F64.mag e f * F64.one1074) (F64.mag e' f') := by
  rw [F64.fdiv]
  exact if_neg h

/-- The sum with the second operand negated is the difference. -/
theorem units_sub_eq (x y : F64) : x.units - y.units = x.units + y.neg.units := by
  rw [F64.units_neg, Int.sub_eq_add_neg]

theorem fadd_roundsTo {s t : Bool} {e e' : Fin 2047} {f f' : BitVec 52}
    (h : (F64.fin s e f).units + (F64.fin t e' f').units ≠ 0) :
    RoundsTo (decide ((F64.fin s e f).units + (F64.fin t e' f').units < 0))
      ((F64.fin s e f).units + (F64.fin t e' f').units).natAbs 1 (F64.fadd (.fin s e f) (.fin t e' f')) := by
  rw [F64.fadd_fin, if_neg h]
  exact roundsTo_round _ one_pos

/-- Settles O12: each operation is one rounding of the exact result, and a difference is a sum with the second number
negated. -/
theorem arithmeticRoundsToNearestEven : Obligations.ArithmeticRoundsToNearestEven := by
  refine ⟨fun s t e e' f f' h => fadd_roundsTo h, fun s t e e' f f' h => ?_, fun s t e e' f f' => ?_,
    fun s t e e' f f' h => ?_⟩
  · rw [units_sub_eq] at h ⊢
    exact fadd_roundsTo h
  · rw [F64.fmul_fin]
    exact roundsTo_round _ F64.one1074_pos
  · rw [fdiv_fin h]
    exact roundsTo_round _ (Nat.pos_of_ne_zero h)

/-! Special values (log 7). -/

theorem fadd_exact_zero {s t : Bool} {e e' : Fin 2047} {f f' : BitVec 52}
    (h : (F64.fin s e f).units + (F64.fin t e' f').units = 0) :
    F64.fadd (.fin s e f) (.fin t e' f') = .fin (s && t) 0 0#52 := by
  rw [F64.fadd_fin, if_pos h]

theorem fadd_nan (x : F64) : F64.fadd .nan x = .nan ∧ F64.fadd x .nan = .nan := by
  constructor <;> cases x <;> simp [F64.fadd]

theorem fmul_nan (x : F64) : F64.fmul .nan x = .nan ∧ F64.fmul x .nan = .nan := by
  constructor <;> cases x <;> simp [F64.fmul]

theorem fdiv_nan (x : F64) : F64.fdiv .nan x = .nan ∧ F64.fdiv x .nan = .nan := by
  constructor <;> cases x <;> simp [F64.fdiv]

theorem fadd_inf_inf (s t : Bool) : F64.fadd (.inf s) (.inf t) = if s = t then .inf s else .nan := by
  rw [F64.fadd]

theorem fadd_inf_fin (s t : Bool) (e : Fin 2047) (f : BitVec 52) :
    F64.fadd (.inf s) (.fin t e f) = .inf s ∧ F64.fadd (.fin t e f) (.inf s) = .inf s := by
  constructor <;> rw [F64.fadd]

theorem fmul_inf_inf (s t : Bool) : F64.fmul (.inf s) (.inf t) = .inf (s ^^ t) := by
  rw [F64.fmul]

theorem fmul_inf_fin (s t : Bool) (e : Fin 2047) (f : BitVec 52) :
    F64.fmul (.inf s) (.fin t e f) = (if F64.mag e f = 0 then .nan else .inf (s ^^ t)) ∧
      F64.fmul (.fin t e f) (.inf s) = (if F64.mag e f = 0 then .nan else .inf (t ^^ s)) := by
  constructor <;> rw [F64.fmul]

theorem fdiv_inf_inf (s t : Bool) : F64.fdiv (.inf s) (.inf t) = .nan := by
  rw [F64.fdiv]

theorem fdiv_inf_fin (s t : Bool) (e : Fin 2047) (f : BitVec 52) :
    F64.fdiv (.inf s) (.fin t e f) = .inf (s ^^ t) ∧ F64.fdiv (.fin t e f) (.inf s) = .fin (t ^^ s) 0 0#52 := by
  constructor <;> rw [F64.fdiv]

theorem fdiv_by_zero {t : Bool} {e' : Fin 2047} {f' : BitVec 52} (h : F64.mag e' f' = 0) (s : Bool) (e : Fin 2047)
    (f : BitVec 52) :
    F64.fdiv (.fin s e f) (.fin t e' f') = if F64.mag e f = 0 then .nan else .inf (s ^^ t) := by
  rw [F64.fdiv]
  exact if_pos h

/-- Settles O13: each operation's branches, and for `fsub` those of the sum with the negated operand. -/
theorem arithmeticSpecialValues : Obligations.ArithmeticSpecialValues := by
  refine ⟨fun s t e e' f f' h => fadd_exact_zero h, fun s t e e' f f' h => ?difference, fun x => ?nan, fun s t => ?infs,
    fun s t e f => ?infFin, fun s t e e' f f' h => fdiv_by_zero h s e f⟩
  case difference =>
    rw [units_sub_eq] at h
    exact fadd_exact_zero h
  case nan =>
    exact ⟨(fadd_nan x).1, (fadd_nan x).2, (fmul_nan x).1, (fmul_nan x).2, (fdiv_nan x).1, (fdiv_nan x).2,
      (fadd_nan x.neg).1, (fadd_nan x).2⟩
  case infs =>
    refine ⟨fadd_inf_inf s t, (fadd_inf_inf s !t).trans ?_, fmul_inf_inf s t, fdiv_inf_inf s t⟩
    cases s <;> cases t <;> rfl
  case infFin =>
    obtain ⟨hadd, hadd'⟩ := fadd_inf_fin s t e f
    obtain ⟨hmul, hmul'⟩ := fmul_inf_fin s t e f
    obtain ⟨hdiv, hdiv'⟩ := fdiv_inf_fin s t e f
    exact ⟨hadd, hadd', (fadd_inf_fin s (!t) e f).1, (fadd_inf_fin (!s) t e f).2, hmul, hmul', hdiv, hdiv'⟩

end Sys2Proof.Machine
end

section
/-! PROOFS. The filter (42_fir.md): its impulse response (R148), -0.0 (R149), and its bound (R146, R147, R159). -/

namespace Sys2Proof.Machine

/-! -0.0 (R149). -/

/-- A run of sums that does not start from -0.0 does not end in it. -/
theorem foldl_fadd_ne_negZero {α : Type} (p : α → F64) (ks : List α) {y : F64} (hy : y ≠ .fin true 0 0#52) :
    ks.foldl (fun y k => F64.fadd y (p k)) y ≠ .fin true 0 0#52 := by
  induction ks generalizing y with
  | nil => exact hy
  | cons k ks ih => exact ih (fadd_ne_negZero hy)

/-- Settles O16: the filter's sum starts from +0.0; the two zeros are quantized. -/
theorem filterNeverOutputsNegativeZero : Obligations.FilterNeverOutputsNegativeZero := by
  refine ⟨fun coef hist x => ?_, by decide +kernel⟩
  rw [firStep_fst, firSum]
  exact foldl_fadd_ne_negZero _ _ (by decide)

/-! The bound. -/

/-- Settles O17: after the shift the history is still of magnitude at most 1, so the sum exceeds 1 by its roundings at
most, which the quantizer takes. -/
theorem filterOutputIsQuantizable : Obligations.FilterOutputIsQuantizable := by
  intro coef hist x hcoef hhist hx
  rw [firStep_fst]
  obtain ⟨hfin, hbound⟩ := firSum_bound hcoef (firShift_all (p := fun v => v.absLeOne = true) hhist hx)
  obtain ⟨t, ht⟩ := q8_isSome hfin hbound
  exact ⟨hfin, t, ht, q8_range ht⟩

/-! The impulse response (R148). -/

/-- A run of sums in which of every two terms one is zero is exact. -/
theorem foldl_fadd_exact (ps : List F64) {y : F64} (hfin : ∀ p ∈ y :: ps, p.isFinite = true)
    (hzero : (y :: ps).Pairwise fun a b => a.units = 0 ∨ b.units = 0) :
    (ps.foldl F64.fadd y).isFinite = true ∧ (ps.foldl F64.fadd y).units = y.units + (ps.map F64.units).sum := by
  induction ps generalizing y with
  | nil => simpa using hfin
  | cons p ps ih =>
    simp only [List.forall_mem_cons] at hfin
    obtain ⟨hy, hp, hps⟩ := hfin
    obtain ⟨hyp, hpp⟩ := List.pairwise_cons.mp hzero
    obtain ⟨hp0, hps0⟩ := List.pairwise_cons.mp hpp
    obtain ⟨hsum, hunits⟩ := fadd_exact hy hp (hyp p List.mem_cons_self)
    have hrest : ∀ q ∈ ps, (F64.fadd y p).units = 0 ∨ q.units = 0 := by
      intro q hq
      have hyq := hyp q (List.mem_cons_of_mem p hq)
      have hpq := hp0 q hq
      rw [hunits]
      omega
    obtain ⟨hfold, hval⟩ := ih (List.forall_mem_cons.mpr ⟨hsum, hps⟩) (List.pairwise_cons.mpr ⟨hrest, hps0⟩)
    exact ⟨hfold, by rw [List.foldl_cons, hval, hunits, List.map_cons, List.sum_cons, add_assoc]⟩

/-- The history `n` samples after the input 1.0: it stands in slot `15 - n`, until it leaves. -/
def impulseHistory (n : Nat) : Vector F64 16 :=
  Vector.ofFn fun k : Fin 16 => if k.val + n = 15 then F64.one else F64.posZero

theorem impulseHistory_get (n : Nat) (k : Fin 16) :
    (impulseHistory n)[k] = if k.val + n = 15 then F64.one else F64.posZero := by
  simp [impulseHistory]

theorem firShift_one : firShift (Vector.replicate 16 F64.posZero) F64.one = impulseHistory 0 := by
  apply hist_ext
  intro k
  rw [firShift_get, impulseHistory_get]
  by_cases h : k.val < 15
  · rw [dif_pos h, if_neg (by omega), Vector.getElem_replicate]
  · rw [dif_neg h, if_pos (by omega)]

theorem firShift_impulseHistory (n : Nat) : firShift (impulseHistory n) F64.posZero = impulseHistory (n + 1) := by
  apply hist_ext
  intro k
  rw [firShift_get, impulseHistory_get]
  by_cases h : k.val < 15
  · rw [dif_pos h]
    refine (impulseHistory_get n ⟨k.val + 1, by omega⟩).trans (if_congr ?_ rfl rfl)
    exact ⟨fun h => by simp only at h; omega, fun h => by simp only; omega⟩
  · rw [dif_neg h, if_neg (by omega)]

/-- The outputs for zeros after the impulse. -/
theorem firOutputs_zeros (coef : Vector F64 8) (m n : Nat) :
    firOutputs coef (impulseHistory n) (List.replicate m F64.posZero) =
      (List.range' (n + 1) m).map fun j => firSum coef (impulseHistory j) := by
  induction m generalizing n with
  | zero => rfl
  | succ m ih =>
    rw [List.replicate_succ, firOutputs, firStep_fst, firStep_snd, firShift_impulseHistory, ih, List.range'_succ,
      List.map_cons]

theorem firOutputs_impulse (coef : Vector F64 8) (m : Nat) :
    firOutputs coef (Vector.replicate 16 F64.posZero) (F64.one :: List.replicate m F64.posZero) =
      (List.range (m + 1)).map fun j => firSum coef (impulseHistory j) := by
  rw [firOutputs, firStep_fst, firStep_snd, firShift_one, firOutputs_zeros, List.range_eq_range', List.range'_succ,
    List.map_cons]

theorem firWeight_finite {coef : Vector F64 8} (h : ∀ k : Fin 8, coef[k].isFinite = true) (k : Fin 16) :
    (firWeight coef k).isFinite = true := by
  unfold firWeight
  split
  · next hk => exact h ⟨k.val, hk⟩
  · exact h ⟨15 - k.val, by omega⟩

/-- The product of slot `k` in the sum `n` samples after the impulse. -/
def impulseTerm (coef : Vector F64 8) (n : Nat) (k : Fin 16) : F64 :=
  F64.fmul (impulseHistory n)[k] (firWeight coef k)

theorem firSum_impulse_eq (coef : Vector F64 8) (n : Nat) : firSum coef (impulseHistory n) =
    ((List.finRange 16).map (impulseTerm coef n)).foldl F64.fadd F64.posZero := by
  rw [firSum, List.foldl_map]
  rfl

/-- The product is the weight where the impulse stands, and a zero elsewhere. -/
theorem impulseTerm_value {coef : Vector F64 8} (h : ∀ k : Fin 8, coef[k].isFinite = true) (n : Nat) (k : Fin 16) :
    (impulseTerm coef n k).isFinite = true ∧
      (impulseTerm coef n k).units = if k.val + n = 15 then (firWeight coef k).units else 0 := by
  rw [impulseTerm, impulseHistory_get]
  split
  · exact fmul_one_left (firWeight_finite h k)
  · exact fmul_zero_left (firWeight_finite h k)

/-- Of two slots the impulse stands in one at most. -/
theorem impulseTerms_pairwise {coef : Vector F64 8} (h : ∀ k : Fin 8, coef[k].isFinite = true) (n : Nat) :
    ((List.finRange 16).map (impulseTerm coef n)).Pairwise fun a b => a.units = 0 ∨ b.units = 0 := by
  refine List.pairwise_map.mpr ((List.nodup_finRange 16).imp fun {k k'} hne => ?_)
  have hval : k.val ≠ k'.val := fun h => hne (Fin.ext h)
  rw [(impulseTerm_value h n k).2, (impulseTerm_value h n k').2]
  by_cases hk : k.val + n = 15
  · exact .inr (if_neg (by omega))
  · exact .inl (if_neg hk)

/-- The value of the output `n` samples after the impulse. -/
theorem firSum_impulse {coef : Vector F64 8} (h : ∀ k : Fin 8, coef[k].isFinite = true) (n : Nat) :
    (firSum coef (impulseHistory n)).isFinite = true ∧ (firSum coef (impulseHistory n)).units =
      ∑ k : Fin 16, if k.val + n = 15 then (firWeight coef k).units else 0 := by
  obtain ⟨hfin, hval⟩ := foldl_fadd_exact (y := F64.posZero) _
    (List.forall_mem_cons.mpr ⟨rfl, List.forall_mem_map.mpr fun k _ => (impulseTerm_value h n k).1⟩)
    (List.pairwise_cons.mpr ⟨fun _ _ => .inl F64.units_posZero, impulseTerms_pairwise h n⟩)
  rw [firSum_impulse_eq]
  refine ⟨hfin, ?_⟩
  rw [hval, F64.units_posZero, zero_add, List.map_map, Fin.sum_univ_def]
  exact congrArg List.sum (List.map_congr_left fun k _ => (impulseTerm_value h n k).2)

theorem firSum_impulse_early {coef : Vector F64 8} (h : ∀ k : Fin 8, coef[k].isFinite = true) (n : Fin 16) :
    (firSum coef (impulseHistory n.val)).units = (firWeight coef n.rev).units := by
  rw [(firSum_impulse h n.val).2, Finset.sum_eq_single n.rev]
  · exact if_pos (by rw [Fin.val_rev]; omega)
  · intro k _ hk
    exact if_neg fun hn => hk (Fin.ext (by rw [Fin.val_rev]; omega))
  · exact fun hn => absurd (Finset.mem_univ _) hn

/-- After 16 samples the impulse has left the history. -/
theorem firSum_impulse_late {coef : Vector F64 8} (h : ∀ k : Fin 8, coef[k].isFinite = true) (n : Nat) :
    (firSum coef (impulseHistory (16 + n))).units = 0 := by
  rw [(firSum_impulse h (16 + n)).2]
  exact Finset.sum_eq_zero fun k _ => if_neg (by omega)

/-- Settles O15: the output `n` samples after the impulse is the weight of slot `15 - n`, and the weights are the
coefficients and their mirror. -/
theorem filterImpulseResponse : Obligations.FilterImpulseResponse := by
  intro coef n h
  rw [firOutputs_impulse]
  refine ⟨List.forall_mem_map.mpr fun j _ => (firSum_impulse h j).1, ?_⟩
  rw [show 15 + n + 1 = 16 + n by omega, List.range_add, List.map_append, List.map_append, List.map_map, List.map_map,
    List.map_map]
  refine congrArg₂ (· ++ ·) ?early ?late
  case early =>
    rw [show List.range 16 = (List.finRange 16).map Fin.val by decide, List.map_map]
    exact (List.map_congr_left fun k _ => firSum_impulse_early h k).trans rfl
  case late =>
    refine (List.map_congr_left fun k _ => firSum_impulse_late h k).trans ?_
    rw [List.map_const', List.length_range]

end Sys2Proof.Machine
end

section
/-! PROOFS. The synthesizer (43_synth.md): its derived numbers, the waveform by index, and what SYN.RUN writes. -/

namespace Sys2Proof.Machine

/-! The phase step (R153). -/

/-- `2 * PI64` (R151): a doubling, exact. -/
theorem fmul_two_pi : F64.fmul (F64.ofNat 2) pi64 = F64.ofBits 0x401921FB54442D18#64 := by decide +kernel

theorem twoPi_fin : ∃ e f, F64.fmul (F64.ofNat 2) pi64 = .fin false e f ∧ F64.mag e f ≤ 7 * F64.one1074 :=
  ⟨1025, 0x921FB54442D18#52, by rw [fmul_two_pi]; decide +kernel, by decide +kernel⟩

theorem two_pow_add_1074 (k : Nat) : 2 ^ (k + 1074) = 2 ^ k * F64.one1074 := pow_add 2 k 1074

/-- A product of two numbers that are not negative, below a representable bound. -/
theorem fmul_nonneg_le {e e' : Fin 2047} {f f' : BitVec 52} {m k : Nat} (hm : m < 2 ^ 53) (hk : k ≤ 2045)
    (h : F64.mag e f * F64.mag e' f' ≤ m * 2 ^ k * F64.one1074) :
    ∃ e₂ f₂, F64.fmul (.fin false e f) (.fin false e' f') = .fin false e₂ f₂ ∧ F64.mag e₂ f₂ ≤ m * 2 ^ k := by
  rw [F64.fmul_fin]
  exact F64.round_le false F64.one1074_pos hm hk h

/-- The numerator of the phase step: at most 7 * 2^53. -/
theorem deviation_fin {d : Nat} (hd : d < 2 ^ 53) :
    ∃ e f, F64.fmul (F64.fmul (F64.ofNat 2) pi64) (F64.ofNat d) = .fin false e f ∧
      F64.mag e f ≤ 7 * 2 ^ (53 + 1074) := by
  obtain ⟨e, f, hpi, hpile⟩ := twoPi_fin
  obtain ⟨e', f', hdev, hmag⟩ := F64.ofNat_exact hd
  rw [hpi, hdev]
  refine fmul_nonneg_le (by norm_num) (by norm_num) ?_
  calc F64.mag e f * F64.mag e' f' ≤ 7 * F64.one1074 * (2 ^ 53 * F64.one1074) :=
        Nat.mul_le_mul hpile (hmag.trans_le (Nat.mul_le_mul_right _ hd.le))
    _ = 7 * 2 ^ (53 + 1074) * F64.one1074 := by rw [two_pow_add_1074]; ring

/-- The phase step is a quotient of two numbers that are not negative, by one that is at least 1. -/
theorem phaseStep_nonneg {c : Cfg} (hdev : c.devHz < 2 ^ 53) (hsr : c.sr < 2 ^ 53) (hpos : 0 < c.sr) :
    ∃ e f, phaseStep c = .fin false e f := by
  obtain ⟨e, f, hnum, hle⟩ := deviation_fin hdev
  obtain ⟨e', f', hden, hmag⟩ := F64.ofNat_exact hsr
  have hone : F64.one1074 ≤ F64.mag e' f' := hmag ▸ Nat.le_mul_of_pos_left _ hpos
  rw [phaseStep, hnum, hden, fdiv_fin (Nat.ne_of_gt (F64.one1074_pos.trans_le hone))]
  obtain ⟨e₂, f₂, hr, -⟩ := F64.round_le false (F64.one1074_pos.trans_le hone) (m := 7) (k := 53 + 1074) (by norm_num)
    (by norm_num) (Nat.mul_le_mul hle hone)
  exact ⟨e₂, f₂, hr⟩

theorem ofNat_zero : F64.ofNat 0 = F64.posZero := by
  rw [F64.ofNat, Nat.zero_mul, round_zero, F64.posZero]

theorem phaseStep_zero {c : Cfg} (hdev : c.devHz = 0) (hsr : c.sr < 2 ^ 53) (hpos : 0 < c.sr) :
    phaseStep c = F64.posZero := by
  obtain ⟨e, f, hpi, -⟩ := twoPi_fin
  obtain ⟨e', f', hden, hmag⟩ := F64.ofNat_exact hsr
  have hne : F64.mag e' f' ≠ 0 := hmag ▸ (Nat.mul_pos hpos F64.one1074_pos).ne'
  have hzero : F64.mag 0 0#52 = 0 := rfl
  rw [phaseStep, hdev, ofNat_zero, hpi, hden, F64.posZero, F64.fmul_fin, hzero, Nat.mul_zero, round_zero, fdiv_fin hne,
    hzero, Nat.zero_mul, round_zero]
  rfl

/-- Settles O19: the sign by `phaseStep_nonneg`; this hardware's numbers are computed. -/
theorem phaseStepAndSilenceLengths : Obligations.PhaseStepAndSilenceLengths := by
  refine ⟨fun c hc hdev hsr => ?_, rfl, phaseStep_hw, rfl, rfl⟩
  obtain ⟨hbit, hsps, -⟩ := hc
  have hpos : 0 < c.sr := Nat.mul_pos hbit hsps
  exact ⟨phaseStep_nonneg hdev hsr hpos, fun h0 => phaseStep_zero h0 hsr hpos⟩

/-! A waveform by index. -/

/-- A synthesis is two zero bytes a lead-in pair, the two samples of every packet sample, and two zero bytes a lead-out
pair; it leaves the registers of the end. -/
theorem synthesize_index {c : Cfg} (hsps : 1 ≤ c.sps) {packet bytes : List Byte} {o : Osc}
    (h : synthesize c packet = some (bytes, o)) :
    (∀ a < 2 * c.leadIn, bytes[a]? = some 0x00#8) ∧
    (∀ n < 8 * packet.length * c.sps, ∃ ti tq : Int,
      sampleValue c packet c.cos64 n = some ti ∧ sampleValue c packet c.sin64 n = some tq ∧
      bytes[2 * (c.leadIn + n)]? = some (s8ToByte ti) ∧ bytes[2 * (c.leadIn + n) + 1]? = some (s8ToByte tq)) ∧
    (∀ a, 2 * (c.leadIn + 8 * packet.length * c.sps) ≤ a → a < bytes.length → bytes[a]? = some 0x00#8) ∧
    o = oscAt c packet (8 * packet.length * c.sps) := by
  have hlen := synthesize_length h
  obtain ⟨body, hbody, hbytes⟩ := synthesize_eq_some.mp h
  have hbodyLen : body.length = 2 * (8 * packet.length * c.sps) := by
    rw [synthSamples_length hbody, sampleBits_length]
  obtain ⟨hin, hmid, hout⟩ := waveform_parts c.leadIn c.leadOut body bytes hbytes
  obtain ⟨hosc, hsamples⟩ := synthSamples_index c hsps packet (8 * packet.length * c.sps) 0 (Nat.zero_add _) body o
    (by rw [List.drop_zero, oscAt_zero]; exact hbody)
  rw [Nat.zero_add] at hosc
  refine ⟨hin, fun n hn => ?_, fun a ha hlt => hout a (by omega) ?_, hosc⟩
  · obtain ⟨ti, tq, hti, htq, hi, hq⟩ := hsamples n hn
    rw [Nat.zero_add] at hti htq
    refine ⟨ti, tq, hti, htq, ?_, ?_⟩
    · rw [Nat.mul_add, hmid _ (by omega), hi]
    · rw [Nat.mul_add, Nat.add_assoc, hmid _ (by omega), hq]
  · rw [hlen, Cfg.pairs] at hlt
    omega

/-- Settles O22: the registers at the end are those of the sample after the last. -/
theorem synthesisWritesEverySample : Obligations.SynthesisWritesEverySample := by
  intro c packet bytes o hsps h
  obtain ⟨hin, hmid, hout, hosc⟩ := synthesize_index hsps h
  exact ⟨hin, hmid, hout, congrArg Osc.phase hosc⟩

/-! What SYN.RUN writes (R160). -/

/-- Settles O23: the three branches that only raise; an invalid configuration is refused, and this hardware's is
valid. -/
theorem synRunRaisesBeforeWriting : Obligations.SynRunRaisesBeforeWriting :=
  ⟨fun c _ hc => ⟨fun hb => (guardConfig_valid hc _).trans (synRunSteps_frozen hb c),
      fun hb hv => (guardConfig_valid hc _).trans (synRunSteps_noPacket hb hv c),
      fun hb hv hcap => (guardConfig_valid hc _).trans (synRunSteps_exhausted hb hv hcap)⟩,
    fun _ _ hc => guardConfig_invalid hc _, fun _ => (guardConfig_valid hw_valid _).symm⟩

/-- This hardware synthesizes every packet of the invariant (R159). -/
theorem State.InvWith.synthesize_packet {s : State} (h : s.Inv) (hv : s.pktValid = true) {packet : List Byte}
    (hp : s.pkt.readBlock 0 s.pktLen = some packet) : ∃ bytes o, synthesize Config.hw packet = some (bytes, o) := by
  obtain ⟨payload, hlen, -, rfl⟩ := h.packet hv hp
  exact synthesize_hw payload hlen

/-- Settles O25: the branch of an aborted synthesis, which no packet of the invariant reaches on this hardware. -/
theorem amplitudeOverflowDropsTheWaveform : Obligations.AmplitudeOverflowDropsTheWaveform := by
  refine ⟨fun c s packet hc hb hv hcap hp hs => ?_, fun s t hinv he => ?_⟩
  · exact ⟨_, (guardConfig_valid hc _).trans (synRunSteps_overflow hb hv hcap hp hs), fun _ => rfl, rfl⟩
  · obtain ⟨-, rfl⟩ | ⟨-, -, rfl⟩ | ⟨-, -, -, rfl⟩ | ⟨-, hv, -, packet, hp, ⟨hnone, -⟩ | ⟨bytes, o, -, rfl⟩⟩ :=
      synRunSteps_next he
    · exact (by decide : ErrorCode.waveformFrozen.code ≠ 0x08#8)
    · exact (by decide : ErrorCode.noPacket.code ≠ 0x08#8)
    · exact (by decide : ErrorCode.synthesisBufferExhausted.code ≠ 0x08#8)
    · obtain ⟨bytes, o, hs⟩ := hinv.synthesize_packet hv hp
      simp [hs] at hnone
    · exact (by decide : 0x00#8 ≠ 0x08#8)

/-- On this hardware SYN.RUN succeeds for every packet of the invariant while the stream is not busy. -/
theorem exec_synRun_ok {s : State} (h : s.Inv) (hb : s.streamBusy = false) (hv : s.pktValid = true) {packet : List Byte}
    (hp : s.pkt.readBlock 0 s.pktLen = some packet) :
    ∃ bytes o, synthesize Config.hw packet = some (bytes, o) ∧ exec .synRun s = .next (s.synthesized bytes o) := by
  obtain ⟨bytes, o, hs⟩ := h.synthesize_packet hv hp
  exact ⟨bytes, o, hs, synRunSteps_ok hb hv (h.capacity hv) hp hs⟩

theorem State.synthesized_read_lt {bytes : List Byte} {a : Nat} (h : a < bytes.length) (o : Osc) (s : State) :
    (s.synthesized bytes o).wave.read a = bytes[a]? := by
  refine (Memory.read_writeBlock s.wave 0 bytes a).trans ?_
  rw [if_pos (by omega), Nat.sub_zero]

theorem State.synthesized_read_ge {bytes : List Byte} {a : Nat} (h : bytes.length ≤ a) (o : Osc) (s : State) :
    (s.synthesized bytes o).wave.read a = s.wave.read a := by
  refine (Memory.read_writeBlock s.wave 0 bytes a).trans ?_
  rw [if_neg (by omega)]

/-- The history before sample `n` is the one in which sample `n - 1` was inserted. -/
theorem histAt_eq_sampleHistory (c : Cfg) (packet : List Byte) (wave : F64 → F64) {n : Nat} (hn : 0 < n) :
    histAt c packet wave n = sampleHistory c packet wave (n - 1) := by
  rw [sampleHistory_histAt, Nat.sub_add_cancel hn]

/-- Settles O21: WAVE below WLEN holds the synthesis byte by byte, and above it what it held. -/
theorem synRunSynthesizesThePacket : Obligations.SynRunSynthesizesThePacket := by
  intro s packet hinv hb hv hp
  obtain ⟨bytes, o, hs, he⟩ := exec_synRun_ok hinv hb hv hp
  obtain ⟨hplen, -⟩ := Memory.readBlock_eq_some.mp hp
  obtain ⟨hin, hmid, hout, hosc⟩ := synthesize_index (by decide) hs
  have hlen := synthesize_length hs
  rw [pairs_hw, hplen] at hlen
  rw [hplen, show Config.hw.sps = 1000 from rfl] at hmid hout hosc
  rw [show Config.hw.leadIn = 125000 from rfl] at hin hmid hout
  have hpos : 0 < 8 * s.pktLen * 1000 := by
    obtain ⟨payload, -, hl, -⟩ := hinv.packet hv hp
    omega
  have hread {a : Nat} (ha : a < bytes.length) : (s.synthesized bytes o).wave.read a = bytes[a]? :=
    s.synthesized_read_lt ha o
  refine ⟨_, he, hlen.trans (by omega), fun a ha => ?leadIn, fun n hn => ?samples, fun a ha hlt => ?leadOut,
    fun a ha => s.synthesized_read_ge ha o, congrArg Osc.phase hosc, ?histI, ?histQ, rfl⟩
  case leadIn => rw [hread (by omega), hin a ha]
  case samples =>
    obtain ⟨ti, tq, hti, htq, hi, hq⟩ := hmid n hn
    exact ⟨ti, tq, hti, htq, (hread (by omega)).trans hi, (hread (by omega)).trans hq⟩
  case leadOut => rw [hread hlt, hout a (by omega) hlt]
  case histI => exact (congrArg Osc.histI hosc).trans (histAt_eq_sampleHistory _ _ _ hpos)
  case histQ => exact (congrArg Osc.histQ hosc).trans (histAt_eq_sampleHistory _ _ _ hpos)

/-! The waveform depends on the packet only (R161, R241). -/

/-- Settles O27: the synthesis is a function of the packet, and neither command owns the waveform. -/
theorem waveformDependsOnPacketOnly : Obligations.WaveformDependsOnPacketOnly := by
  have hframe {i : Instr} {s t : State} (hi : i ≠ .synRun) (he : exec i s = .next t) :
      t.wave = s.wave ∧ t.wlen = s.wlen ∧ t.wavValid = s.wavValid := by
    obtain ⟨-, -, -, hwave, hlen, hvalid, -⟩ := (exec_writes he).waveform_eq hi
    exact ⟨hwave, hlen, hvalid⟩
  refine ⟨fun s1 s2 h1 h2 hb1 hb2 hv1 hv2 hlen hread => ?_, fun _ _ _ _ => hframe (by simp),
    fun _ _ _ => hframe (by simp)⟩
  obtain ⟨payload, -, -, hp1⟩ := h1.packet_sound hv1
  have hp2 : s2.pkt.readBlock 0 s2.pktLen = some (packetBytes payload) := by
    rw [← hp1, ← hlen]
    exact Memory.readBlock_congr fun j hj => by rw [Nat.zero_add, hread j hj]
  obtain ⟨bytes, o, hs1, he1⟩ := exec_synRun_ok h1 hb1 hv1 hp1
  obtain ⟨bytes', o', hs2, he2⟩ := exec_synRun_ok h2 hb2 hv2 hp2
  obtain ⟨rfl, rfl⟩ : bytes = bytes' ∧ o = o' := by simpa [hs1] using hs2
  exact ⟨_, _, he1, he2, rfl, rfl, fun i hi => (s1.synthesized_read_lt hi o).trans (s2.synthesized_read_lt hi o).symm⟩

/-! The bytes of a waveform (R54). -/

/-- The two's complement byte of a sample in [-127, 127]. -/
def IsSampleByte (b : Byte) : Prop := ∃ t : Int, -127 ≤ t ∧ t ≤ 127 ∧ b = s8ToByte t

theorem isSampleByte_of_q8 {y : F64} {t : Int} (h : q8 y = some t) : IsSampleByte (s8ToByte t) :=
  ⟨t, (q8_range h).1, (q8_range h).2, rfl⟩

theorem synthSamples_isSampleByte {c : Cfg} {step : F64} {es : List Bool} {o o' : Osc} {bs : List Byte}
    (h : synthSamples c step es o = some (bs, o')) : ∀ b ∈ bs, IsSampleByte b := by
  induction es generalizing o bs with
  | nil => cases h; exact List.forall_mem_nil _
  | cons e es ih =>
    obtain ⟨b1, o1, b2, h1, h2, rfl⟩ := synthSamples_cons_eq_some.mp h
    obtain ⟨ti, tq, hi, hq, rfl, -⟩ := synthSample_eq_some h1
    exact List.forall_mem_cons.mpr
      ⟨isSampleByte_of_q8 hi, List.forall_mem_cons.mpr ⟨isSampleByte_of_q8 hq, ih h2⟩⟩

theorem silence_isSampleByte (n : Nat) : ∀ b ∈ silence n, IsSampleByte b := by
  intro b hb
  exact ⟨0, by decide, by decide, (List.mem_replicate.mp hb).2⟩

theorem synthesize_isSampleByte {c : Cfg} {packet bytes : List Byte} {o : Osc}
    (h : synthesize c packet = some (bytes, o)) : ∀ b ∈ bytes, IsSampleByte b := by
  obtain ⟨body, hbody, rfl⟩ := synthesize_eq_some.mp h
  simp only [List.forall_mem_append]
  exact ⟨⟨silence_isSampleByte _, synthSamples_isSampleByte hbody⟩, silence_isSampleByte _⟩

theorem toNat_s8ToByte {t : Int} (hlo : -127 ≤ t) (hhi : t ≤ 127) :
    ((s8ToByte t).toNat : Int) = if 0 ≤ t then t else t + 256 := by
  rw [s8ToByte, BitVec.toNat_ofInt]
  split <;> omega

/-- Settles O26: the waveform of the invariant is a synthesis, whose bytes are those of samples and of silence. -/
theorem waveformBytesAreSamples : Obligations.WaveformBytesAreSamples := by
  intro s i hinv hv hi
  obtain ⟨payload, bytes, o, -, hs, -, hread⟩ := hinv.wave_sound hv
  obtain ⟨-, hbytes⟩ := Memory.readBlock_eq_some.mp hread
  obtain ⟨b, hb⟩ := hinv.read_wave hv hi
  have hmem : b ∈ bytes := List.mem_of_getElem? (i := i) (by rw [← hbytes i hi, Nat.zero_add, hb])
  obtain ⟨t, hlo, hhi, rfl⟩ := synthesize_isSampleByte hs b hmem
  exact ⟨_, t, hb, hlo, hhi, toNat_s8ToByte hlo hhi, s8ToByte_ne hlo hhi⟩

end Sys2Proof.Machine
end

section
/-! PROOFS. A whole stream (44_fifo.md R193), and the transmission that SEND starts (30_encoding.md R82, R233). -/

namespace Sys2Proof.Machine

/-! Runs of requests: after the early ones (`runFills_early`), the one that reaches the end, and those after it. -/

theorem runFills_cons {n : Nat} {s t : State} {r : SinkResponse} (he : exec (.fifoFill n) s = .next t)
    (ha : t.answer = some (.sink r)) (ns : List Nat) :
    runFills (n :: ns) s = (runFills ns t).map fun q => (r :: q.1, q.2) := by
  simp only [runFills, he, ha]

/-- In Draining the next request is answered with silence, and all later ones with AllSamplesSent (R187, R188). -/
theorem runFills_draining (e : Nat) (more : List Nat) {s : State} (h : s.fifoState = .draining) :
    ∃ t, runFills (e :: more) s = some (⟨.streamEnded, false, some (zeros e)⟩
        :: more.map (fun _ => ⟨.allSamplesSent, true, none⟩), t) ∧ t.fifoState = .done ∧ t.pos = s.pos := by
  obtain ⟨ha, -⟩ := State.fifoState_eq_draining.mp h
  have hdone : ((s.setCursor s.pos (-1)).sinkOk .streamEnded (some (zeros e))).fifoState = .done :=
    State.fifoState_eq_done.mpr ⟨ha, by simp⟩
  obtain ⟨t, hrun, ht, hpos⟩ := runFills_done more _ hdone
  exact ⟨t, by rw [runFills_cons (execFifoFill_draining h e) rfl, hrun]; rfl, ht, hpos⟩

/-- A request that reaches the end of the waveform is given the rest of it, padded, and the stream drains (R186). -/
theorem runFills_reaching {m : Nat} {s : State} (hinv : s.Inv) (hf : s.fifoState = .streaming) (hm : s.rem ≤ m)
    (ns : List Nat) :
    ∃ (bytes : List Byte) (t : State), s.wave.readBlock s.pos s.rem.toNat = some bytes ∧ t.fifoState = .draining ∧
      t.pos = s.wlen ∧ runFills (m :: ns) s = (runFills ns t).map fun q =>
        (⟨if s.rem = m then .filled else .filledWithPadding, false, some (bytes ++ zeros (m - s.rem.toNat))⟩ :: q.1,
          q.2) := by
  obtain ⟨-, hcursor, hrem, harmed⟩ := hinv.armed_of_streaming hf
  obtain ⟨bytes, hb⟩ := hinv.read_stream hf m
  have hk : min m s.rem.toNat = s.rem.toNat := by omega
  have he := execFifoFill_streaming hf hb
  rw [hk] at hb he
  have hresult : (if s.rem.toNat < m then FillResult.filledWithPadding else .filled) =
      if s.rem = m then .filled else .filledWithPadding := by
    rw [← ite_not]
    exact if_congr (by omega) rfl rfl
  have hstop : (if s.rem = m then FillResult.filled else .filledWithPadding).stop = false := by split <;> rfl
  rw [hresult] at he
  have hrun := runFills_cons he (by rw [State.sinkOk_answer, hstop]) ns
  refine ⟨bytes, _, hb, ?drained, ?atEnd, hrun⟩
  case drained =>
    refine State.fifoState_eq_draining.mpr ⟨harmed, ?_⟩
    simp only [State.sinkOk_rem, State.setCursor_rem]
    omega
  case atEnd =>
    simp only [State.sinkOk_pos, State.setCursor_pos]
    omega

/-- A waveform armed from a state in which the stream is not busy is at its first byte. -/
def State.streamStart (s : State) : State := ((s.setCursor 0 s.wlen).setArmed).ctlOk

theorem State.InvWith.streamStart_streaming {s : State} (h : s.Inv) (hv : s.wavValid = true) :
    s.streamStart.fifoState = .streaming :=
  State.fifoState_eq_streaming.mpr ⟨rfl, Int.natCast_pos.mpr (h.wlen_pos hv)⟩

/-- Settles O34: the early requests, the one that reaches the end, and those after it, one after the other. -/
theorem streamDeliversTheWaveform : Obligations.StreamDeliversTheWaveform := by
  intro s ns m e more hinv hb hv hlt hge
  refine ⟨s.streamStart, execFifoArm_ok hb hv, ?_⟩
  have hrem : s.streamStart.rem = s.wlen := rfl
  obtain ⟨early, u, w, huinv, hustream, hurem, hupos, huwave, huwlen, hlen, hearly, hdriven, hread, hrun⟩ :=
    runFills_early ns (m :: e :: more) s.streamStart (hinv.arm hv) (hinv.streamStart_streaming hv) (by omega)
  obtain ⟨bytes, v, hbytes, hvdrain, hvpos, hvrun⟩ := runFills_reaching huinv hustream (m := m) (by omega) (e :: more)
  obtain ⟨t, htrun, htdone, htpos⟩ := runFills_draining e more hvdrain
  have hutoNat : u.rem.toNat = s.wlen - ns.sum := by omega
  have hpad : m - u.rem.toNat = ns.sum + m - s.wlen := by omega
  have hfull : u.rem = m ↔ ns.sum + m = s.wlen := by omega
  have hwhole : s.wave.readBlock 0 s.wlen = some (w ++ bytes) := by
    have hrest : s.wave.readBlock (0 + ns.sum) (s.wlen - ns.sum) = some bytes := by
      rw [← hutoNat, ← hbytes, huwave, hupos]
      rfl
    have happ := Memory.readBlock_append s.wave 0 ns.sum (s.wlen - ns.sum) w bytes hread hrest
    rwa [Nat.add_sub_of_le hlt.le] at happ
  rw [hpad, if_congr hfull rfl rfl] at hvrun
  refine ⟨early, ⟨if ns.sum + m = s.wlen then .filled else .filledWithPadding, false,
    some (bytes ++ zeros (ns.sum + m - s.wlen))⟩, w ++ bytes, t, ?run, hlen, hearly, rfl, rfl, hwhole, ?driven, htdone,
    ?pos⟩
  case run =>
    rw [hrun, hvrun, htrun]
    rfl
  case driven =>
    rw [drivenBytes, List.flatMap_append]
    exact (congrArg (· ++ _) hdriven).trans (by simp [zeros])
  case pos => rw [htpos, hvpos, huwlen]; rfl

/-! SEND. -/

theorem runCommands_inv {is : List Instr} {s t : State} (h : s.Inv) (he : runCommands is s = .next t) : t.Inv := by
  induction is generalizing s with
  | nil => exact next_inj he ▸ h
  | cons i is ih =>
    rw [runCommands] at he
    split at he
    · next u hu => exact ih (exec_inv h hu) he
    · cases he
    · cases he

/-- PAY.STR from payload index `k` on stores its bytes there, and changes nothing but PAY and LAST_ERR. -/
theorem runCommands_payStrFrom (bs : List Byte) {k : Nat} (hk : k + bs.length ≤ 255) (s : State) :
    ∃ t, runCommands (payStrFrom k bs) s = .next t ∧ t = { s with pay := t.pay, lastErr := t.lastErr } ∧
      ∀ j, t.pay.read j = if k ≤ j ∧ j < k + bs.length then bs[j - k]? else s.pay.read j := by
  induction bs generalizing k s with
  | nil => exact ⟨s, rfl, rfl, fun j => by rw [if_neg (by simp only [List.length_nil]; omega)]⟩
  | cons b bs ih =>
    rw [List.length_cons] at hk
    obtain ⟨t, hrun, ht, hread⟩ := ih (k := k + 1) (by omega) (s.writePay k b).ctlOk
    refine ⟨t, (runCommands_cons (i := .payWr k b) (execPayWr_ok (by omega) b s) _).trans hrun, ht, fun j => ?_⟩
    have hcell : (s.writePay k b).ctlOk.pay.read j = if j = k then some b else s.pay.read j := by
      split
      · next h => exact h ▸ Memory.read_write_self s.pay k b
      · next h => exact s.writePay_read_other h b
    rw [hread, hcell, List.length_cons]
    obtain hlt | rfl | hgt := Nat.lt_trichotomy j k
    · rw [if_neg (by omega), if_neg (by omega), if_neg (by omega)]
    · rw [if_neg (by omega), if_pos rfl, if_pos (by omega), Nat.sub_self, List.getElem?_cons_zero]
    · rw [if_neg hgt.ne', show j - k = j - (k + 1) + 1 by omega, List.getElem?_cons_succ]
      exact if_congr (by omega) rfl rfl

theorem send_eq {payload : List Byte} (h : payload.length ≤ 255) :
    send payload = some (payStrFrom 0 payload ++ [.frmBuild payload.length, .synRun, .fifoArm]) := by
  rw [send, payStr, if_pos h, Option.map_some]

/-- The state after FRM.BUILD has framed a payload (R124). -/
def State.framed (payload : List Byte) (s : State) : State :=
  ((s.putPacket (packetBytes payload)).setResult (natToWord (8 + payload.length))).ctlOk

/-- FRM.BUILD, SYN.RUN and FIFO.ARM on a payload that is in PAY: each finds what the one before it made. -/
theorem runCommands_build_synRun_arm {s : State} {payload : List Byte} (hinv : s.Inv) (hb : s.streamBusy = false)
    (hlen : payload.length ≤ 255) (hpay : s.pay.readBlock 0 payload.length = some payload) :
    ∃ bytes o, synthesize Config.hw (packetBytes payload) = some (bytes, o) ∧
      runCommands [.frmBuild payload.length, .synRun, .fifoArm] s =
        .next ((s.framed payload).synthesized bytes o).streamStart := by
  have hbuild : exec (.frmBuild payload.length) s = .next (s.framed payload) := execFrmBuild_ok hlen hpay
  obtain ⟨bytes, o, hs, hsyn⟩ := exec_synRun_ok (exec_inv hinv hbuild) hb rfl
    (Memory.readBlock_writeBlock s.pkt 0 (packetBytes payload))
  have harm : exec .fifoArm ((s.framed payload).synthesized bytes o) = .next _ := execFifoArm_ok hb rfl
  exact ⟨bytes, o, hs, by rw [runCommands_cons hbuild, runCommands_cons hsyn, runCommands_cons harm]; rfl⟩

/-- Settles O44: PAY.STR fills the payload, FRM.BUILD makes its packet, SYN.RUN that packet's waveform, and FIFO.ARM
starts its stream. -/
theorem sendStartsATransmission : Obligations.SendStartsATransmission := by
  intro s payload hinv hb hlen
  obtain ⟨p, hstr, hp, hread⟩ := runCommands_payStrFrom payload (k := 0) (by omega) s
  have hpay : ∀ i < payload.length, p.pay.read i = payload[i]? := fun i hi => by
    rw [hread, if_pos (by omega), Nat.sub_zero]
  have hpbusy : p.streamBusy = false := by rw [hp]; exact hb
  have hpsticky : p.sticky = s.sticky := by rw [hp]
  obtain ⟨bytes, o, hs, hrest⟩ := runCommands_build_synRun_arm (runCommands_inv hinv hstr) hpbusy hlen
    (Memory.readBlock_eq_some.mpr ⟨rfl, fun i hi => by rw [Nat.zero_add, hpay i hi]⟩)
  have hrun := (runCommands_append hstr _).trans hrest
  obtain ⟨t, ht⟩ : ∃ t, t = ((p.framed payload).synthesized bytes o).streamStart := ⟨_, rfl⟩
  obtain ⟨hpayt, hpkt, hpktLen, hpktValid, hwave, hwlen, hwavValid, harmed, hpos, hrem, herr, hsticky⟩ :
      t.pay = p.pay ∧ t.pkt = p.pkt.writeBlock 0 (packetBytes payload) ∧ t.pktLen = (packetBytes payload).length ∧
      t.pktValid = true ∧ t.wave = p.wave.writeBlock 0 bytes ∧ t.wlen = bytes.length ∧ t.wavValid = true ∧
      t.armed = true ∧ t.pos = 0 ∧ t.rem = bytes.length ∧ t.lastErr = 0x00#8 ∧ t.sticky = p.sticky := by
    simp [ht, State.streamStart, State.synthesized, State.framed]
  refine ⟨_, t, bytes, o, send_eq hlen, ht ▸ hrun, fun i hi => hpayt ▸ hpay i hi, hpktValid,
    hpktLen.trans (packetBytes_length payload), ?packet, hs, hwavValid, hwlen, ?waveform, ?streaming, hpos,
    hrem.trans (congrArg Nat.cast hwlen.symm), herr, hsticky.trans hpsticky⟩
  case packet => rw [hpkt, hpktLen, Memory.readBlock_writeBlock]
  case waveform => rw [hwave, hwlen, Memory.readBlock_writeBlock]
  case streaming =>
    exact State.fifoState_eq_streaming.mpr ⟨harmed, hrem ▸ Int.natCast_pos.mpr (waveform_fits hlen hs).1⟩

end Sys2Proof.Machine
end
